-- ==== Sys2Proof/Config.lean ====
section
/-! DEFINITION. The parameters of one BBU: the board dimension `N` and the block width `W`
(`00_scope.md` R8, R9). What is derived from them is in `Machine/Params.lean`. -/

namespace Sys2Proof

/-- The legal block widths, `W ∈ {8, 16, 32, 64, 128}` (`00_scope.md` R9). -/
inductive BlockWidth where
  | w8 | w16 | w32 | w64 | w128
  deriving DecidableEq, Repr

/-- The shape of one unit (`00_scope.md` R8, R9). `n` is the board dimension `N`; the legal range
`1 ≤ N ≤ 255` is `Config.legal`. -/
structure Config where
  n : Nat
  bw : BlockWidth
  deriving DecidableEq, Repr

end Sys2Proof
end

