-- ==== Sys2Proof/Word.lean ====
section
/-! DEFINITION. The values that cross the BBU's command interface and fill its registers
(`00_scope.md` R12 to R15, `30_encoding.md` R80). -/

namespace Sys2Proof

/-- A board register number, `b0` to `b7`; all eight values are legal (`30_encoding.md` R83). -/
abbrev Reg := Fin 8

/-- One block: a `W`-bit unsigned value. `W` is a parameter of the unit, so a block is an integer
as in the spec's own notation (`00_scope.md` R14, R15); that it is below `2^W` is part of
`BoardWf` (assumption log 7). -/
abbrev Block := Nat

/-- A board: its blocks `blk[0]`, `blk[1]`, … in ascending index (`10_state.md` R20). -/
abbrev Board := List Block

/-- The 32-bit command word (`30_encoding.md` R80). -/
abbrev CmdWord := BitVec 32

/-- What the host presents for one command: the command word and, travelling beside it, the
`W`-bit write data that only WRBLK reads (`30_encoding.md` R80, `93_implementation_defined.md`
U13). -/
structure Command where
  word : CmdWord
  wdata : Block
  deriving DecidableEq, Repr

end Sys2Proof
end

