-- ==== Sys2Proof/Machine/Params.lean ====
section
/-! DEFINITION. The constants derived from `N` and `W` (`00_scope.md` R10 to R12). -/

namespace Sys2Proof

/-- `W`, the block width in bits (`00_scope.md` R9). -/
def Config.width (c : Config) : Nat :=
  match c.bw with
  | .w8 => 8
  | .w16 => 16
  | .w32 => 32
  | .w64 => 64
  | .w128 => 128

/-- The width code of `CFG0` (`10_state.md` R26). -/
def Config.wcode (c : Config) : BitVec 3 :=
  match c.bw with
  | .w8 => 0
  | .w16 => 1
  | .w32 => 2
  | .w64 => 3
  | .w128 => 4

/-- `CELLS = N*N` (`00_scope.md` R11). -/
def Config.cells (c : Config) : Nat := c.n * c.n

/-- `B = (N*N + W - 1) div W` (`00_scope.md` R10). -/
def Config.blocks (c : Config) : Nat := (c.n * c.n + c.width - 1) / c.width

/-- `REM = CELLS - (B-1)*W`, the meaningful bits of the final block (`00_scope.md` R11). -/
def Config.rem (c : Config) : Nat := c.cells - (c.blocks - 1) * c.width

/-- `LBM = 2^REM - 1`, the last-block mask (`00_scope.md` R11). -/
def Config.lbm (c : Config) : Nat := 2 ^ c.rem - 1

/-- `FULL = 2^CELLS - 1`, the board-wide mask (`00_scope.md` R11). -/
def Config.full (c : Config) : Nat := 2 ^ c.cells - 1

/-- `WMASK = 2^W - 1` (`00_scope.md` R11). -/
def Config.wmask (c : Config) : Nat := 2 ^ c.width - 1

/-- `RW = max(W, 32)`, the response data width (`00_scope.md` R12). -/
def Config.respWidth (c : Config) : Nat := max c.width 32

/-- `NREG = 8` (`00_scope.md` R12). -/
def numRegs : Nat := 8

/-- The complement within `W` bits, `~_W v = WMASK ^ v` (`00_scope.md` R14). -/
def Config.compl (c : Config) (v : Block) : Block := c.wmask ^^^ v

/-- The all-zero board, `default()` of the source (`10_state.md` R40). -/
def zeroBoard (c : Config) : Board := List.replicate c.blocks 0

end Sys2Proof
end

