-- ==== Sys2Proof/Machine/State.lean ====
section
/-! DEFINITION. The state of one BBU (`10_state.md` R20 to R34, R40 to R42), its responses
(`30_encoding.md` R93, `60_exceptions.md` R300) and the reasons a step can stop. -/

namespace Sys2Proof.Machine

/-- The error conditions of `60_exceptions.md` R300. -/
inductive ErrKind where
  /-- The word matches no row of the opcode map (R302). -/
  | illegalOp
  /-- An SHM command with a reserved move kind (R303). -/
  | illegalMove
  /-- A block index `≥ B` in RDBLK or WRBLK (R304). -/
  | badIndex
  /-- An RDCSR of a number other than 0, 1 and 2 (R305). -/
  | badCsr
  deriving DecidableEq, Repr

/-- The status of a response (`60_exceptions.md` R300); codes 5 to 7 are never returned, so they
have no constructor. -/
inductive Status where
  | ok
  | err (e : ErrKind)
  deriving DecidableEq, Repr

/-- One response: the status and the `RW`-bit data as an unsigned integer (`30_encoding.md`
R93). -/
structure Response where
  status : Status
  data : Nat
  deriving DecidableEq, Repr

/-- The state of one unit.

* `cfg`: the shape `N`, `W`, constant for the life of the unit (`00_scope.md` R8, R9; `10_state.md`
  R34; assumption log 1). `CFG0` and `CFG1` are computed from it (`10_state.md` R26, R27).
* `boards`: the board registers `b[0]` to `b[7]` (`10_state.md` R20).
* `err`: the implemented bits 3:0 of the sticky register `ERR` (`10_state.md` R28).
* `everErr`: the MODEL's own record of every error since reset, never cleared, that
  `60_exceptions.md` R311 asks of a model (assumption log 6).
* `inbox`: the MODEL's own: the commands the host has issued and that are not yet executed, oldest
  first (`20_memory.md` R63; assumption log 2).
* `outbox`: the MODEL's own: the responses given since reset, oldest first (`30_encoding.md` R93;
  assumption log 4). -/
structure State where
  cfg : Config
  boards : Vector Board 8
  err : BitVec 4
  everErr : BitVec 4
  inbox : List Command
  outbox : List Response
  deriving DecidableEq, Repr

/-- The reasons the machine stops with a fault: none. Every error of the BBU is reported in the
response and in `ERR`, and the next command runs (`60_exceptions.md` R301, R310, R311;
`70_reset_and_hazards.md` R352; assumption log 5). -/
inductive Fault where
  deriving DecidableEq, Repr

/-- The reasons the model refuses an instruction. -/
inductive Refusal where
  /-- An instruction that has no meaning in the model; raised only by an arm of `exec`, and no arm
  raises it. Safe: nothing can be proved of a step that is refused. -/
  | notModelled (mnemonic : String)
  deriving DecidableEq, Repr

/-- What one command or one step answers. -/
abbrev Result := Host.Outcome State Fault Refusal

/-- The state of a unit of shape `c` right after reset: every block of every board register 0 and
`ERR` 0 (`10_state.md` R40 to R42), no command pending and none answered (assumption log 2, 4,
6). -/
def State.resetOf (c : Config) : State where
  cfg := c
  boards := Vector.replicate 8 (zeroBoard c)
  err := 0
  everErr := 0
  inbox := []
  outbox := []

/-- The shape of the unit that `State.reset` describes, `N = 5`, `W = 8`, the shape of the spec's
worked examples. DESIGN CHOICE, unsafe: `N` and `W` are open parameters (`00_scope.md` R8, R9) and
a claim about `State.reset` is about this shape only; `State.resetOf` has every shape (assumption
log 1). -/
def resetShape : Config where
  n := 5
  bw := .w8

/-- The machine right after reset (`70_reset_and_hazards.md` R340). -/
def State.reset : State := State.resetOf resetShape

end Sys2Proof.Machine
end

