-- ==== Sys2Proof/Machine/Flags.lean ====
section
/-! DEFINITION. The BBU has no flags and no condition codes (`10_state.md` R31). What it records
instead are the status codes and the sticky bits of `ERR` (`60_exceptions.md` R300). -/

namespace Sys2Proof.Machine

/-- The bit of `ERR` that an error condition sets (`60_exceptions.md` R300, `10_state.md` R28). -/
def ErrKind.bit (e : ErrKind) : Nat :=
  match e with
  | .illegalOp => 0
  | .illegalMove => 1
  | .badIndex => 2
  | .badCsr => 3

/-- The one-bit mask of an error condition in `ERR` (`60_exceptions.md` R300). -/
def ErrKind.mask (e : ErrKind) : BitVec 4 := BitVec.ofNat 4 (2 ^ e.bit)

/-- The 3-bit status code (`60_exceptions.md` R300). -/
def Status.code (st : Status) : BitVec 3 :=
  match st with
  | .ok => 0
  | .err .illegalOp => 1
  | .err .illegalMove => 2
  | .err .badIndex => 3
  | .err .badCsr => 4

/-- The bits of `ERR` that a command answering with this status sets: none for OK
(`60_exceptions.md` R300). -/
def Status.errBits (st : Status) : BitVec 4 :=
  match st with
  | .ok => 0
  | .err e => e.mask

/-- Whether an error condition's sticky bit is set. -/
def State.errSet (s : State) (e : ErrKind) : Bool := s.err.getLsbD e.bit

end Sys2Proof.Machine
end

