-- ==== Sys2Proof/Syntax.lean ====
section
/-! DEFINITION. The commands of the BBU, one constructor per row of `spec/opcode_table.json`
(`30_encoding.md` R82, R86, R87). -/

namespace Sys2Proof

/-- A BBU command with its operands as they stand in the fields of its word (`30_encoding.md`
R83). The reserved SHM kinds keep the fields that they ignore, so that no bit of a word is lost. -/
inductive Instr where
  /-- `NOP` (`43_system.md` R220). -/
  | nop
  /-- `CLR rd` (`40_board_core.md` R130). -/
  | clr (rd : Reg)
  /-- `MOV rd, rs1` (`40_board_core.md` R131). -/
  | mov (rd rs1 : Reg)
  /-- `SET rd, x, y` (`40_board_core.md` R132). -/
  | set (rd : Reg) (x y : BitVec 8)
  /-- `UNSET rd, x, y` (`40_board_core.md` R133). -/
  | unset (rd : Reg) (x y : BitVec 8)
  /-- `TEST rs1, x, y` (`40_board_core.md` R134). -/
  | test (rs1 : Reg) (x y : BitVec 8)
  /-- `CNT rs1` (`40_board_core.md` R135). -/
  | cnt (rs1 : Reg)
  /-- `EQ rs1, rs2` (`40_board_core.md` R136). -/
  | eq (rs1 rs2 : Reg)
  /-- `AND rd, rs1, rs2` (`42_combinators.md` R201). -/
  | and (rd rs1 rs2 : Reg)
  /-- `OR rd, rs1, rs2` (`42_combinators.md` R202). -/
  | or (rd rs1 rs2 : Reg)
  /-- `XOR rd, rs1, rs2` (`42_combinators.md` R203). -/
  | xor (rd rs1 rs2 : Reg)
  /-- `SHM rd, rs1, ID` (`41_shift_engine.md` R167). -/
  | shmID (rd rs1 : Reg)
  /-- `SHM rd, rs1, U(kv)` (`41_shift_engine.md` R168). -/
  | shmU (rd rs1 : Reg) (kv : BitVec 8)
  /-- `SHM rd, rs1, D(kv)` (`41_shift_engine.md` R169). -/
  | shmD (rd rs1 : Reg) (kv : BitVec 8)
  /-- `SHM rd, rs1, L(kh)` (`41_shift_engine.md` R170). -/
  | shmL (rd rs1 : Reg) (kh : BitVec 8)
  /-- `SHM rd, rs1, R(kh)` (`41_shift_engine.md` R171). -/
  | shmR (rd rs1 : Reg) (kh : BitVec 8)
  /-- `SHM rd, rs1, UL(kv,kh)` (`41_shift_engine.md` R172). -/
  | shmUL (rd rs1 : Reg) (kv kh : BitVec 8)
  /-- `SHM rd, rs1, UR(kv,kh)` (`41_shift_engine.md` R173). -/
  | shmUR (rd rs1 : Reg) (kv kh : BitVec 8)
  /-- `SHM rd, rs1, DL(kv,kh)` (`41_shift_engine.md` R174). -/
  | shmDL (rd rs1 : Reg) (kv kh : BitVec 8)
  /-- `SHM rd, rs1, DR(kv,kh)` (`41_shift_engine.md` R175). -/
  | shmDR (rd rs1 : Reg) (kv kh : BitVec 8)
  /-- `SHM` with the reserved kind 9 (`41_shift_engine.md` R176); only `rd` has a meaning. -/
  | shmRsv9 (rd rs1 : Reg) (hi lo : BitVec 8)
  /-- `SHM` with a reserved kind `10 + sel` (`41_shift_engine.md` R176); only `rd` has a meaning. -/
  | shmRsv10to11 (rd rs1 : Reg) (sel : BitVec 1) (hi lo : BitVec 8)
  /-- `SHM` with a reserved kind `12 + sel` (`41_shift_engine.md` R176); only `rd` has a meaning. -/
  | shmRsv12to15 (rd rs1 : Reg) (sel : BitVec 2) (hi lo : BitVec 8)
  /-- `RSHL rd, rs1, count` (`41_shift_engine.md` R177). -/
  | rshl (rd rs1 : Reg) (count : BitVec 16)
  /-- `RSHR rd, rs1, count` (`41_shift_engine.md` R178). -/
  | rshr (rd rs1 : Reg) (count : BitVec 16)
  /-- `RDBLK rs1, index` (`40_board_core.md` R140). -/
  | rdblk (rs1 : Reg) (index : BitVec 16)
  /-- `WRBLK rd, index, wdata`; `wdata` travels beside the word (`40_board_core.md` R141). -/
  | wrblk (rd : Reg) (index : BitVec 16) (wdata : Block)
  /-- `RDCSR csr` (`43_system.md` R221). -/
  | rdcsr (csr : BitVec 8)
  /-- `CLRERR` (`43_system.md` R222). -/
  | clrerr
  deriving DecidableEq, Repr

end Sys2Proof
end

