-- ==== Sys2Proof/Machine/Operands.lean ====
section
/-! DEFINITION. The operand forms of the commands: coordinates (`40_board_core.md` R120 to R122),
displacements (`41_shift_engine.md` R161), the register that a command writes (`10_state.md` R23) and
the CSR words (`10_state.md` R26 to R28). -/

namespace Sys2Proof.Machine

/-- `in_bounds(x, y)` (`40_board_core.md` R120). -/
def inBounds (c : Config) (x y : Nat) : Bool := decide (x < c.n) && decide (y < c.n)

/-- `to_linear(x, y) = x + y*N` (`40_board_core.md` R121). Every caller has checked `inBounds`
first, so its value on other pairs is never used (`93_implementation_defined.md` U4; assumption
log 10). -/
def toLinear (c : Config) (x y : Nat) : Nat := x + y * c.n

/-- `map_coords(x, y) = (bi, bm)`: the block index and the one-hot mask of a cell
(`40_board_core.md` R122). -/
def mapCoords (c : Config) (x y : Nat) : Nat × Block :=
  (toLinear c x y / c.width, 1 <<< (toLinear c x y % c.width))

/-- The linear shift of a displacement, `delta = dy*N + dx` (`41_shift_engine.md` R161). -/
def linearShift (c : Config) (dx dy : Int) : Int := dy * c.n + dx

/-- `CFG0`: zero 31:20, NREG 19:16, zero 15:11, WCODE 10:8, N 7:0 (`10_state.md` R26). -/
def cfg0 (c : Config) : BitVec 32 :=
  0#12 ++ BitVec.ofNat 4 numRegs ++ 0#5 ++ c.wcode ++ BitVec.ofNat 8 c.n

/-- `CFG1`: zero 31:24, REM 23:16, B 15:0 (`10_state.md` R27). -/
def cfg1 (c : Config) : BitVec 32 :=
  0#8 ++ BitVec.ofNat 8 c.rem ++ BitVec.ofNat 16 c.blocks

/-- `ERR` as the 32-bit word that RDCSR reads: bits 31:4 read 0 (`10_state.md` R28). -/
def errWord (err : BitVec 4) : BitVec 32 := 0#28 ++ err

/-- The CSR of a number, `none` for 3 to 255, which do not exist (`10_state.md` R26 to R29). -/
def State.csr (s : State) (num : BitVec 8) : Option (BitVec 32) :=
  match num with
  | 0#8 => some (cfg0 s.cfg)
  | 1#8 => some (cfg1 s.cfg)
  | 2#8 => some (errWord s.err)
  | _ => none

/-- The board register that a command writes, `none` for a command that writes no board register: the
`writes` column of the table of `10_state.md` R23. The reserved move kinds are SHM commands and write
`rd` (`41_shift_engine.md` R176). -/
def destination (i : Instr) : Option Reg :=
  match i with
  | .nop | .test _ _ _ | .cnt _ | .eq _ _ | .rdblk _ _ | .rdcsr _ | .clrerr => none
  | .clr rd | .mov rd _ | .set rd _ _ | .unset rd _ _ => some rd
  | .and rd _ _ | .or rd _ _ | .xor rd _ _ => some rd
  | .shmID rd _ | .shmU rd _ _ | .shmD rd _ _ | .shmL rd _ _ | .shmR rd _ _ => some rd
  | .shmUL rd _ _ _ | .shmUR rd _ _ _ | .shmDL rd _ _ _ | .shmDR rd _ _ _ => some rd
  | .shmRsv9 rd _ _ _ | .shmRsv10to11 rd _ _ _ _ | .shmRsv12to15 rd _ _ _ _ => some rd
  | .rshl rd _ _ | .rshr rd _ _ | .wrblk rd _ _ => some rd

end Sys2Proof.Machine
end

