-- ==== Sys2Proof/Machine/Ops.lean ====
section
/-! DEFINITION. The named operations on registers, blocks and cells (`00_scope.md` R15, R16;
`20_memory.md` R56, R57; `40_board_core.md` R123), the response, and raising an error
(`60_exceptions.md` R301 to R305), which is all the BBU has of taking an exception: there is no
trap entry (R310) and no return from one (R311). -/

namespace Sys2Proof.Machine

/-! ### Responses and errors -/

/-- The state after giving a response: it joins the end of the transcript (`30_encoding.md`
R93). -/
def State.answer (s : State) (st : Status) (data : Nat) : State :=
  { s with outbox := s.outbox ++ [⟨st, data⟩] }

/-- `respond(OK, data)`: the one response that ends a command that completes (`00_scope.md`
R16). -/
def State.respond (s : State) (data : Nat) : Result := .next (s.answer .ok data)

/-- Set the sticky bit of an error, in `ERR` and in the model's own record (`10_state.md` R28,
`60_exceptions.md` R311). -/
def State.record (s : State) (e : ErrKind) : State :=
  { s with err := s.err ||| e.mask, everErr := s.everErr ||| e.mask }

/-- `raise E`: the one shared operation for every error condition. It sets the sticky bit and
responds with the error's code and data 0; no register, mode or program counter is saved or
changed (`00_scope.md` R16, `60_exceptions.md` R301, R310). -/
def State.raise (s : State) (e : ErrKind) : Result := .next ((s.record e).answer (.err e) 0)

/-- `ERR <- 0`; the model's own record stays (`43_system.md` R222, `60_exceptions.md` R311). -/
def State.clearErr (s : State) : State := { s with err := 0 }

/-! ### Board registers and blocks -/

/-- `b[r]` (`00_scope.md` R15). -/
def State.board (s : State) (r : Reg) : Board := s.boards[r]

/-- `b[r] <- v` (`00_scope.md` R15). No register is hardwired (`10_state.md` R23). -/
def State.setBoard (s : State) (r : Reg) (v : Board) : State :=
  { s with boards := s.boards.set r v }

/-- Block `i` of a board. The spec reads blocks below `B` only; the value 0 beyond them is never
used (assumption log 7). -/
def blockAt (b : Board) (i : Nat) : Block := b.getD i 0

/-- `BlkRead(r, i)` (`20_memory.md` R56). -/
def State.blkRead (s : State) (r : Reg) (i : Nat) : Block := blockAt (s.board r) i

/-- The value that a raw write stores in block `i`: `v & LBM` in the final block (`20_memory.md`
R57), the `W` bits of `v` elsewhere. The port is `W` bits wide, so a wider `v` is cut to `W` bits
(assumption log 8). -/
def storedBlock (c : Config) (i : Nat) (v : Block) : Block :=
  if i = c.blocks - 1 then v &&& c.lbm else v &&& c.wmask

/-- `BlkWrite(r, i, v)` (`20_memory.md` R57). No other block changes. -/
def State.blkWrite (s : State) (r : Reg) (i : Nat) (v : Block) : State :=
  s.setBoard r ((s.board r).set i (storedBlock s.cfg i v))

/-! ### Cells -/

/-- The cell `(x, y)` of a board: `(blk[bi] & bm) ≠ 0` in bounds, false otherwise
(`40_board_core.md` R123). -/
def cellOf (c : Config) (b : Board) (x y : Nat) : Bool :=
  if inBounds c x y then
    let (bi, bm) := mapCoords c x y
    blockAt b bi &&& bm != 0
  else false

/-- `cell(r, x, y)` (`40_board_core.md` R123). -/
def State.cell (s : State) (r : Reg) (x y : Nat) : Bool := cellOf s.cfg (s.board r) x y

/-- A board with the cell `(x, y)` set; out of bounds, the board itself (`40_board_core.md`
R132). -/
def setCell (c : Config) (b : Board) (x y : Nat) : Board :=
  if inBounds c x y then
    let (bi, bm) := mapCoords c x y
    b.set bi (blockAt b bi ||| bm)
  else b

/-- A board with the cell `(x, y)` clear; out of bounds, the board itself (`40_board_core.md`
R133). -/
def clearCell (c : Config) (b : Board) (x y : Nat) : Board :=
  if inBounds c x y then
    let (bi, bm) := mapCoords c x y
    b.set bi (blockAt b bi &&& c.compl bm)
  else b

/-! ### Counting and comparing -/

/-- `popcount(v)` of a `w`-bit value (`00_scope.md` R14). -/
def popcount (w : Nat) (v : Block) : Nat := (List.range w).countP fun k => v.testBit k

/-- The sum of the population counts of every block (`40_board_core.md` R135). -/
def countOnes (c : Config) (b : Board) : Nat := (b.map (popcount c.width)).sum

/-- Block-buffer equality (`40_board_core.md` R136): blocks `0 .. B-1` agree. -/
def boardsEqual (c : Config) (a b : Board) : Bool :=
  (List.range c.blocks).all fun i => blockAt a i == blockAt b i

/-! ### The board as one integer -/

/-- `val(b)`: the sum of `blk[i] * 2^(i*W)` (`00_scope.md` R15). -/
def boardVal (c : Config) (b : Board) : Nat :=
  match b with
  | [] => 0
  | v :: rest => v + 2 ^ c.width * boardVal c rest

/-- `board(v)`: the `B` blocks with `blk[i] = (v >> (i*W)) & WMASK` (`00_scope.md` R15). -/
def boardOf (c : Config) (v : Nat) : Board :=
  (List.range c.blocks).map fun i => (v >>> (i * c.width)) &&& c.wmask

/-- `bit(b, p)`, the bit at position `p` (`00_scope.md` R15). -/
def bitOf (c : Config) (b : Board) (p : Nat) : Bool := (boardVal c b).testBit p

end Sys2Proof.Machine
end

