-- ==== Sys2Proof/Machine/BoardCore.lean ====
section
/-! DEFINITION. The board core commands CLR, MOV, SET, UNSET, TEST, CNT, EQ, RDBLK, WRBLK
(`40_board_core.md`). Every source is read before the destination is written (`10_state.md`
R25). -/

namespace Sys2Proof.Machine

/-- `CLR rd` (`40_board_core.md` R130). -/
def execClr (rd : Reg) (s : State) : Result :=
  (s.setBoard rd (zeroBoard s.cfg)).respond 0

/-- `MOV rd, rs1` (`40_board_core.md` R131). -/
def execMov (rd rs1 : Reg) (s : State) : Result :=
  (s.setBoard rd (s.board rs1)).respond 0

/-- `SET rd, x, y`; out of bounds nothing changes and the status is OK (`40_board_core.md`
R132). -/
def execSet (rd : Reg) (x y : BitVec 8) (s : State) : Result :=
  (s.setBoard rd (setCell s.cfg (s.board rd) x.toNat y.toNat)).respond 0

/-- `UNSET rd, x, y`; out of bounds nothing changes and the status is OK (`40_board_core.md`
R133). -/
def execUnset (rd : Reg) (x y : BitVec 8) (s : State) : Result :=
  (s.setBoard rd (clearCell s.cfg (s.board rd) x.toNat y.toNat)).respond 0

/-- `TEST rs1, x, y` (`40_board_core.md` R134). -/
def execTest (rs1 : Reg) (x y : BitVec 8) (s : State) : Result :=
  s.respond (if s.cell rs1 x.toNat y.toNat then 1 else 0)

/-- `CNT rs1` (`40_board_core.md` R135). -/
def execCnt (rs1 : Reg) (s : State) : Result :=
  s.respond (countOnes s.cfg (s.board rs1))

/-- `EQ rs1, rs2` (`40_board_core.md` R136). -/
def execEq (rs1 rs2 : Reg) (s : State) : Result :=
  s.respond (if boardsEqual s.cfg (s.board rs1) (s.board rs2) then 1 else 0)

/-- `RDBLK rs1, index`: BAD_INDEX when `index ≥ B` (`40_board_core.md` R140). -/
def execRdblk (rs1 : Reg) (index : BitVec 16) (s : State) : Result :=
  if s.cfg.blocks ≤ index.toNat then s.raise .badIndex
  else s.respond (s.blkRead rs1 index.toNat)

/-- `WRBLK rd, index, wdata`: BAD_INDEX when `index ≥ B`, and then nothing is written
(`40_board_core.md` R141). -/
def execWrblk (rd : Reg) (index : BitVec 16) (wdata : Block) (s : State) : Result :=
  if s.cfg.blocks ≤ index.toNat then s.raise .badIndex
  else (s.blkWrite rd index.toNat wdata).respond 0

end Sys2Proof.Machine
end

