-- ==== Sys2Proof/Machine/Combinators.lean ====
section
/-! DEFINITION. The bitwise combinators AND, OR, XOR (`42_combinators.md`). -/

namespace Sys2Proof.Machine

/-- The shape the three share: both sources are read whole, then block `i` of the result depends
only on block `i` of each source, for `i` in `0 .. B-1` (`42_combinators.md` R200). -/
def combineBoards (c : Config) (op : Block → Block → Block) (a b : Board) : Board :=
  (List.range c.blocks).map fun i => op (blockAt a i) (blockAt b i)

/-- `AND rd, rs1, rs2` (`42_combinators.md` R201). -/
def execAnd (rd rs1 rs2 : Reg) (s : State) : Result :=
  (s.setBoard rd (combineBoards s.cfg (· &&& ·) (s.board rs1) (s.board rs2))).respond 0

/-- `OR rd, rs1, rs2` (`42_combinators.md` R202). -/
def execOr (rd rs1 rs2 : Reg) (s : State) : Result :=
  (s.setBoard rd (combineBoards s.cfg (· ||| ·) (s.board rs1) (s.board rs2))).respond 0

/-- `XOR rd, rs1, rs2` (`42_combinators.md` R203). -/
def execXor (rd rs1 rs2 : Reg) (s : State) : Result :=
  (s.setBoard rd (combineBoards s.cfg (· ^^^ ·) (s.board rs1) (s.board rs2))).respond 0

end Sys2Proof.Machine
end

