-- ==== Sys2Proof/Machine/ShiftEngine.lean ====
section
/-! DEFINITION. The shift function (`41_shift_engine.md` R160 to R166): the linear shift, the edge
mask and the move shift on the board seen as one integer. -/

namespace Sys2Proof.Machine

/-- The integer whose bit `p`, for `p < n`, is `f p`, and which has no other bit. -/
def maskOf (n : Nat) (f : Nat → Bool) : Nat :=
  match n with
  | 0 => 0
  | k + 1 => maskOf k f + if f k then 2 ^ k else 0

/-- `lshift(v, delta)`: up by `delta` within the meaningful positions, or down by `-delta`
(`41_shift_engine.md` R162). -/
def lshift (c : Config) (v : Nat) (delta : Int) : Nat :=
  if 0 ≤ delta then (v <<< delta.toNat) &&& c.full else v >>> (-delta).toNat

/-- Whether the edge mask keeps a bit that has arrived in column `col` (`41_shift_engine.md`
R163). -/
def keepsColumn (c : Config) (dx : Int) (col : Nat) : Bool :=
  if dx = 0 then true
  else if 0 < dx then decide (dx ≤ (col : Int))
  else decide (-dx ≤ (c.n : Int) - 1 - (col : Int))

/-- `keep(dx)`, the edge mask (`41_shift_engine.md` R163). -/
def keep (c : Config) (dx : Int) : Nat := maskOf c.cells fun p => keepsColumn c dx (p % c.n)

/-- `EM[i]`, the edge mask of block `i` (`41_shift_engine.md` R163). -/
def edgeMask (c : Config) (dx : Int) (i : Nat) : Block :=
  (keep c dx >>> (i * c.width)) &&& c.wmask

/-- `shift_move(v, dx, dy)`: the linear shift, then the edge mask once (`41_shift_engine.md`
R164). -/
def shiftMove (c : Config) (v : Nat) (dx dy : Int) : Nat :=
  lshift c v (linearShift c dx dy) &&& keep c dx

/-- `board(shift_move(val(b), dx, dy))`: a board moved by a displacement (`41_shift_engine.md`
section 2). -/
def moveBoard (c : Config) (b : Board) (dx dy : Int) : Board :=
  boardOf c (shiftMove c (boardVal c b) dx dy)

/-- `board(lshift(val(b), delta))`: a raw shift, with no edge mask (`41_shift_engine.md` R177,
R178). -/
def rawShiftBoard (c : Config) (b : Board) (delta : Int) : Board :=
  boardOf c (lshift c (boardVal c b) delta)

end Sys2Proof.Machine
end

