-- ==== Sys2Proof/Machine/Shift.lean ====
section
/-! DEFINITION. The shift commands: SHM with its nine move kinds and the reserved kinds, RSHL, RSHR
(`41_shift_engine.md` section 2). -/

namespace Sys2Proof.Machine

/-- The shape the move shifts share: `b[rd] <- board(shift_move(val(b[rs1]), dx, dy))`, then
`respond(OK, 0)` (`41_shift_engine.md` section 2). -/
def State.shiftInto (s : State) (rd rs1 : Reg) (dx dy : Int) : Result :=
  (s.setBoard rd (moveBoard s.cfg (s.board rs1) dx dy)).respond 0

/-- The effect of every reserved move kind: `rd` is cleared and ILLEGAL_MOVE is raised
(`41_shift_engine.md` R176, `60_exceptions.md` R303; assumption log 5). -/
def State.illegalMove (s : State) (rd : Reg) : Result :=
  (s.setBoard rd (zeroBoard s.cfg)).raise .illegalMove

/-- `SHM rd, rs1, ID`: the board is copied (`41_shift_engine.md` R167). -/
def execShmID (rd rs1 : Reg) (s : State) : Result :=
  (s.setBoard rd (s.board rs1)).respond 0

/-- `SHM rd, rs1, U(kv)` (`41_shift_engine.md` R168). -/
def execShmU (rd rs1 : Reg) (kv : BitVec 8) (s : State) : Result :=
  s.shiftInto rd rs1 0 kv.toNat

/-- `SHM rd, rs1, D(kv)` (`41_shift_engine.md` R169). -/
def execShmD (rd rs1 : Reg) (kv : BitVec 8) (s : State) : Result :=
  s.shiftInto rd rs1 0 (-kv.toNat)

/-- `SHM rd, rs1, L(kh)` (`41_shift_engine.md` R170). -/
def execShmL (rd rs1 : Reg) (kh : BitVec 8) (s : State) : Result :=
  s.shiftInto rd rs1 (-kh.toNat) 0

/-- `SHM rd, rs1, R(kh)` (`41_shift_engine.md` R171). -/
def execShmR (rd rs1 : Reg) (kh : BitVec 8) (s : State) : Result :=
  s.shiftInto rd rs1 kh.toNat 0

/-- `SHM rd, rs1, UL(kv,kh)` (`41_shift_engine.md` R172). -/
def execShmUL (rd rs1 : Reg) (kv kh : BitVec 8) (s : State) : Result :=
  s.shiftInto rd rs1 (-kh.toNat) kv.toNat

/-- `SHM rd, rs1, UR(kv,kh)` (`41_shift_engine.md` R173). -/
def execShmUR (rd rs1 : Reg) (kv kh : BitVec 8) (s : State) : Result :=
  s.shiftInto rd rs1 kh.toNat kv.toNat

/-- `SHM rd, rs1, DL(kv,kh)` (`41_shift_engine.md` R174). -/
def execShmDL (rd rs1 : Reg) (kv kh : BitVec 8) (s : State) : Result :=
  s.shiftInto rd rs1 (-kh.toNat) (-kv.toNat)

/-- `SHM rd, rs1, DR(kv,kh)` (`41_shift_engine.md` R175). -/
def execShmDR (rd rs1 : Reg) (kv kh : BitVec 8) (s : State) : Result :=
  s.shiftInto rd rs1 kh.toNat (-kv.toNat)

/-- `SHM` with kind 9: `rs1`, `hi`, `lo` are ignored (`41_shift_engine.md` R176). -/
def execShmRsv9 (rd : Reg) (s : State) : Result :=
  s.illegalMove rd

/-- `SHM` with kind 10 or 11: `rs1`, `hi`, `lo` are ignored (`41_shift_engine.md` R176). -/
def execShmRsv10to11 (rd : Reg) (s : State) : Result :=
  s.illegalMove rd

/-- `SHM` with kind 12 to 15: `rs1`, `hi`, `lo` are ignored (`41_shift_engine.md` R176). -/
def execShmRsv12to15 (rd : Reg) (s : State) : Result :=
  s.illegalMove rd

/-- `RSHL rd, rs1, count` (`41_shift_engine.md` R177). -/
def execRshl (rd rs1 : Reg) (count : BitVec 16) (s : State) : Result :=
  (s.setBoard rd (rawShiftBoard s.cfg (s.board rs1) count.toNat)).respond 0

/-- `RSHR rd, rs1, count` (`41_shift_engine.md` R178). -/
def execRshr (rd rs1 : Reg) (count : BitVec 16) (s : State) : Result :=
  (s.setBoard rd (rawShiftBoard s.cfg (s.board rs1) (-count.toNat))).respond 0

end Sys2Proof.Machine
end

