-- ==== Sys2Proof/Machine/System.lean ====
section
/-! DEFINITION. The system commands NOP, RDCSR, CLRERR (`43_system.md`). Available in the one mode
there is (`60_exceptions.md` R320). -/

namespace Sys2Proof.Machine

/-- `NOP` (`43_system.md` R220). -/
def execNop (s : State) : Result :=
  s.respond 0

/-- `RDCSR csr`: the CSR zero-extended, BAD_CSR for 3 to 255 (`43_system.md` R221). -/
def execRdcsr (csr : BitVec 8) (s : State) : Result :=
  match s.csr csr with
  | some v => s.respond v.toNat
  | none => s.raise .badCsr

/-- `CLRERR` (`43_system.md` R222). -/
def execClrerr (s : State) : Result :=
  s.clearErr.respond 0

end Sys2Proof.Machine
end

