-- ==== Sys2Proof/Machine/Dispatch.lean ====
section
/-! DEFINITION. One command's meaning, one arm per constructor of `Instr` (`30_encoding.md`
R87). -/

namespace Sys2Proof.Machine

def exec (i : Instr) (s : State) : Host.Outcome State Fault Refusal :=
  match i with
  | .nop => Sys2Proof.Machine.execNop s
  | .clr rd => Sys2Proof.Machine.execClr rd s
  | .mov rd rs1 => Sys2Proof.Machine.execMov rd rs1 s
  | .set rd x y => Sys2Proof.Machine.execSet rd x y s
  | .unset rd x y => Sys2Proof.Machine.execUnset rd x y s
  | .test rs1 x y => Sys2Proof.Machine.execTest rs1 x y s
  | .cnt rs1 => Sys2Proof.Machine.execCnt rs1 s
  | .eq rs1 rs2 => Sys2Proof.Machine.execEq rs1 rs2 s
  | .and rd rs1 rs2 => Sys2Proof.Machine.execAnd rd rs1 rs2 s
  | .or rd rs1 rs2 => Sys2Proof.Machine.execOr rd rs1 rs2 s
  | .xor rd rs1 rs2 => Sys2Proof.Machine.execXor rd rs1 rs2 s
  | .shmID rd rs1 => Sys2Proof.Machine.execShmID rd rs1 s
  | .shmU rd rs1 kv => Sys2Proof.Machine.execShmU rd rs1 kv s
  | .shmD rd rs1 kv => Sys2Proof.Machine.execShmD rd rs1 kv s
  | .shmL rd rs1 kh => Sys2Proof.Machine.execShmL rd rs1 kh s
  | .shmR rd rs1 kh => Sys2Proof.Machine.execShmR rd rs1 kh s
  | .shmUL rd rs1 kv kh => Sys2Proof.Machine.execShmUL rd rs1 kv kh s
  | .shmUR rd rs1 kv kh => Sys2Proof.Machine.execShmUR rd rs1 kv kh s
  | .shmDL rd rs1 kv kh => Sys2Proof.Machine.execShmDL rd rs1 kv kh s
  | .shmDR rd rs1 kv kh => Sys2Proof.Machine.execShmDR rd rs1 kv kh s
  | .shmRsv9 rd _ _ _ => Sys2Proof.Machine.execShmRsv9 rd s
  | .shmRsv10to11 rd _ _ _ _ => Sys2Proof.Machine.execShmRsv10to11 rd s
  | .shmRsv12to15 rd _ _ _ _ => Sys2Proof.Machine.execShmRsv12to15 rd s
  | .rshl rd rs1 count => Sys2Proof.Machine.execRshl rd rs1 count s
  | .rshr rd rs1 count => Sys2Proof.Machine.execRshr rd rs1 count s
  | .rdblk rs1 index => Sys2Proof.Machine.execRdblk rs1 index s
  | .wrblk rd index wdata => Sys2Proof.Machine.execWrblk rd index wdata s
  | .rdcsr csr => Sys2Proof.Machine.execRdcsr csr s
  | .clrerr => Sys2Proof.Machine.execClrerr s

end Sys2Proof.Machine
end

