-- ==== Sys2Proof/Decode.lean ====
section
/-! DEFINITION. The command word's layout (`30_encoding.md` R81), the decoder (R82, R83, R86 to
R92), the encoder written from the same tables, and the opcode map as match and mask (R87). -/

namespace Sys2Proof

/-! ### The word layout -/

/-- The fields of a command word (`30_encoding.md` R81). -/
structure Fields where
  op : BitVec 6
  rd : BitVec 3
  rs1 : BitVec 3
  f : BitVec 4
  hi : BitVec 8
  lo : BitVec 8
  deriving DecidableEq, Repr

/-- The fields of a word: op 31:26, rd 25:23, rs1 22:20, f 19:16, hi 15:8, lo 7:0
(`30_encoding.md` R81). -/
def Fields.ofWord (w : CmdWord) : Fields where
  op := w.extractLsb' 26 6
  rd := w.extractLsb' 23 3
  rs1 := w.extractLsb' 20 3
  f := w.extractLsb' 16 4
  hi := w.extractLsb' 8 8
  lo := w.extractLsb' 0 8

/-- The word with the given fields (`30_encoding.md` R81). -/
def Fields.toWord (fl : Fields) : CmdWord :=
  fl.op ++ fl.rd ++ fl.rs1 ++ fl.f ++ fl.hi ++ fl.lo

/-- `imm16 = {hi, lo}` (`30_encoding.md` R81). -/
def Fields.imm16 (fl : Fields) : BitVec 16 := fl.hi ++ fl.lo

/-- `rs2`, bits 19:17, the upper three bits of `f` (`30_encoding.md` R81). -/
def Fields.rs2 (fl : Fields) : BitVec 3 := fl.f.extractLsb' 1 3

/-- `f0`, bit 16, the low bit of `f` (`30_encoding.md` R81). -/
def Fields.f0 (fl : Fields) : BitVec 1 := fl.f.extractLsb' 0 1

/-- The register that a 3-bit field selects (`30_encoding.md` R83). -/
def regOfBits (b : BitVec 3) : Reg := b.toFin

/-- The 3-bit field that selects a register. -/
def bitsOfReg (r : Reg) : BitVec 3 := BitVec.ofFin r

/-! ### Decoding -/

/-- Why a word is no command. Both reasons raise ILLEGAL_OP (`60_exceptions.md` R302); the names are
the model's (assumption log 18). -/
inductive DecodeError where
  /-- A reserved opcode, 0x0B, 0x0F or 0x14 to 0x3F (`30_encoding.md` R89). Raised by
  `decodeFields`; safe, since the machine answers ILLEGAL_OP as the spec says. -/
  | reservedOpcode (op : BitVec 6)
  /-- A legal opcode with a must-be-zero field that is not zero (`30_encoding.md` R90); the string
  is the mnemonic of the row that the opcode names. Raised by `decodeFields`; safe, likewise. -/
  | strayBits (mnemonic : String)
  deriving DecidableEq, Repr

/-- Answer `i` if the must-be-zero fields of its format are zero (`30_encoding.md` R90). -/
def requireZero (mnemonic : String) (zero : Bool) (i : Instr) : Except DecodeError Instr :=
  if zero then .ok i else .error (.strayBits mnemonic)

/-- The SHM command of a move kind `f` (`30_encoding.md` R86, R91): a legal kind demands zero in the
magnitude fields it does not use, a reserved kind (9 to 15) ignores `rs1`, `hi` and `lo`. -/
def decodeShm (fl : Fields) : Except DecodeError Instr :=
  let rd := regOfBits fl.rd
  let rs1 := regOfBits fl.rs1
  match fl.f with
  | 0#4 => requireZero "SHM.ID" (fl.hi == 0 && fl.lo == 0) (.shmID rd rs1)
  | 1#4 => requireZero "SHM.U" (fl.lo == 0) (.shmU rd rs1 fl.hi)
  | 2#4 => requireZero "SHM.D" (fl.lo == 0) (.shmD rd rs1 fl.hi)
  | 3#4 => requireZero "SHM.L" (fl.hi == 0) (.shmL rd rs1 fl.lo)
  | 4#4 => requireZero "SHM.R" (fl.hi == 0) (.shmR rd rs1 fl.lo)
  | 5#4 => .ok (.shmUL rd rs1 fl.hi fl.lo)
  | 6#4 => .ok (.shmUR rd rs1 fl.hi fl.lo)
  | 7#4 => .ok (.shmDL rd rs1 fl.hi fl.lo)
  | 8#4 => .ok (.shmDR rd rs1 fl.hi fl.lo)
  | 9#4 => .ok (.shmRsv9 rd rs1 fl.hi fl.lo)
  | 10#4 => .ok (.shmRsv10to11 rd rs1 0 fl.hi fl.lo)
  | 11#4 => .ok (.shmRsv10to11 rd rs1 1 fl.hi fl.lo)
  | 12#4 => .ok (.shmRsv12to15 rd rs1 0 fl.hi fl.lo)
  | 13#4 => .ok (.shmRsv12to15 rd rs1 1 fl.hi fl.lo)
  | 14#4 => .ok (.shmRsv12to15 rd rs1 2 fl.hi fl.lo)
  | _ => .ok (.shmRsv12to15 rd rs1 3 fl.hi fl.lo)

/-- The command that the fields of a word select, with `wdata` beside it (`30_encoding.md` R82,
R87 to R92). Total: a word that is no command is rejected by name. -/
def decodeFields (fl : Fields) (wdata : Block) : Except DecodeError Instr :=
  let rd := regOfBits fl.rd
  let rs1 := regOfBits fl.rs1
  let rs2 := regOfBits fl.rs2
  let noRd := fl.rd == 0
  let noRs1 := fl.rs1 == 0
  let noF := fl.f == 0
  let noF0 := fl.f0 == 0
  let noImm := fl.hi == 0 && fl.lo == 0
  match fl.op with
  | 0x00#6 => requireZero "NOP" (noRd && noRs1 && noF && noImm) .nop
  | 0x01#6 => requireZero "CLR" (noRs1 && noF && noImm) (.clr rd)
  | 0x02#6 => requireZero "MOV" (noF && noImm) (.mov rd rs1)
  | 0x03#6 => requireZero "SET" (noRs1 && noF) (.set rd fl.lo fl.hi)
  | 0x04#6 => requireZero "UNSET" (noRs1 && noF) (.unset rd fl.lo fl.hi)
  | 0x05#6 => requireZero "TEST" (noRd && noF) (.test rs1 fl.lo fl.hi)
  | 0x06#6 => requireZero "CNT" (noRd && noF && noImm) (.cnt rs1)
  | 0x07#6 => requireZero "EQ" (noRd && noF0 && noImm) (.eq rs1 rs2)
  | 0x08#6 => requireZero "AND" (noF0 && noImm) (.and rd rs1 rs2)
  | 0x09#6 => requireZero "OR" (noF0 && noImm) (.or rd rs1 rs2)
  | 0x0A#6 => requireZero "XOR" (noF0 && noImm) (.xor rd rs1 rs2)
  | 0x0C#6 => decodeShm fl
  | 0x0D#6 => requireZero "RSHL" noF (.rshl rd rs1 fl.imm16)
  | 0x0E#6 => requireZero "RSHR" noF (.rshr rd rs1 fl.imm16)
  | 0x10#6 => requireZero "RDBLK" (noRd && noF) (.rdblk rs1 fl.imm16)
  | 0x11#6 => requireZero "WRBLK" (noRs1 && noF) (.wrblk rd fl.imm16 wdata)
  | 0x12#6 => requireZero "RDCSR" (noRd && noRs1 && noF && fl.hi == 0) (.rdcsr fl.lo)
  | 0x13#6 => requireZero "CLRERR" (noRd && noRs1 && noF && noImm) .clrerr
  | op => .error (.reservedOpcode op)

/-- The decoder, total on every presented command (`30_encoding.md` R88). -/
def decode (cmd : Command) : Except DecodeError Instr :=
  decodeFields (Fields.ofWord cmd.word) cmd.wdata

/-- The command that a table word of `nbits` bits presents: bits 31:0 are the command word and what
stands above them is WRBLK's write data; every bit above `nbits` is 0 (assumption log 9). -/
def tableCommand (nbits w : Nat) : Command :=
  let v := w % 2 ^ nbits
  ⟨BitVec.ofNat 32 v, v / 2 ^ 32⟩

/-- The instruction the decoder reads from a table word, `none` where it refuses. -/
def decodeTableWord (nbits w : Nat) : Option Instr :=
  match decode (tableCommand nbits w) with
  | .ok i => some i
  | .error _ => none

/-! ### Encoding -/

/-- The `f` field of the three-register formats, `{rs2, 0}` (`30_encoding.md` R81). -/
def fOfRs2 (rs2 : Reg) : BitVec 4 := bitsOfReg rs2 ++ 0#1

/-- The fields of format M (`30_encoding.md` R82, R86). -/
def shmFields (rd rs1 : Reg) (f : BitVec 4) (hi lo : BitVec 8) : Fields :=
  ⟨0x0C, bitsOfReg rd, bitsOfReg rs1, f, hi, lo⟩

/-- The fields of an instruction's word; a field that its format does not use is zero
(`30_encoding.md` R82, R87, R90). -/
def encodeFields (i : Instr) : Fields :=
  match i with
  | .nop => ⟨0x00, 0, 0, 0, 0, 0⟩
  | .clr rd => ⟨0x01, bitsOfReg rd, 0, 0, 0, 0⟩
  | .mov rd rs1 => ⟨0x02, bitsOfReg rd, bitsOfReg rs1, 0, 0, 0⟩
  | .set rd x y => ⟨0x03, bitsOfReg rd, 0, 0, y, x⟩
  | .unset rd x y => ⟨0x04, bitsOfReg rd, 0, 0, y, x⟩
  | .test rs1 x y => ⟨0x05, 0, bitsOfReg rs1, 0, y, x⟩
  | .cnt rs1 => ⟨0x06, 0, bitsOfReg rs1, 0, 0, 0⟩
  | .eq rs1 rs2 => ⟨0x07, 0, bitsOfReg rs1, fOfRs2 rs2, 0, 0⟩
  | .and rd rs1 rs2 => ⟨0x08, bitsOfReg rd, bitsOfReg rs1, fOfRs2 rs2, 0, 0⟩
  | .or rd rs1 rs2 => ⟨0x09, bitsOfReg rd, bitsOfReg rs1, fOfRs2 rs2, 0, 0⟩
  | .xor rd rs1 rs2 => ⟨0x0A, bitsOfReg rd, bitsOfReg rs1, fOfRs2 rs2, 0, 0⟩
  | .shmID rd rs1 => shmFields rd rs1 0 0 0
  | .shmU rd rs1 kv => shmFields rd rs1 1 kv 0
  | .shmD rd rs1 kv => shmFields rd rs1 2 kv 0
  | .shmL rd rs1 kh => shmFields rd rs1 3 0 kh
  | .shmR rd rs1 kh => shmFields rd rs1 4 0 kh
  | .shmUL rd rs1 kv kh => shmFields rd rs1 5 kv kh
  | .shmUR rd rs1 kv kh => shmFields rd rs1 6 kv kh
  | .shmDL rd rs1 kv kh => shmFields rd rs1 7 kv kh
  | .shmDR rd rs1 kv kh => shmFields rd rs1 8 kv kh
  | .shmRsv9 rd rs1 hi lo => shmFields rd rs1 9 hi lo
  | .shmRsv10to11 rd rs1 sel hi lo => shmFields rd rs1 (0b101#3 ++ sel) hi lo
  | .shmRsv12to15 rd rs1 sel hi lo => shmFields rd rs1 (0b11#2 ++ sel) hi lo
  | .rshl rd rs1 count =>
    ⟨0x0D, bitsOfReg rd, bitsOfReg rs1, 0, count.extractLsb' 8 8, count.extractLsb' 0 8⟩
  | .rshr rd rs1 count =>
    ⟨0x0E, bitsOfReg rd, bitsOfReg rs1, 0, count.extractLsb' 8 8, count.extractLsb' 0 8⟩
  | .rdblk rs1 index =>
    ⟨0x10, 0, bitsOfReg rs1, 0, index.extractLsb' 8 8, index.extractLsb' 0 8⟩
  | .wrblk rd index _ =>
    ⟨0x11, bitsOfReg rd, 0, 0, index.extractLsb' 8 8, index.extractLsb' 0 8⟩
  | .rdcsr csr => ⟨0x12, 0, 0, 0, 0, csr⟩
  | .clrerr => ⟨0x13, 0, 0, 0, 0, 0⟩

/-- The write data presented with an instruction; 0 beside every command but WRBLK, which ignores
it (`93_implementation_defined.md` U13). -/
def encodeWdata (i : Instr) : Block :=
  match i with
  | .wrblk _ _ wdata => wdata
  | .nop | .clr _ | .mov _ _ | .set _ _ _ | .unset _ _ _ | .test _ _ _ | .cnt _ | .eq _ _
  | .and _ _ _ | .or _ _ _ | .xor _ _ _ | .shmID _ _ | .shmU _ _ _ | .shmD _ _ _ | .shmL _ _ _
  | .shmR _ _ _ | .shmUL _ _ _ _ | .shmUR _ _ _ _ | .shmDL _ _ _ _ | .shmDR _ _ _ _
  | .shmRsv9 _ _ _ _ | .shmRsv10to11 _ _ _ _ _ | .shmRsv12to15 _ _ _ _ _ | .rshl _ _ _
  | .rshr _ _ _ | .rdblk _ _ | .rdcsr _ | .clrerr => 0

/-- The command that presents an instruction to the BBU (`30_encoding.md` R80, R87). -/
def encode (i : Instr) : Command :=
  ⟨(encodeFields i).toWord, encodeWdata i⟩

/-! ### The opcode map as match and mask -/

/-- One row of the opcode map: a word `w` selects it exactly when `w & mask = match`
(`30_encoding.md` R87). -/
structure OpRow where
  mnemonic : String
  bits : CmdWord
  mask : CmdWord
  deriving DecidableEq, Repr

/-- Whether a word selects a row (`30_encoding.md` R87). -/
def OpRow.selects (row : OpRow) (w : CmdWord) : Bool := w &&& row.mask == row.bits

/-- The opcode map (`30_encoding.md` R87), row by row. -/
def opcodeMap : List OpRow :=
  [ ⟨"NOP", 0x00000000#32, 0xFFFFFFFF#32⟩
  , ⟨"CLR", 0x04000000#32, 0xFC7FFFFF#32⟩
  , ⟨"MOV", 0x08000000#32, 0xFC0FFFFF#32⟩
  , ⟨"SET", 0x0C000000#32, 0xFC7F0000#32⟩
  , ⟨"UNSET", 0x10000000#32, 0xFC7F0000#32⟩
  , ⟨"TEST", 0x14000000#32, 0xFF8F0000#32⟩
  , ⟨"CNT", 0x18000000#32, 0xFF8FFFFF#32⟩
  , ⟨"EQ", 0x1C000000#32, 0xFF81FFFF#32⟩
  , ⟨"AND", 0x20000000#32, 0xFC01FFFF#32⟩
  , ⟨"OR", 0x24000000#32, 0xFC01FFFF#32⟩
  , ⟨"XOR", 0x28000000#32, 0xFC01FFFF#32⟩
  , ⟨"SHM.ID", 0x30000000#32, 0xFC0FFFFF#32⟩
  , ⟨"SHM.U", 0x30010000#32, 0xFC0F00FF#32⟩
  , ⟨"SHM.D", 0x30020000#32, 0xFC0F00FF#32⟩
  , ⟨"SHM.L", 0x30030000#32, 0xFC0FFF00#32⟩
  , ⟨"SHM.R", 0x30040000#32, 0xFC0FFF00#32⟩
  , ⟨"SHM.UL", 0x30050000#32, 0xFC0F0000#32⟩
  , ⟨"SHM.UR", 0x30060000#32, 0xFC0F0000#32⟩
  , ⟨"SHM.DL", 0x30070000#32, 0xFC0F0000#32⟩
  , ⟨"SHM.DR", 0x30080000#32, 0xFC0F0000#32⟩
  , ⟨"SHM.RSV9", 0x30090000#32, 0xFC0F0000#32⟩
  , ⟨"SHM.RSV10_11", 0x300A0000#32, 0xFC0E0000#32⟩
  , ⟨"SHM.RSV12_15", 0x300C0000#32, 0xFC0C0000#32⟩
  , ⟨"RSHL", 0x34000000#32, 0xFC0F0000#32⟩
  , ⟨"RSHR", 0x38000000#32, 0xFC0F0000#32⟩
  , ⟨"RDBLK", 0x40000000#32, 0xFF8F0000#32⟩
  , ⟨"WRBLK", 0x44000000#32, 0xFC7F0000#32⟩
  , ⟨"RDCSR", 0x48000000#32, 0xFFFFFF00#32⟩
  , ⟨"CLRERR", 0x4C000000#32, 0xFFFFFFFF#32⟩ ]

/-- The mnemonic of an instruction's row in the opcode map. -/
def Instr.mnemonic (i : Instr) : String :=
  match i with
  | .nop => "NOP"
  | .clr _ => "CLR"
  | .mov _ _ => "MOV"
  | .set _ _ _ => "SET"
  | .unset _ _ _ => "UNSET"
  | .test _ _ _ => "TEST"
  | .cnt _ => "CNT"
  | .eq _ _ => "EQ"
  | .and _ _ _ => "AND"
  | .or _ _ _ => "OR"
  | .xor _ _ _ => "XOR"
  | .shmID _ _ => "SHM.ID"
  | .shmU _ _ _ => "SHM.U"
  | .shmD _ _ _ => "SHM.D"
  | .shmL _ _ _ => "SHM.L"
  | .shmR _ _ _ => "SHM.R"
  | .shmUL _ _ _ _ => "SHM.UL"
  | .shmUR _ _ _ _ => "SHM.UR"
  | .shmDL _ _ _ _ => "SHM.DL"
  | .shmDR _ _ _ _ => "SHM.DR"
  | .shmRsv9 _ _ _ _ => "SHM.RSV9"
  | .shmRsv10to11 _ _ _ _ _ => "SHM.RSV10_11"
  | .shmRsv12to15 _ _ _ _ _ => "SHM.RSV12_15"
  | .rshl _ _ _ => "RSHL"
  | .rshr _ _ _ => "RSHR"
  | .rdblk _ _ => "RDBLK"
  | .wrblk _ _ _ => "WRBLK"
  | .rdcsr _ => "RDCSR"
  | .clrerr => "CLRERR"

end Sys2Proof
end

