-- ==== Sys2Proof/Machine/Issue.lean ====
section
/-! DEFINITION. The command port: how the BBU takes the next command of the host's stream
(`20_memory.md` R63, `10_state.md` R30), and what a word that is no command does
(`60_exceptions.md` R302). -/

namespace Sys2Proof.Machine

/-- The host issues commands: they join the end of the stream (`20_memory.md` R63; assumption
log 2). -/
def State.issue (s : State) (cmds : List Command) : State := { s with inbox := s.inbox ++ cmds }

/-- Take the oldest pending command from the stream, `none` when there is none (`20_memory.md`
R63). -/
def State.takeCommand (s : State) : Option (Command × State) :=
  match s.inbox with
  | [] => none
  | cmd :: rest => some (cmd, { s with inbox := rest })

/-- With no command pending the unit waits for the host and nothing changes (DESIGN CHOICE,
assumption log 3). -/
def State.idle (s : State) : Result := .next s

/-- A word that matches no row of the opcode map raises ILLEGAL_OP; its write data is ignored
(`60_exceptions.md` R302). -/
def State.illegalOp (s : State) : Result := s.raise .illegalOp

/-- Put one table word at the head of the stream, before every pending command (assumption
log 2, 9). -/
def State.presentFirst (s : State) (cmd : Command) : State := { s with inbox := cmd :: s.inbox }

end Sys2Proof.Machine
end

