-- ==== Sys2Proof/Machine/Step.lean ====
section
/-! DEFINITION. One step: the oldest pending command is taken, decoded and executed as one atomic
step (`00_scope.md` R6, R7; `20_memory.md` R60, R63; `60_exceptions.md` R312). -/

namespace Sys2Proof.Machine

/-- One step of the machine. Decoding comes first and a word that is no command raises ILLEGAL_OP
(`60_exceptions.md` R312). With no command pending the unit is idle. -/
def step (s : State) : Host.Outcome State Fault Refusal :=
  match s.takeCommand with
  | none => s.idle
  | some (cmd, s') =>
    match decode cmd with
    | .ok i => exec i s'
    | .error _ => s'.illegalOp

/-- The state in which the very next step takes the table word `w` of `nbits` bits as its command:
the host has issued it ahead of whatever is pending (assumption log 2, 9). -/
def State.withFetchWord (s : State) (nbits w : Nat) : State :=
  s.presentFirst (tableCommand nbits w)

end Sys2Proof.Machine
end

