-- ==== Sys2Proof/Machine/Move.lean ====
section
/-! DEFINITION. The host layer's Move value and its algebra (`44_move_algebra.md`): pure functions,
no state of the BBU (`00_scope.md` R4, assumption log 14). -/

namespace Sys2Proof.Machine

/-- A Move; in a diagonal the first magnitude is the vertical one (`44_move_algebra.md` R240). -/
inductive Move where
  | identity
  | up (k : Nat)
  | down (k : Nat)
  | left (k : Nat)
  | right (k : Nat)
  | upLeft (k1 k2 : Nat)
  | upRight (k1 k2 : Nat)
  | downLeft (k1 k2 : Nat)
  | downRight (k1 k2 : Nat)
  deriving DecidableEq, Repr

/-- The sense of a rotation (`44_move_algebra.md` R245, R246). -/
inductive Rotation where
  | clockwise
  | antiClockwise
  deriving DecidableEq, Repr

/-- `disp(m)`, the displacement `(dx, dy)` (`44_move_algebra.md` R241). -/
def Move.disp (m : Move) : Int × Int :=
  match m with
  | .identity => (0, 0)
  | .up k => (0, k)
  | .down k => (0, -k)
  | .left k => (-k, 0)
  | .right k => (k, 0)
  | .upLeft k1 k2 => (-k2, k1)
  | .upRight k1 k2 => (k2, k1)
  | .downLeft k1 k2 => (-k2, -k1)
  | .downRight k1 k2 => (k2, -k1)

/-- `sat(k) = min(k, 255)` as the 8-bit magnitude field (`30_encoding.md` R84, `44_move_algebra.md`
R242). -/
def sat8 (k : Nat) : BitVec 8 := BitVec.ofNat 8 (min k 255)

/-- A raw count above 65535 is encoded as 65535 (`30_encoding.md` R85). -/
def sat16 (k : Nat) : BitVec 16 := BitVec.ofNat 16 (min k 65535)

/-- `encode(m)`: the SHM operand fields `f`, `hi`, `lo` (`44_move_algebra.md` R242). -/
def Move.operand (m : Move) : BitVec 4 × BitVec 8 × BitVec 8 :=
  match m with
  | .identity => (0, 0, 0)
  | .up k => (1, sat8 k, 0)
  | .down k => (2, sat8 k, 0)
  | .left k => (3, 0, sat8 k)
  | .right k => (4, 0, sat8 k)
  | .upLeft k1 k2 => (5, sat8 k1, sat8 k2)
  | .upRight k1 k2 => (6, sat8 k1, sat8 k2)
  | .downLeft k1 k2 => (7, sat8 k1, sat8 k2)
  | .downRight k1 k2 => (8, sat8 k1, sat8 k2)

/-- `SHM rd, rs1, encode(m)`: the source's `board << m` (`44_move_algebra.md` R242). -/
def Move.shm (m : Move) (rd rs1 : Reg) : Instr :=
  match m with
  | .identity => .shmID rd rs1
  | .up k => .shmU rd rs1 (sat8 k)
  | .down k => .shmD rd rs1 (sat8 k)
  | .left k => .shmL rd rs1 (sat8 k)
  | .right k => .shmR rd rs1 (sat8 k)
  | .upLeft k1 k2 => .shmUL rd rs1 (sat8 k1) (sat8 k2)
  | .upRight k1 k2 => .shmUR rd rs1 (sat8 k1) (sat8 k2)
  | .downLeft k1 k2 => .shmDL rd rs1 (sat8 k1) (sat8 k2)
  | .downRight k1 k2 => .shmDR rd rs1 (sat8 k1) (sat8 k2)

/-- `RSHL` by a host count, saturated (`30_encoding.md` R85). -/
def hostRshl (rd rs1 : Reg) (count : Nat) : Instr := .rshl rd rs1 (sat16 count)

/-- `RSHR` by a host count, saturated (`30_encoding.md` R85). -/
def hostRshr (rd rs1 : Reg) (count : Nat) : Instr := .rshr rd rs1 (sat16 count)

/-- `combine(a, b)`: Identity is neutral, two of one orthogonal kind add, one vertical and one
horizontal make the diagonal, every other pair gives Identity (`44_move_algebra.md` R243). -/
def Move.combine (a b : Move) : Move :=
  match a, b with
  | .identity, m => m
  | m, .identity => m
  | .up i, .up j => .up (i + j)
  | .down i, .down j => .down (i + j)
  | .left i, .left j => .left (i + j)
  | .right i, .right j => .right (i + j)
  | .up i, .left j => .upLeft i j
  | .left j, .up i => .upLeft i j
  | .up i, .right j => .upRight i j
  | .right j, .up i => .upRight i j
  | .down i, .left j => .downLeft i j
  | .left j, .down i => .downLeft i j
  | .down i, .right j => .downRight i j
  | .right j, .down i => .downRight i j
  | _, _ => .identity

/-- `mirror(m)`, the point reflection (`44_move_algebra.md` R244). -/
def Move.mirror (m : Move) : Move :=
  match m with
  | .identity => .identity
  | .up k => .down k
  | .down k => .up k
  | .left k => .right k
  | .right k => .left k
  | .upLeft k1 k2 => .downRight k1 k2
  | .downRight k1 k2 => .upLeft k1 k2
  | .upRight k1 k2 => .downLeft k1 k2
  | .downLeft k1 k2 => .upRight k1 k2

/-- `rotate(m, Clockwise)` (`44_move_algebra.md` R245). -/
def Move.rotateCW (m : Move) : Move :=
  match m with
  | .identity => .identity
  | .up k => .right k
  | .right k => .down k
  | .down k => .left k
  | .left k => .up k
  | .upRight k1 k2 => .downRight k2 k1
  | .downRight k1 k2 => .downLeft k2 k1
  | .downLeft k1 k2 => .upLeft k2 k1
  | .upLeft k1 k2 => .upRight k2 k1

/-- `rotate(m, AntiClockwise)` (`44_move_algebra.md` R246). -/
def Move.rotateACW (m : Move) : Move :=
  match m with
  | .identity => .identity
  | .up k => .left k
  | .left k => .down k
  | .down k => .right k
  | .right k => .up k
  | .upRight k1 k2 => .upLeft k2 k1
  | .upLeft k1 k2 => .downLeft k2 k1
  | .downLeft k1 k2 => .downRight k2 k1
  | .downRight k1 k2 => .upRight k2 k1

/-- `rotate(m, r)` (`44_move_algebra.md` R245, R246). -/
def Move.rotate (m : Move) (r : Rotation) : Move :=
  match r with
  | .clockwise => m.rotateCW
  | .antiClockwise => m.rotateACW

/-- `scale(m, k)`; the kind never changes (`44_move_algebra.md` R247). -/
def Move.scale (m : Move) (k : Nat) : Move :=
  match m with
  | .identity => .identity
  | .up a => .up (a * k)
  | .down a => .down (a * k)
  | .left a => .left (a * k)
  | .right a => .right (a * k)
  | .upLeft a b => .upLeft (a * k) (b * k)
  | .upRight a b => .upRight (a * k) (b * k)
  | .downLeft a b => .downLeft (a * k) (b * k)
  | .downRight a b => .downRight (a * k) (b * k)

/-- `split(m)`: the vertical component first (`44_move_algebra.md` R248). -/
def Move.split (m : Move) : Move × Move :=
  match m with
  | .upLeft k1 k2 => (.up k1, .left k2)
  | .upRight k1 k2 => (.up k1, .right k2)
  | .downLeft k1 k2 => (.down k1, .left k2)
  | .downRight k1 k2 => (.down k1, .right k2)
  | .identity | .up _ | .down _ | .left _ | .right _ => (m, .identity)

end Sys2Proof.Machine
end

