-- ==== Sys2Proof/Machine/Builder.lean ====
section
/-! DEFINITION. The host layer's Move Builder (`45_move_builder.md`): host memory, none of it held by
the BBU (`10_state.md` R32, assumption log 14). -/

namespace Sys2Proof.Machine

/-- The combination mode (`45_move_builder.md` R270). -/
inductive Mode where
  | orAccumulate
  | chained
  deriving DecidableEq, Repr

/-- A builder's source: a board register that the host leaves unchanged until `collect`, or a
host-side copy of a board's blocks (`45_move_builder.md` R270). -/
inductive BuilderSource where
  | register (r : Reg)
  | copy (b : Board)
  deriving DecidableEq, Repr

/-- A builder (`45_move_builder.md` R270). -/
structure Builder where
  source : BuilderSource
  moves : List Move
  mode : Mode
  deriving DecidableEq, Repr

/-- `moves()` on the board in a register (`45_move_builder.md` R271). -/
def startMoves (r : Reg) : Builder := ⟨.register r, [], .orAccumulate⟩

/-- `make_moves_from(x, y)`: the source is the board whose only set cell is `(x, y)`, the all-zero
board when `(x, y)` is out of bounds (`45_move_builder.md` R271). -/
def makeMovesFrom (c : Config) (x y : Nat) : Builder :=
  ⟨.copy (setCell c (zeroBoard c) x y), [], .orAccumulate⟩

/-- `translate(m)` (`45_move_builder.md` R273). -/
def Builder.translate (bl : Builder) (m : Move) : Builder := { bl with moves := bl.moves ++ [m] }

/-- `up(k)` (`45_move_builder.md` R273). -/
def Builder.up (bl : Builder) (k : Nat) : Builder := bl.translate (.up k)

/-- `down(k)` (`45_move_builder.md` R273). -/
def Builder.down (bl : Builder) (k : Nat) : Builder := bl.translate (.down k)

/-- `left(k)` (`45_move_builder.md` R273). -/
def Builder.left (bl : Builder) (k : Nat) : Builder := bl.translate (.left k)

/-- `right(k)` (`45_move_builder.md` R273). -/
def Builder.right (bl : Builder) (k : Nat) : Builder := bl.translate (.right k)

/-- `upleft(k1,k2)` (`45_move_builder.md` R273). -/
def Builder.upleft (bl : Builder) (k1 k2 : Nat) : Builder := bl.translate (.upLeft k1 k2)

/-- `upright(k1,k2)` (`45_move_builder.md` R273). -/
def Builder.upright (bl : Builder) (k1 k2 : Nat) : Builder := bl.translate (.upRight k1 k2)

/-- `downleft(k1,k2)` (`45_move_builder.md` R273). -/
def Builder.downleft (bl : Builder) (k1 k2 : Nat) : Builder := bl.translate (.downLeft k1 k2)

/-- `downright(k1,k2)` (`45_move_builder.md` R273). -/
def Builder.downright (bl : Builder) (k1 k2 : Nat) : Builder := bl.translate (.downRight k1 k2)

/-- `identity()` (`45_move_builder.md` R274). -/
def Builder.identity (bl : Builder) : Builder := bl.translate .identity

/-- `repeat(count)`: the old moves, then for each of them in order its multiples `1 .. count`
(`45_move_builder.md` R275). -/
def Builder.repeatMoves (bl : Builder) (count : Nat) : Builder :=
  { bl with moves := bl.moves ++
      bl.moves.flatMap fun m => (List.range count).map fun j => m.scale (j + 1) }

/-- `rotate(r)` (`45_move_builder.md` R276). -/
def Builder.rotate (bl : Builder) (r : Rotation) : Builder :=
  { bl with moves := bl.moves ++ bl.moves.map fun m => m.rotate r }

/-- `mirror()` (`45_move_builder.md` R277). -/
def Builder.mirror (bl : Builder) : Builder :=
  { bl with moves := bl.moves ++ bl.moves.map Move.mirror }

/-- The builder-level `combine`: it only selects OR accumulation (`45_move_builder.md` R272). -/
def Builder.combine (bl : Builder) : Builder := { bl with mode := .orAccumulate }

/-- `COLLECT rd, rs1, tmp, moves, mode` as commands; `rd`, `rs1` and `tmp` are three different
registers (`45_move_builder.md` R290). -/
def collectCommands (rd rs1 tmp : Reg) (moves : List Move) (mode : Mode) : List Instr :=
  match mode with
  | .orAccumulate => .clr rd :: moves.flatMap fun m => [m.shm tmp rs1, .or rd rd tmp]
  | .chained => .mov rd rs1 :: moves.map fun m => m.shm rd rd

/-- The `B` WRBLKs that load a host-side board whole (`40_board_core.md` R141). -/
def loadCommands (c : Config) (r : Reg) (b : Board) : List Instr :=
  (List.range c.blocks).map fun i => .wrblk r (BitVec.ofNat 16 i) (blockAt b i)

/-- `collect()`: the commands that leave the result in `rd`. A source held by the host is first
loaded into `src` (assumption log 15). The builder is consumed: what is answered is the commands
and no builder (`45_move_builder.md` R272, `93_implementation_defined.md` U8). -/
def Builder.collect (c : Config) (bl : Builder) (rd src tmp : Reg) : List Instr :=
  match bl.source with
  | .register r => collectCommands rd r tmp bl.moves bl.mode
  | .copy b => loadCommands c src b ++ collectCommands rd src tmp bl.moves bl.mode

end Sys2Proof.Machine
end

