-- ==== Sys2Proof/Machine/Pseudo.lean ====
section
/-! DEFINITION. The host layer's pseudo-instructions and procedures (`30_encoding.md` R96,
`40_board_core.md` R137), running a command sequence, and the rendering convention
(`45_move_builder.md` R296). -/

namespace Sys2Proof.Machine

/-- The pseudo-instructions (`30_encoding.md` R96); none has an encoding of its own. -/
inductive PseudoInstr where
  | default (rd : Reg)
  | new (rd : Reg) (cells : List (BitVec 8 × BitVec 8))
  | clone (rd rs1 : Reg)
  | shma (rd : Reg) (m : Move)
  | anda (rd rs2 : Reg)
  | ora (rd rs2 : Reg)
  | xora (rd rs2 : Reg)
  | iter (rs1 : Reg)
  | collect (rd rs1 tmp : Reg) (moves : List Move) (mode : Mode)
  deriving DecidableEq, Repr

/-- The whole grid in row-major order: `y = 0 .. N-1` and within it `x = 0 .. N-1`
(`40_board_core.md` R137). -/
def gridCells (c : Config) : List (Nat × Nat) :=
  (List.range c.n).flatMap fun y => (List.range c.n).map fun x => (x, y)

/-- The expansion of a pseudo-instruction (`30_encoding.md` R96). -/
def PseudoInstr.expand (c : Config) (p : PseudoInstr) : List Instr :=
  match p with
  | .default rd => [.clr rd]
  | .new rd cells => .clr rd :: cells.map fun xy => .set rd xy.1 xy.2
  | .clone rd rs1 => [.mov rd rs1]
  | .shma rd m => [m.shm rd rd]
  | .anda rd rs2 => [.and rd rd rs2]
  | .ora rd rs2 => [.or rd rd rs2]
  | .xora rd rs2 => [.xor rd rd rs2]
  | .iter rs1 =>
    (gridCells c).map fun xy => .test rs1 (BitVec.ofNat 8 xy.1) (BitVec.ofNat 8 xy.2)
  | .collect rd rs1 tmp moves mode => collectCommands rd rs1 tmp moves mode

/-- The coordinate sequence of an iteration: the cells whose TEST answers 1, in order
(`40_board_core.md` R137). -/
def setCells (c : Config) (b : Board) : List (Nat × Nat) :=
  (gridCells c).filter fun xy => cellOf c b xy.1 xy.2

/-- Execute a command sequence in order, stopping where a command stops (`20_memory.md` R63). -/
def execList (prog : List Instr) (s : State) : Result :=
  match prog with
  | [] => .next s
  | i :: rest =>
    match exec i s with
    | .next t => execList rest t
    | .fault r => .fault r
    | .refused r => .refused r

/-- Line `j` from the top of a rendered board shows row `N-1-j`, `x` from 0 at the left, in tokens
`1 ` and `0 ` (`45_move_builder.md` R296). -/
def renderLine (c : Config) (b : Board) (j : Nat) : String :=
  String.join ((List.range c.n).map fun x => if cellOf c b x (c.n - 1 - j) then "1 " else "0 ")

/-- A rendered board, top line first (`45_move_builder.md` R296). -/
def render (c : Config) (b : Board) : List String := (List.range c.n).map (renderLine c b)

end Sys2Proof.Machine
end

