-- ==== Sys2Proof/Machine/Asm.lean ====
section
/-! DEFINITION. The assembler notation: one command or pseudo-instruction a line
(`30_encoding.md` R95, R96). Host software; what R95 leaves open of the text is fixed in assumption
log 16. -/

namespace Sys2Proof.Machine

/-- A token of a line. -/
inductive Tok where
  | word (cs : List Char)
  | comma | lpar | rpar | lbrack | rbrack
  deriving DecidableEq, Repr

/-- Whether a character belongs to a word: a letter, a digit or an underscore. -/
def isWordChar (ch : Char) : Bool := ch.isAlphanum || ch == '_'

/-- The pending word, if it has any character, in front of the tokens that follow. -/
def flushWord (cur : List Char) (toks : List Tok) : List Tok :=
  if cur.isEmpty then toks else .word cur :: toks

/-- The punctuation tokens. -/
def punctuation (ch : Char) : Option Tok :=
  match ch with
  | ',' => some .comma
  | '(' => some .lpar
  | ')' => some .rpar
  | '[' => some .lbrack
  | ']' => some .rbrack
  | _ => none

/-- The tokens of a line, `none` on a character that no token has; `;` starts a comment
(`30_encoding.md` R95). `cur` is the word being read. -/
def lexFrom (cur : List Char) (line : List Char) : Option (List Tok) :=
  match line with
  | [] => some (flushWord cur [])
  | ch :: rest =>
    if ch == ';' then some (flushWord cur [])
    else if isWordChar ch then lexFrom (cur ++ [ch]) rest
    else if ch == ' ' || ch == '\t' then (lexFrom [] rest).map (flushWord cur)
    else
      match punctuation ch, lexFrom [] rest with
      | some t, some toks => some (flushWord cur (t :: toks))
      | _, _ => none

/-- The value of a digit in a base, `none` if the character is no digit of it. -/
def digitIn (base : Nat) (ch : Char) : Option Nat :=
  let v := if ch.isDigit then ch.toNat - '0'.toNat
    else if 'a' ≤ ch ∧ ch ≤ 'f' then ch.toNat - 'a'.toNat + 10
    else if 'A' ≤ ch ∧ ch ≤ 'F' then ch.toNat - 'A'.toNat + 10
    else base
  if v < base then some v else none

/-- The digits of a number after `acc`, most significant first. -/
def digitsFrom (base acc : Nat) (cs : List Char) : Option Nat :=
  match cs with
  | [] => some acc
  | ch :: rest => (digitIn base ch).bind fun d => digitsFrom base (acc * base + d) rest

/-- A number, decimal or `0x` hexadecimal (`30_encoding.md` R95). -/
def parseNumber (cs : List Char) : Option Nat :=
  match cs with
  | [] => none
  | '0' :: 'x' :: d :: rest => digitsFrom 16 0 (d :: rest)
  | d :: rest => digitsFrom 10 0 (d :: rest)

/-- A register name `b0` to `b7` (`30_encoding.md` R95). -/
def parseReg (cs : List Char) : Option Reg :=
  match cs with
  | ['b', d] => (digitIn 8 d).map (Fin.ofNat 8)
  | _ => none

/-- A move with one magnitude, short or long name (`30_encoding.md` R95). -/
def oneMove (name : List Char) (k : Nat) : Option Move :=
  match String.ofList name with
  | "U" | "Up" => some (.up k)
  | "D" | "Down" => some (.down k)
  | "L" | "Left" => some (.left k)
  | "R" | "Right" => some (.right k)
  | _ => none

/-- A move with two magnitudes, short or long name (`30_encoding.md` R95). -/
def twoMove (name : List Char) (k1 k2 : Nat) : Option Move :=
  match String.ofList name with
  | "UL" | "UpLeft" => some (.upLeft k1 k2)
  | "UR" | "UpRight" => some (.upRight k1 k2)
  | "DL" | "DownLeft" => some (.downLeft k1 k2)
  | "DR" | "DownRight" => some (.downRight k1 k2)
  | _ => none

/-- An operand of a line. -/
inductive Operand where
  | reg (r : Reg)
  | num (n : Nat)
  | move (m : Move)
  | cell (x y : Nat)
  | moves (ms : List Move)
  | mode (m : Mode)
  deriving DecidableEq, Repr

/-- An operand that is one word. -/
def parseAtom (cs : List Char) : Option Operand :=
  match parseReg cs, parseNumber cs with
  | some r, _ => some (.reg r)
  | none, some n => some (.num n)
  | none, none =>
    match String.ofList cs with
    | "ID" | "Identity" => some (.move .identity)
    | "OR_ACCUMULATE" => some (.mode .orAccumulate)
    | "CHAINED" => some (.mode .chained)
    | _ => none

/-- One operand that is no list, and the tokens after it. -/
def parseSimple (toks : List Tok) : Option (Operand × List Tok) :=
  match toks with
  | .word name :: .lpar :: .word a :: .rpar :: rest =>
    (parseNumber a).bind fun k => (oneMove name k).map fun m => (.move m, rest)
  | .word name :: .lpar :: .word a :: .comma :: .word b :: .rpar :: rest =>
    (parseNumber a).bind fun k1 => (parseNumber b).bind fun k2 =>
      (twoMove name k1 k2).map fun m => (.move m, rest)
  | .lpar :: .word a :: .comma :: .word b :: .rpar :: rest =>
    (parseNumber a).bind fun x => (parseNumber b).map fun y => (.cell x y, rest)
  | .word cs :: rest => (parseAtom cs).map fun o => (o, rest)
  | _ => none

/-- The moves of a list up to its closing bracket, and the tokens after it; `fuel` bounds the number
of moves. -/
def parseMoves (fuel : Nat) (toks : List Tok) : Option (List Move × List Tok) :=
  match fuel with
  | 0 => none
  | fuel + 1 =>
    match parseSimple toks with
    | some (.move m, .rbrack :: rest) => some ([m], rest)
    | some (.move m, .comma :: rest) =>
      (parseMoves fuel rest).map fun (ms, after) => (m :: ms, after)
    | _ => none

/-- One operand, and the tokens after it. -/
def parseOperand (toks : List Tok) : Option (Operand × List Tok) :=
  match toks with
  | .lbrack :: .rbrack :: rest => some (.moves [], rest)
  | .lbrack :: rest => (parseMoves rest.length rest).map fun (ms, after) => (.moves ms, after)
  | _ => parseSimple toks

/-- The operands of a line, separated by commas (`30_encoding.md` R95); `fuel` bounds their
number. -/
def parseOperands (fuel : Nat) (toks : List Tok) : Option (List Operand) :=
  match fuel, toks with
  | 0, _ => none
  | _ + 1, [] => some []
  | fuel + 1, _ =>
    match parseOperand toks with
    | some (o, []) => some [o]
    | some (o, .comma :: t :: rest) => (parseOperands fuel (t :: rest)).map fun os => o :: os
    | _ => none

/-- An 8-bit field's value; a number that does not fit is no operand (assumption log 16). -/
def fit8 (n : Nat) : Option (BitVec 8) := if n < 2 ^ 8 then some (BitVec.ofNat 8 n) else none

/-- A 16-bit field's value; a number that does not fit is no operand (assumption log 16). -/
def fit16 (n : Nat) : Option (BitVec 16) := if n < 2 ^ 16 then some (BitVec.ofNat 16 n) else none

/-- A cell command with its coordinates in their fields. -/
def withCell (x y : Nat) (make : BitVec 8 → BitVec 8 → Instr) : Option (List Instr) :=
  (fit8 x).bind fun bx => (fit8 y).map fun by8 => [make bx by8]

/-- The cells of NEW; a coordinate above 255 is out of bounds on every board and is written as 255,
which is so too (assumption log 17). -/
def parseCells (os : List Operand) : Option (List (BitVec 8 × BitVec 8)) :=
  match os with
  | [] => some []
  | .cell x y :: rest => (parseCells rest).map fun cs => (sat8 x, sat8 y) :: cs
  | _ => none

/-- The commands of a line with the given mnemonic and operands, pseudo-instructions expanded
(`30_encoding.md` R95, R96). DESIGN CHOICE, safe: R95 does not say what a line does whose WRBLK data is
`2^W` or more; the line is refused, as is a COLLECT whose three registers are not different
(assumption log 16). The machine itself cuts such data to `W` bits (assumption log 8). -/
def assembleOp (c : Config) (mnemonic : String) (os : List Operand) : Option (List Instr) :=
  match mnemonic, os with
  | "NOP", [] => some [.nop]
  | "CLR", [.reg rd] => some [.clr rd]
  | "MOV", [.reg rd, .reg rs1] => some [.mov rd rs1]
  | "SET", [.reg rd, .num x, .num y] => withCell x y (.set rd)
  | "UNSET", [.reg rd, .num x, .num y] => withCell x y (.unset rd)
  | "TEST", [.reg rs1, .num x, .num y] => withCell x y (.test rs1)
  | "CNT", [.reg rs1] => some [.cnt rs1]
  | "EQ", [.reg rs1, .reg rs2] => some [.eq rs1 rs2]
  | "AND", [.reg rd, .reg rs1, .reg rs2] => some [.and rd rs1 rs2]
  | "OR", [.reg rd, .reg rs1, .reg rs2] => some [.or rd rs1 rs2]
  | "XOR", [.reg rd, .reg rs1, .reg rs2] => some [.xor rd rs1 rs2]
  | "SHM", [.reg rd, .reg rs1, .move m] => some [m.shm rd rs1]
  | "RSHL", [.reg rd, .reg rs1, .num n] => some [hostRshl rd rs1 n]
  | "RSHR", [.reg rd, .reg rs1, .num n] => some [hostRshr rd rs1 n]
  | "RDBLK", [.reg rs1, .num i] => (fit16 i).map fun index => [.rdblk rs1 index]
  | "WRBLK", [.reg rd, .num i, .num v] =>
    if v < 2 ^ c.width then (fit16 i).map fun index => [.wrblk rd index v] else none
  | "RDCSR", [.num n] => (fit8 n).map fun csr => [.rdcsr csr]
  | "CLRERR", [] => some [.clrerr]
  | "DEFAULT", [.reg rd] => some ((PseudoInstr.default rd).expand c)
  | "NEW", .reg rd :: cells => (parseCells cells).map fun cs => (PseudoInstr.new rd cs).expand c
  | "CLONE", [.reg rd, .reg rs1] => some ((PseudoInstr.clone rd rs1).expand c)
  | "SHMA", [.reg rd, .move m] => some ((PseudoInstr.shma rd m).expand c)
  | "ANDA", [.reg rd, .reg rs2] => some ((PseudoInstr.anda rd rs2).expand c)
  | "ORA", [.reg rd, .reg rs2] => some ((PseudoInstr.ora rd rs2).expand c)
  | "XORA", [.reg rd, .reg rs2] => some ((PseudoInstr.xora rd rs2).expand c)
  | "ITER", [.reg rs1] => some ((PseudoInstr.iter rs1).expand c)
  | "COLLECT", [.reg rd, .reg rs1, .reg tmp, .moves ms, .mode m] =>
    if rd ≠ rs1 ∧ rd ≠ tmp ∧ rs1 ≠ tmp then
      some ((PseudoInstr.collect rd rs1 tmp ms m).expand c)
    else none
  | _, _ => none

/-- The commands of one line of assembler text; a line with no mnemonic has none, a line that is
not of the notation is refused (`30_encoding.md` R95). -/
def assembleLine (c : Config) (line : List Char) : Option (List Instr) :=
  match lexFrom [] line with
  | some [] => some []
  | some (.word name :: toks) =>
    (parseOperands (toks.length + 1) toks).bind fun os => assembleOp c (String.ofList name) os
  | _ => none

/-- The commands of a program text, line by line, as presented to the BBU. -/
def assemble (c : Config) (lines : List (List Char)) : Option (List Command) :=
  match lines with
  | [] => some []
  | line :: rest =>
    match assembleLine c line, assemble c rest with
    | some is, some cmds => some (is.map encode ++ cmds)
    | _, _ => none

end Sys2Proof.Machine
end

