-- ==== Sys2Proof/Machine/Datapath.lean ====
section
/-! DEFINITION. The multi-block datapath of the shift engine, block by block and chunk by chunk
(`41_shift_engine.md` R180 to R185). `exec` uses the shift function of `ShiftEngine.lean`; the spec
says that the datapath computes the same (R186), which is stated as an obligation. -/

namespace Sys2Proof.Machine

/-! ### Closed form per block -/

/-- `old[j]`, with `old[j] = 0` for `j < 0` and `j ≥ B` (`41_shift_engine.md` R180). -/
def oldBlock (c : Config) (b : Board) (j : Int) : Block :=
  if 0 ≤ j ∧ j < c.blocks then blockAt b j.toNat else 0

/-- `t[i]` for a shift up by `s` (`41_shift_engine.md` R180). -/
def closedUp (c : Config) (b : Board) (s i : Nat) : Block :=
  let q : Int := (s / c.width : Nat)
  let r := s % c.width
  if r = 0 then oldBlock c b (i - q)
  else ((oldBlock c b (i - q) <<< r) &&& c.wmask) ||| (oldBlock c b (i - q - 1) >>> (c.width - r))

/-- `t[i]` for a shift down by `s` (`41_shift_engine.md` R180). -/
def closedDown (c : Config) (b : Board) (s i : Nat) : Block :=
  let q : Int := (s / c.width : Nat)
  let r := s % c.width
  if r = 0 then oldBlock c b (i + q)
  else (oldBlock c b (i + q) >>> r) ||| ((oldBlock c b (i + q + 1) <<< (c.width - r)) &&& c.wmask)

/-- `new[i] = t[i] & EM[i]` for every block, the closed form of a move shift (`41_shift_engine.md`
R180). -/
def closedMove (c : Config) (b : Board) (dx dy : Int) : Board :=
  let delta := linearShift c dx dy
  (List.range c.blocks).map fun i =>
    (if 0 ≤ delta then closedUp c b delta.toNat i else closedDown c b (-delta).toNat i)
      &&& edgeMask c dx i

/-! ### Chunks -/

/-- The reference split of a total shift `s`: `ceil(s / W)` chunks, every one `W` except the last;
none when `s = 0` (`41_shift_engine.md` R181). -/
def chunksOf (c : Config) (s : Nat) : List Nat :=
  if s = 0 then []
  else List.replicate ((s - 1) / c.width) c.width ++ [s - (s - 1) / c.width * c.width]

/-- The per-block loop of a chunk step up by `k`, with the carry into the first block of the list
(`41_shift_engine.md` R182; R184 when `k = W`). -/
def chunkUpFrom (c : Config) (k : Nat) (carry : Block) (b : Board) : Board :=
  match b with
  | [] => []
  | v :: rest =>
    if k = c.width then carry :: chunkUpFrom c k v rest
    else (((v <<< k) &&& c.wmask) ||| carry) :: chunkUpFrom c k (v >>> (c.width - k)) rest

/-- One chunk step up, over blocks in ascending index; the last carry is dropped
(`41_shift_engine.md` R182, R184). -/
def chunkUp (c : Config) (k : Nat) (b : Board) : Board := chunkUpFrom c k 0 b

/-- The per-block loop of a chunk step down by `k`, over the blocks in the order of the loop, with
the carry into the first of them (`41_shift_engine.md` R183; R184 when `k = W`). -/
def chunkDownFrom (c : Config) (k : Nat) (carry : Block) (b : Board) : Board :=
  match b with
  | [] => []
  | v :: rest =>
    if k = c.width then carry :: chunkDownFrom c k v rest
    else ((v >>> k) ||| carry) :: chunkDownFrom c k ((v <<< (c.width - k)) &&& c.wmask) rest

/-- One chunk step down, over blocks in descending index; the last carry is dropped
(`41_shift_engine.md` R183, R184). -/
def chunkDown (c : Config) (k : Nat) (b : Board) : Board :=
  (chunkDownFrom c k 0 b.reverse).reverse

/-- Run the chunk steps of a shift, all in one direction (`41_shift_engine.md` R181). -/
def runChunks (c : Config) (up : Bool) (chunks : List Nat) (b : Board) : Board :=
  chunks.foldl (fun acc k => if up then chunkUp c k acc else chunkDown c k acc) b

/-- After the last chunk each block is AND-ed with its edge mask and the final block with `LBM`
(`41_shift_engine.md` R185). -/
def applyMasks (c : Config) (em : Nat → Block) (b : Board) : Board :=
  b.mapIdx fun i v => if i = c.blocks - 1 then v &&& em i &&& c.lbm else v &&& em i

/-- A move shift on the datapath with a given split of the total (`41_shift_engine.md` R181 to
R185). -/
def datapathMove (c : Config) (chunks : List Nat) (b : Board) (dx dy : Int) : Board :=
  applyMasks c (edgeMask c dx) (runChunks c (decide (0 ≤ linearShift c dx dy)) chunks b)

/-- A raw shift on the datapath: `EM[i] = WMASK` throughout (`41_shift_engine.md` R186). -/
def datapathRaw (c : Config) (chunks : List Nat) (b : Board) (delta : Int) : Board :=
  applyMasks c (fun _ => c.wmask) (runChunks c (decide (0 ≤ delta)) chunks b)

end Sys2Proof.Machine
end

