-- ==== Sys2Proof/WellFormed.lean ====
section
/-! DEFINITION. When a shape, an instruction or a presented command is one that exists
(`00_scope.md` R8, R9; `30_encoding.md` R80; `93_implementation_defined.md` U14). Every other
operand is well formed by its type. -/

namespace Sys2Proof

/-- A shape that a unit can have: `1 ≤ N ≤ 255` (`00_scope.md` R8); the widths of R9 are all that
`BlockWidth` has. -/
abbrev Config.legal (c : Config) : Prop := 1 ≤ c.n ∧ c.n ≤ 255

/-- The write data of a WRBLK is exactly `W` bits (`40_board_core.md` R141). -/
def Instr.wf (c : Config) (i : Instr) : Bool :=
  match i with
  | .wrblk _ _ wdata => decide (wdata < 2 ^ c.width)
  | .nop | .clr _ | .mov _ _ | .set _ _ _ | .unset _ _ _ | .test _ _ _ | .cnt _ | .eq _ _
  | .and _ _ _ | .or _ _ _ | .xor _ _ _ | .shmID _ _ | .shmU _ _ _ | .shmD _ _ _ | .shmL _ _ _
  | .shmR _ _ _ | .shmUL _ _ _ _ | .shmUR _ _ _ _ | .shmDL _ _ _ _ | .shmDR _ _ _ _
  | .shmRsv9 _ _ _ _ | .shmRsv10to11 _ _ _ _ _ | .shmRsv12to15 _ _ _ _ _ | .rshl _ _ _
  | .rshr _ _ _ | .rdblk _ _ | .rdcsr _ | .clrerr => true

/-- What the port can carry: a 32-bit word and `W` bits of write data (`30_encoding.md` R80). -/
abbrev Command.wf (c : Config) (cmd : Command) : Prop := cmd.wdata < 2 ^ c.width

end Sys2Proof
end

