-- ==== Sys2Proof/Safety.lean ====
section
/-! DEFINITION. What a well-formed state and a safe run are, and the words that the claims use:
frames, responses and errors, cells at integer coordinates. -/

namespace Sys2Proof.Machine

/-! ### Well-formed states -/

/-- A board register's contents as the spec has them: `B` blocks (`10_state.md` R20), each `W` bits,
and no padding bit set, `val(b) ≤ FULL` (`10_state.md` R22). -/
abbrev BoardWf (c : Config) (b : Board) : Prop :=
  b.length = c.blocks ∧ (∀ v ∈ b, v < 2 ^ c.width) ∧ boardVal c b ≤ c.full

/-- The invariant of the machine: the shape is legal (`00_scope.md` R8) and every board register is
well formed (`10_state.md` R22). -/
abbrev State.Wf (s : State) : Prop := s.cfg.legal ∧ ∀ r : Reg, BoardWf s.cfg (s.board r)

/-- Every error that `ERR` shows is in the model's own record (`60_exceptions.md` R311). -/
abbrev State.ErrRecorded (s : State) : Prop := s.err &&& s.everErr = s.err

/-- A safe run so far: no error has been raised since reset, whatever CLRERR has cleared
(`60_exceptions.md` R311; `93_implementation_defined.md` U1, U5, U6). -/
abbrev State.ErrorFree (s : State) : Prop := s.everErr = 0

/-! ### What a command leaves as it was -/

/-- The command completed: one response, OK with `data`; `ERR`, the record, the shape and the
commands still pending are as before (`30_encoding.md` R93, `10_state.md` R28; the transcript, the
record and the pending commands are the model's own fields, assumption log 2, 4, 6). -/
def Completed (s t : State) (data : Nat) : Prop :=
  t.outbox = s.outbox ++ [⟨.ok, data⟩] ∧ t.err = s.err ∧ t.everErr = s.everErr ∧
    t.cfg = s.cfg ∧ t.inbox = s.inbox

/-- The command raised `e`: one response with its status and data 0, its sticky bit set and no other
bit of `ERR` changed; the shape and the commands still pending are as before (`60_exceptions.md`
R301; assumption log 2, 4, 6). -/
def Raised (s t : State) (e : ErrKind) : Prop :=
  t.outbox = s.outbox ++ [⟨.err e, 0⟩] ∧ t.err = s.err ||| e.mask ∧
    t.everErr = s.everErr ||| e.mask ∧ t.cfg = s.cfg ∧ t.inbox = s.inbox

/-- Every board register is as before, and so every block of the board space. -/
def SameBoards (s t : State) : Prop := ∀ r : Reg, t.board r = s.board r

/-- Every board register but `rd` is as before. -/
def SameBoardsBut (rd : Reg) (s t : State) : Prop := ∀ r : Reg, r ≠ rd → t.board r = s.board r

/-! ### Cells at integer coordinates -/

/-- The cell at integer coordinates: false outside the grid (`40_board_core.md` R123). -/
def cellAt (c : Config) (b : Board) (x y : Int) : Bool :=
  decide (0 ≤ x) && decide (0 ≤ y) && cellOf c b x.toNat y.toNat

/-- `b'` is `b` with every set cell moved by `(dx, dy)` and what leaves the grid dropped
(`41_shift_engine.md` R165). -/
def MovedBy (c : Config) (b b' : Board) (dx dy : Int) : Prop :=
  ∀ x y : Nat, inBounds c x y = true →
    cellOf c b' x y = cellAt c b ((x : Int) - dx) ((y : Int) - dy)

/-! ### Fields of a word, for the encoding clause of a command's rule -/

/-- `rd << 23` (`30_encoding.md` R81). -/
def rdBits (r : Reg) : CmdWord := BitVec.ofNat 32 r.val <<< 23

/-- `rs1 << 20` (`30_encoding.md` R81). -/
def rs1Bits (r : Reg) : CmdWord := BitVec.ofNat 32 r.val <<< 20

/-- `rs2 << 17` (`30_encoding.md` R81). -/
def rs2Bits (r : Reg) : CmdWord := BitVec.ofNat 32 r.val <<< 17

/-- `hi << 8 | lo` (`30_encoding.md` R81). -/
def hiLoBits (hi lo : BitVec 8) : CmdWord := (hi.setWidth 32 <<< 8) ||| lo.setWidth 32

/-- The word of an SHM command, `0x30000000 | rd << 23 | rs1 << 20 | f << 16 | kv << 8 | kh`
(`41_shift_engine.md` section 2). -/
def shmWord (rd rs1 : Reg) (f : BitVec 4) (kv kh : BitVec 8) : CmdWord :=
  0x30000000#32 ||| rdBits rd ||| rs1Bits rs1 ||| (f.setWidth 32 <<< 16) ||| hiLoBits kv kh

end Sys2Proof.Machine
end

