-- ==== Sys2Proof/Certificates/Slice0/Obligations.lean ====
section
/-! DEFINITION. The statements for the provers. Each docstring names the rule of `spec/` that the
statement formalises. `s.Wf` is the invariant that `StepKeepsWellFormed` and `ResetLeavesZero`
state; every command completes in every state that has it. `outbox`, `inbox` and `everErr` are the
model's own fields (assumption log 2, 4, 6): a response of the spec is read off the end of `outbox`. -/

open Sys2Proof Sys2Proof.Machine

/-! ### Encoding -/

/-- Decoding an encoded instruction gives it back, every operand at every value (`30_encoding.md`
R81, R82, R83, R86). -/
def Obligations.DecodeOfEncode : Prop :=
  ∀ i : Instr, decode (encode i) = .ok i

/-- A word that decodes is the word of the instruction it decodes to: no bit is ignored
(`30_encoding.md` R90). -/
def Obligations.DecodedWordIsItsEncoding : Prop :=
  ∀ (cmd : Command) (i : Instr), decode cmd = .ok i → (encode i).word = cmd.word

/-- No two rows of the opcode map match the same word, and the decoder accepts exactly the words that
select a row, the instruction being that row's (`30_encoding.md` R87, R88). -/
def Obligations.DecoderFollowsOpcodeMap : Prop :=
  (∀ w : CmdWord, ∀ row ∈ opcodeMap, ∀ row' ∈ opcodeMap,
    row.selects w = true → row'.selects w = true → row = row') ∧
  ∀ cmd : Command,
    (∀ i, decode cmd = .ok i →
      ∃ row ∈ opcodeMap, row.selects cmd.word = true ∧ row.mnemonic = i.mnemonic) ∧
    (∀ row ∈ opcodeMap, row.selects cmd.word = true →
      ∃ i, decode cmd = .ok i ∧ i.mnemonic = row.mnemonic)

/-- The spec's example words of every family decode to the commands they stand for
(`40_board_core.md` R130 to R141, `41_shift_engine.md` R168, R173, R176, R177,
`42_combinators.md` R201, `43_system.md` R221). -/
def Obligations.SpecWordsDecode : Prop :=
  decode ⟨0x05800000#32, 0⟩ = .ok (.clr 3) ∧
  decode ⟨0x0C800403#32, 0⟩ = .ok (.set 1 3 4) ∧
  decode ⟨0x1C140000#32, 0⟩ = .ok (.eq 1 2) ∧
  decode ⟨0x44800003#32, 0xFF⟩ = .ok (.wrblk 1 3 0xFF) ∧
  decode ⟨0x21020000#32, 0⟩ = .ok (.and 2 0 1) ∧
  decode ⟨0x30810100#32, 0⟩ = .ok (.shmU 1 0 1) ∧
  decode ⟨0x30860201#32, 0⟩ = .ok (.shmUR 1 0 2 1) ∧
  decode ⟨0x30890000#32, 0⟩ = .ok (.shmRsv9 1 0 0 0) ∧
  decode ⟨0x34800008#32, 0⟩ = .ok (.rshl 1 0 8) ∧
  decode ⟨0x48000002#32, 0⟩ = .ok (.rdcsr 2)

/-! ### The step -/

/-- A step runs the decoded instruction: when the oldest pending command decodes to `i`, the step is
`exec i` on the state with that command taken from the stream (`20_memory.md` R63,
`30_encoding.md` R88). -/
def Obligations.StepRunsDecodedCommand : Prop :=
  ∀ (s : State) (cmd : Command) (rest : List Command) (i : Instr),
    s.inbox = cmd :: rest → decode cmd = .ok i → step s = exec i { s with inbox := rest }

/-- A word that matches no row of the opcode map raises ILLEGAL_OP: `ERR.ILLOP` is set, no board
register and no other `ERR` bit changes, whatever write data was supplied (`60_exceptions.md` R302);
a word with a reserved opcode, 0x0B, 0x0F or 0x14 to 0x3F, is such a word whatever its other bits
(`30_encoding.md` R89). -/
def Obligations.IllegalWordRaisesIllegalOp : Prop :=
  (∀ (s : State) (cmd : Command) (rest : List Command), s.inbox = cmd :: rest →
    (∀ row ∈ opcodeMap, row.selects cmd.word = false) →
    ∃ t, step s = .next t ∧ t.boards = s.boards ∧ t.err = s.err ||| 1#4 ∧
      t.everErr = s.everErr ||| 1#4 ∧ t.outbox = s.outbox ++ [⟨.err .illegalOp, 0⟩] ∧
      t.inbox = rest ∧ t.cfg = s.cfg) ∧
  (∀ w : CmdWord,
    ((w.extractLsb' 26 6).toNat = 0x0B ∨ (w.extractLsb' 26 6).toNat = 0x0F ∨
      0x14 ≤ (w.extractLsb' 26 6).toNat) →
    ∀ row ∈ opcodeMap, row.selects w = false)

/-- Every step with a command pending completes, takes exactly that command and gives exactly one
response, whose data fits `RW` bits and is 0 unless the status is OK (`30_encoding.md` R93,
`70_reset_and_hazards.md` R352). -/
def Obligations.EveryCommandIsAnsweredOnce : Prop :=
  ∀ (s : State) (cmd : Command) (rest : List Command), s.Wf → s.inbox = cmd :: rest →
    ∃ t resp, step s = .next t ∧ t.inbox = rest ∧ t.outbox = s.outbox ++ [resp] ∧
      resp.data < 2 ^ s.cfg.respWidth ∧ (resp.status ≠ .ok → resp.data = 0)

/-- What a step does to `ERR`: it sets the bit of the status it answers and no other, and only the
CLRERR word clears any (`10_state.md` R28, `60_exceptions.md` R300, R311, `43_system.md` R222). -/
def Obligations.StatusDecidesErr : Prop :=
  ∀ (s : State) (cmd : Command) (rest : List Command), s.inbox = cmd :: rest →
    ∃ t resp, step s = .next t ∧ t.outbox = s.outbox ++ [resp] ∧
      t.everErr = s.everErr ||| resp.status.errBits ∧
      (cmd.word ≠ 0x4C000000#32 → t.err = s.err ||| resp.status.errBits) ∧
      (cmd.word = 0x4C000000#32 → t.err = 0 ∧ resp = ⟨.ok, 0⟩)

/-- ILLEGAL_MOVE is the only error that changes a board register (`60_exceptions.md` R303; R302,
R304, R305). -/
def Obligations.OnlyIllegalMoveErrorsWrite : Prop :=
  ∀ (s t : State) (e : ErrKind) (data : Nat), step s = .next t →
    t.outbox = s.outbox ++ [⟨.err e, data⟩] → e ≠ .illegalMove → SameBoards s t

/-- The invariant of the machine, the last-block invariant among it: every step keeps it
(`10_state.md` R20, R22). -/
def Obligations.StepKeepsWellFormed : Prop :=
  ∀ s t : State, s.Wf → step s = .next t → t.Wf

/-- After reset, for every shape a unit can have, every block of every board register is 0, no cell is
set, the invariant holds, `ERR` is 0 and CFG0 and CFG1 hold their constants; the machine's own reset
state is one of these (`10_state.md` R40, R41). -/
def Obligations.ResetLeavesZero : Prop :=
  (∀ c : Config, c.legal →
    (∀ (r : Reg) (i : Nat), i < c.blocks → (State.resetOf c).blkRead r i = 0) ∧
    (∀ (r : Reg) (x y : Nat), (State.resetOf c).cell r x y = false) ∧
    (State.resetOf c).err = 0 ∧ (State.resetOf c).Wf ∧
    (State.resetOf c).csr 0 = some (cfg0 c) ∧ (State.resetOf c).csr 1 = some (cfg1 c) ∧
    (State.resetOf c).csr 2 = some 0) ∧
  ∃ c : Config, c.legal ∧ State.reset = State.resetOf c

/-- No step changes the shape, so CFG0 and CFG1 read the same ever after (`10_state.md` R26, R27,
R41); and the model's own record, which holds every error that `ERR` shows, loses no bit
(`60_exceptions.md` R311; the record is the model's, assumption log 6). -/
def Obligations.ShapeAndErrorRecordPersist : Prop :=
  ∀ s t : State, step s = .next t →
    t.cfg = s.cfg ∧ t.csr 0 = s.csr 0 ∧ t.csr 1 = s.csr 1 ∧
    s.everErr &&& t.everErr = s.everErr ∧ (s.ErrRecorded → t.ErrRecorded)

/-! ### Coordinates and views -/

/-- `to_linear` is a bijection from in-bounds pairs to `[0, CELLS)` with the inverse the rule gives,
and a mapped bit lies in a block of the board and never in the padding (`40_board_core.md` R121,
R122). -/
def Obligations.CoordinatesMapBijectively : Prop :=
  ∀ c : Config, c.legal →
    (∀ x y, inBounds c x y = true →
      toLinear c x y < c.cells ∧ toLinear c x y % c.n = x ∧ toLinear c x y / c.n = y) ∧
    (∀ p, p < c.cells → inBounds c (p % c.n) (p / c.n) = true ∧
      toLinear c (p % c.n) (p / c.n) = p) ∧
    (∀ x y, inBounds c x y = true →
      (mapCoords c x y).1 < c.blocks ∧
      ((mapCoords c x y).1 = c.blocks - 1 → (mapCoords c x y).2 &&& c.compl c.lbm = 0))

/-- The cell view and the block view are one storage: in bounds, the cell is the board's bit at
`x + y*N`, which is bit `(x + y*N) mod W` of block `(x + y*N) div W` (`20_memory.md` R55,
`40_board_core.md` R123). -/
def Obligations.CellAndBlockViewsAgree : Prop :=
  ∀ (s : State) (r : Reg) (x y : Nat), s.Wf → inBounds s.cfg x y = true →
    s.cell r x y = bitOf s.cfg (s.board r) (x + y * s.cfg.n) ∧
    s.cell r x y =
      (s.blkRead r ((x + y * s.cfg.n) / s.cfg.width)).testBit ((x + y * s.cfg.n) % s.cfg.width)

/-- The registers share no storage: a command changes no board register but the one that its `rd`
operand names, and NOP, TEST, CNT, EQ, RDBLK, RDCSR and CLRERR change none (`10_state.md` R23,
R24). -/
def Obligations.OneRegisterAtMostIsWritten : Prop :=
  ∀ (i : Instr) (s t : State), exec i s = .next t →
    (∀ rd, destination i = some rd → SameBoardsBut rd s t) ∧
    (destination i = none → SameBoards s t)

/-- Reading has no side effect: TEST, CNT, EQ, RDBLK and RDCSR in range change no state, and asked
again they answer the same; and CLR, SET, UNSET, WRBLK and MOV are idempotent: issued twice in a row
they leave the board registers of one issue (`20_memory.md` R61). -/
def Obligations.ReadsAndRepeatedWritesChangeNothing : Prop :=
  (∀ (i : Instr) (s t : State),
    ((∃ rs1 x y, i = .test rs1 x y) ∨ (∃ rs1, i = .cnt rs1) ∨ (∃ rs1 rs2, i = .eq rs1 rs2) ∨
      (∃ rs1 index, i = .rdblk rs1 index ∧ index.toNat < s.cfg.blocks) ∨
      (∃ csr : BitVec 8, i = .rdcsr csr ∧ csr.toNat < 3)) →
    exec i s = .next t →
    SameBoards s t ∧ t.err = s.err ∧ t.everErr = s.everErr ∧ t.cfg = s.cfg ∧
      ∃ resp u, t.outbox = s.outbox ++ [resp] ∧ exec i t = .next u ∧
        u.outbox = t.outbox ++ [resp]) ∧
  (∀ (i : Instr) (s t u : State),
    ((∃ rd, i = .clr rd) ∨ (∃ rd x y, i = .set rd x y) ∨ (∃ rd x y, i = .unset rd x y) ∨
      (∃ rd index wdata, i = .wrblk rd index wdata) ∨ (∃ rd rs1, i = .mov rd rs1)) →
    exec i s = .next t → exec i t = .next u → SameBoards t u)

/-! ### Board core -/

/-- CLR clears every block of `rd`, so no cell of it is set and its count is 0; nothing else changes
(`40_board_core.md` R130). -/
def Obligations.ClrClearsTheBoard : Prop :=
  ∀ (rd : Reg) (s : State), s.Wf →
    (encode (.clr rd)).word = 0x04000000#32 ||| rdBits rd ∧
    ∃ t, exec (.clr rd) s = .next t ∧ Completed s t 0 ∧ SameBoardsBut rd s t ∧ t.Wf ∧
      (∀ i, i < s.cfg.blocks → t.blkRead rd i = 0) ∧ (∀ x y, t.cell rd x y = false) ∧
      countOnes t.cfg (t.board rd) = 0

/-- MOV copies `rs1` into `rd`; the two are independent after it, and `rd = rs1` changes nothing
(`40_board_core.md` R131). -/
def Obligations.MovCopiesTheBoard : Prop :=
  ∀ (rd rs1 : Reg) (s : State), s.Wf →
    (encode (.mov rd rs1)).word = 0x08000000#32 ||| rdBits rd ||| rs1Bits rs1 ∧
    ∃ t, exec (.mov rd rs1) s = .next t ∧ Completed s t 0 ∧ SameBoardsBut rd s t ∧ t.Wf ∧
      t.board rd = s.board rs1 ∧ (rd = rs1 → SameBoards s t) ∧
      (rd ≠ rs1 → ∀ b : Board, (t.setBoard rd b).board rs1 = s.board rs1 ∧
        (t.setBoard rs1 b).board rd = s.board rs1)

/-- SET sets the cell and no other bit of `rd`; out of bounds nothing changes and the status is OK
(`40_board_core.md` R132). -/
def Obligations.SetSetsOneCell : Prop :=
  ∀ (rd : Reg) (x y : BitVec 8) (s : State), s.Wf →
    (encode (.set rd x y)).word = 0x0C000000#32 ||| rdBits rd ||| hiLoBits y x ∧
    ∃ t, exec (.set rd x y) s = .next t ∧ Completed s t 0 ∧ SameBoardsBut rd s t ∧ t.Wf ∧
      (∀ x' y' : Nat, inBounds s.cfg x' y' = true →
        t.cell rd x' y' = (s.cell rd x' y' || decide (x' = x.toNat ∧ y' = y.toNat))) ∧
      (inBounds s.cfg x.toNat y.toNat = true → ∀ i, i ≠ toLinear s.cfg x.toNat y.toNat / s.cfg.width →
        t.blkRead rd i = s.blkRead rd i) ∧
      (s.cell rd x.toNat y.toNat = true → SameBoards s t) ∧
      (inBounds s.cfg x.toNat y.toNat = false → SameBoards s t)

/-- UNSET clears the cell and no other bit of `rd`; out of bounds nothing changes and the status is OK
(`40_board_core.md` R133). -/
def Obligations.UnsetClearsOneCell : Prop :=
  ∀ (rd : Reg) (x y : BitVec 8) (s : State), s.Wf →
    (encode (.unset rd x y)).word = 0x10000000#32 ||| rdBits rd ||| hiLoBits y x ∧
    ∃ t, exec (.unset rd x y) s = .next t ∧ Completed s t 0 ∧ SameBoardsBut rd s t ∧ t.Wf ∧
      (∀ x' y' : Nat, inBounds s.cfg x' y' = true →
        t.cell rd x' y' = (s.cell rd x' y' && !decide (x' = x.toNat ∧ y' = y.toNat))) ∧
      (inBounds s.cfg x.toNat y.toNat = true → ∀ i, i ≠ toLinear s.cfg x.toNat y.toNat / s.cfg.width →
        t.blkRead rd i = s.blkRead rd i) ∧
      (s.cell rd x.toNat y.toNat = false → SameBoards s t) ∧
      (inBounds s.cfg x.toNat y.toNat = false → SameBoards s t)

/-- TEST answers 1 for a set cell and 0 for a clear or out-of-bounds one; no state changes
(`40_board_core.md` R134). -/
def Obligations.TestReadsOneCell : Prop :=
  ∀ (rs1 : Reg) (x y : BitVec 8) (s : State), s.Wf →
    (encode (.test rs1 x y)).word = 0x14000000#32 ||| rs1Bits rs1 ||| hiLoBits y x ∧
    ∃ t, exec (.test rs1 x y) s = .next t ∧ SameBoards s t ∧
      (inBounds s.cfg x.toNat y.toNat = false → Completed s t 0) ∧
      (inBounds s.cfg x.toNat y.toNat = true → Completed s t
        (if bitOf s.cfg (s.board rs1) (x.toNat + y.toNat * s.cfg.n) then 1 else 0))

/-- CNT answers the number of coordinates that are set, at most `CELLS` and so at most 65025; no
state changes (`40_board_core.md` R135). -/
def Obligations.CntCountsSetCells : Prop :=
  ∀ (rs1 : Reg) (s : State), s.Wf →
    (encode (.cnt rs1)).word = 0x18000000#32 ||| rs1Bits rs1 ∧
    ∃ t, exec (.cnt rs1) s = .next t ∧ SameBoards s t ∧
      Completed s t ((s.board rs1).map (popcount s.cfg.width)).sum ∧
      ((s.board rs1).map (popcount s.cfg.width)).sum =
        (gridCells s.cfg).countP (fun xy => s.cell rs1 xy.1 xy.2) ∧
      ((s.board rs1).map (popcount s.cfg.width)).sum ≤ s.cfg.cells ∧ s.cfg.cells ≤ 65025

/-- EQ answers 1 exactly when all blocks agree, which is when all cells agree; no state changes
(`40_board_core.md` R136). -/
def Obligations.EqComparesBoards : Prop :=
  ∀ (rs1 rs2 : Reg) (s : State), s.Wf →
    (encode (.eq rs1 rs2)).word = 0x1C000000#32 ||| rs1Bits rs1 ||| rs2Bits rs2 ∧
    ∃ t ans, exec (.eq rs1 rs2) s = .next t ∧ SameBoards s t ∧ Completed s t ans ∧
      (ans = 1 ∨ ans = 0) ∧
      (ans = 1 ↔ ∀ i, i < s.cfg.blocks → s.blkRead rs1 i = s.blkRead rs2 i) ∧
      (ans = 1 ↔ ∀ x y, s.cell rs1 x y = s.cell rs2 x y) ∧ (rs1 = rs2 → ans = 1)

/-- RDBLK answers the block, a `W`-bit value, for an index below `B`; for any other it raises
BAD_INDEX. No board register changes (`40_board_core.md` R140). -/
def Obligations.RdblkReadsOneBlock : Prop :=
  ∀ (rs1 : Reg) (index : BitVec 16) (s : State), s.Wf →
    (encode (.rdblk rs1 index)).word = 0x40000000#32 ||| rs1Bits rs1 ||| index.setWidth 32 ∧
    (index.toNat < s.cfg.blocks → ∃ t, exec (.rdblk rs1 index) s = .next t ∧
      Completed s t (s.blkRead rs1 index.toNat) ∧ s.blkRead rs1 index.toNat < 2 ^ s.cfg.width ∧
      SameBoards s t) ∧
    (s.cfg.blocks ≤ index.toNat → ∃ t, exec (.rdblk rs1 index) s = .next t ∧
      Raised s t .badIndex ∧ SameBoards s t)

/-- WRBLK stores the write data in the block, masked by `LBM` in the final block, and no other block
changes; for an index `≥ B` it raises BAD_INDEX and nothing is written (`40_board_core.md` R141,
`20_memory.md` R57). -/
def Obligations.WrblkWritesOneBlock : Prop :=
  ∀ (rd : Reg) (index : BitVec 16) (wdata : Block) (s : State), s.Wf →
    Instr.wf s.cfg (.wrblk rd index wdata) = true →
    (encode (.wrblk rd index wdata)).word = 0x44000000#32 ||| rdBits rd ||| index.setWidth 32 ∧
    (index.toNat < s.cfg.blocks → ∃ t, exec (.wrblk rd index wdata) s = .next t ∧
      Completed s t 0 ∧ SameBoardsBut rd s t ∧ t.Wf ∧
      (index.toNat < s.cfg.blocks - 1 → t.blkRead rd index.toNat = wdata) ∧
      (index.toNat = s.cfg.blocks - 1 → t.blkRead rd index.toNat = wdata &&& s.cfg.lbm) ∧
      (∀ i, i ≠ index.toNat → t.blkRead rd i = s.blkRead rd i)) ∧
    (s.cfg.blocks ≤ index.toNat → ∃ t, exec (.wrblk rd index wdata) s = .next t ∧
      Raised s t .badIndex ∧ SameBoards s t)

/-- After SET of an in-range cell, TEST answers 1 and the count grows by 1, or by 0 if the cell was
set; after UNSET, TEST answers 0 and the count drops by 1, or by 0 if it was clear
(`40_board_core.md` R138 (a), (b)). -/
def Obligations.SetAndUnsetChangeTheCount : Prop :=
  ∀ (rd : Reg) (x y : BitVec 8) (s t u : State), s.Wf → inBounds s.cfg x.toNat y.toNat = true →
    exec (.set rd x y) s = .next t → exec (.unset rd x y) s = .next u →
    t.cell rd x.toNat y.toNat = true ∧ u.cell rd x.toNat y.toNat = false ∧
    countOnes t.cfg (t.board rd) =
      countOnes s.cfg (s.board rd) + (if s.cell rd x.toNat y.toNat then 0 else 1) ∧
    countOnes u.cfg (u.board rd) + (if s.cell rd x.toNat y.toNat then 1 else 0) =
      countOnes s.cfg (s.board rd)

/-! ### Combinators -/

/-- AND, OR and XOR act block by block and so cell by cell: a result cell is set exactly when it is
set in both, in at least one, in exactly one of the sources; nothing else changes
(`42_combinators.md` R201, R202, R203). -/
def Obligations.CombinatorsActCellwise : Prop :=
  ∀ (rd rs1 rs2 : Reg) (s : State), s.Wf →
    ((encode (.and rd rs1 rs2)).word =
        0x20000000#32 ||| rdBits rd ||| rs1Bits rs1 ||| rs2Bits rs2 ∧
      ∃ t, exec (.and rd rs1 rs2) s = .next t ∧ Completed s t 0 ∧ SameBoardsBut rd s t ∧ t.Wf ∧
        (∀ i, i < s.cfg.blocks → t.blkRead rd i = s.blkRead rs1 i &&& s.blkRead rs2 i) ∧
        (∀ x y, t.cell rd x y = (s.cell rs1 x y && s.cell rs2 x y)) ∧
        (rs1 = rs2 → t.board rd = s.board rs1)) ∧
    ((encode (.or rd rs1 rs2)).word =
        0x24000000#32 ||| rdBits rd ||| rs1Bits rs1 ||| rs2Bits rs2 ∧
      ∃ t, exec (.or rd rs1 rs2) s = .next t ∧ Completed s t 0 ∧ SameBoardsBut rd s t ∧ t.Wf ∧
        (∀ i, i < s.cfg.blocks → t.blkRead rd i = s.blkRead rs1 i ||| s.blkRead rs2 i) ∧
        (∀ x y, t.cell rd x y = (s.cell rs1 x y || s.cell rs2 x y)) ∧
        (rs1 = rs2 → t.board rd = s.board rs1)) ∧
    ((encode (.xor rd rs1 rs2)).word =
        0x28000000#32 ||| rdBits rd ||| rs1Bits rs1 ||| rs2Bits rs2 ∧
      ∃ t, exec (.xor rd rs1 rs2) s = .next t ∧ Completed s t 0 ∧ SameBoardsBut rd s t ∧ t.Wf ∧
        (∀ i, i < s.cfg.blocks → t.blkRead rd i = s.blkRead rs1 i ^^^ s.blkRead rs2 i) ∧
        (∀ x y, t.cell rd x y = (s.cell rs1 x y ^^ s.cell rs2 x y)) ∧
        (rs1 = rs2 → t.board rd = zeroBoard s.cfg))

/-- For counts, `CNT(a OR b) + CNT(a AND b) = CNT(a) + CNT(b)` and
`CNT(a XOR b) = CNT(a OR b) - CNT(a AND b)` (`42_combinators.md` R206). -/
def Obligations.CombinatorCountsAdd : Prop :=
  ∀ (c : Config) (a b : Board), c.legal → BoardWf c a → BoardWf c b →
    countOnes c (combineBoards c (· ||| ·) a b) + countOnes c (combineBoards c (· &&& ·) a b) =
      countOnes c a + countOnes c b ∧
    countOnes c (combineBoards c (· ^^^ ·) a b) + countOnes c (combineBoards c (· &&& ·) a b) =
      countOnes c (combineBoards c (· ||| ·) a b)

/-! ### Shifts -/

/-- The cell-level meaning of the move shift: a bit of the result is set exactly when the cell
`(x' - dx, y' - dy)` is in bounds and set in the source; no cell wraps (`41_shift_engine.md`
R165). -/
def Obligations.ShiftMoveMovesCells : Prop :=
  ∀ (c : Config) (v : Nat) (dx dy : Int) (x' y' : Nat), v ≤ c.full → inBounds c x' y' = true →
    ((shiftMove c v dx dy).testBit (x' + y' * c.n) = true ↔
      0 ≤ (x' : Int) - dx ∧ (x' : Int) - dx < c.n ∧ 0 ≤ (y' : Int) - dy ∧ (y' : Int) - dy < c.n ∧
        v.testBit (((x' : Int) - dx) + ((y' : Int) - dy) * c.n).toNat = true)

/-- A displacement with a component of `N` or more gives the all-zero board, for every board; and no
magnitude is illegal, none raises an error (`41_shift_engine.md` R166). -/
def Obligations.LargeMagnitudesEmptyTheBoard : Prop :=
  (∀ (c : Config) (v : Nat) (dx dy : Int), v ≤ c.full →
    ((c.n : Int) ≤ |dx| ∨ (c.n : Int) ≤ |dy|) → shiftMove c v dx dy = 0) ∧
  ∀ (m : Move) (rd rs1 : Reg) (s : State),
    decode (encode (m.shm rd rs1)) = .ok (m.shm rd rs1) ∧
    ∃ t, exec (m.shm rd rs1) s = .next t ∧ Completed s t 0

/-- SHM with Identity copies the board unchanged; a non-zero magnitude makes the word illegal
(`41_shift_engine.md` R167). -/
def Obligations.ShmIdentityCopies : Prop :=
  ∀ (rd rs1 : Reg) (s : State), s.Wf →
    (encode (.shmID rd rs1)).word = shmWord rd rs1 0 0 0 ∧
    shiftMove s.cfg (boardVal s.cfg (s.board rs1)) 0 0 = boardVal s.cfg (s.board rs1) ∧
    ∃ t, exec (.shmID rd rs1) s = .next t ∧ Completed s t 0 ∧ SameBoardsBut rd s t ∧ t.Wf ∧
      t.board rd = s.board rs1 ∧
      ∀ (kv kh : BitVec 8) (wdata : Block), kv ≠ 0 ∨ kh ≠ 0 →
        ∃ e, decode ⟨shmWord rd rs1 0 kv kh, wdata⟩ = .error e

/-- SHM Up moves every cell up `kv` rows, `(v << kv*N) & FULL`; `kv = 0` copies and `kv ≥ N` empties
the board; `kh` must be 0 (`41_shift_engine.md` R168). -/
def Obligations.ShmUpMovesRows : Prop :=
  ∀ (rd rs1 : Reg) (kv : BitVec 8) (s : State), s.Wf →
    (encode (.shmU rd rs1 kv)).word = shmWord rd rs1 1 kv 0 ∧
    ∃ t, exec (.shmU rd rs1 kv) s = .next t ∧ Completed s t 0 ∧ SameBoardsBut rd s t ∧ t.Wf ∧
      MovedBy s.cfg (s.board rs1) (t.board rd) 0 kv.toNat ∧
      boardVal s.cfg (t.board rd) =
        boardVal s.cfg (s.board rs1) * 2 ^ (kv.toNat * s.cfg.n) % 2 ^ s.cfg.cells ∧
      (kv.toNat = 0 → t.board rd = s.board rs1) ∧
      (s.cfg.n ≤ kv.toNat → t.board rd = zeroBoard s.cfg) ∧
      ∀ (kh : BitVec 8) (wdata : Block), kh ≠ 0 →
        ∃ e, decode ⟨shmWord rd rs1 1 kv kh, wdata⟩ = .error e

/-- SHM Down moves every cell down `kv` rows, `v >> kv*N`; `kv = 0` copies and `kv ≥ N` empties the
board; `kh` must be 0 (`41_shift_engine.md` R169). -/
def Obligations.ShmDownMovesRows : Prop :=
  ∀ (rd rs1 : Reg) (kv : BitVec 8) (s : State), s.Wf →
    (encode (.shmD rd rs1 kv)).word = shmWord rd rs1 2 kv 0 ∧
    ∃ t, exec (.shmD rd rs1 kv) s = .next t ∧ Completed s t 0 ∧ SameBoardsBut rd s t ∧ t.Wf ∧
      MovedBy s.cfg (s.board rs1) (t.board rd) 0 (-kv.toNat) ∧
      boardVal s.cfg (t.board rd) =
        boardVal s.cfg (s.board rs1) / 2 ^ (kv.toNat * s.cfg.n) ∧
      (kv.toNat = 0 → t.board rd = s.board rs1) ∧
      (s.cfg.n ≤ kv.toNat → t.board rd = zeroBoard s.cfg) ∧
      ∀ (kh : BitVec 8) (wdata : Block), kh ≠ 0 →
        ∃ e, decode ⟨shmWord rd rs1 2 kv kh, wdata⟩ = .error e

/-- SHM Left moves every cell left `kh` columns and drops what leaves the row, with no wrap;
`kh = 0` copies and `kh ≥ N` empties the board; `kv` must be 0
(`41_shift_engine.md` R170). -/
def Obligations.ShmLeftMovesColumns : Prop :=
  ∀ (rd rs1 : Reg) (kh : BitVec 8) (s : State), s.Wf →
    (encode (.shmL rd rs1 kh)).word = shmWord rd rs1 3 0 kh ∧
    ∃ t, exec (.shmL rd rs1 kh) s = .next t ∧ Completed s t 0 ∧ SameBoardsBut rd s t ∧ t.Wf ∧
      MovedBy s.cfg (s.board rs1) (t.board rd) (-kh.toNat) 0 ∧
      boardVal s.cfg (t.board rd) =
        (boardVal s.cfg (s.board rs1) >>> kh.toNat) &&& keep s.cfg (-kh.toNat) ∧
      (kh.toNat = 0 → t.board rd = s.board rs1) ∧
      (s.cfg.n ≤ kh.toNat → t.board rd = zeroBoard s.cfg) ∧
      ∀ (kv : BitVec 8) (wdata : Block), kv ≠ 0 →
        ∃ e, decode ⟨shmWord rd rs1 3 kv kh, wdata⟩ = .error e

/-- SHM Right moves every cell right `kh` columns and drops what leaves the row, with no wrap;
`kh = 0` copies, `kh ≥ N` empties the board; `kv` must be 0
(`41_shift_engine.md` R171). -/
def Obligations.ShmRightMovesColumns : Prop :=
  ∀ (rd rs1 : Reg) (kh : BitVec 8) (s : State), s.Wf →
    (encode (.shmR rd rs1 kh)).word = shmWord rd rs1 4 0 kh ∧
    ∃ t, exec (.shmR rd rs1 kh) s = .next t ∧ Completed s t 0 ∧ SameBoardsBut rd s t ∧ t.Wf ∧
      MovedBy s.cfg (s.board rs1) (t.board rd) kh.toNat 0 ∧
      boardVal s.cfg (t.board rd) =
        ((boardVal s.cfg (s.board rs1) <<< kh.toNat) &&& s.cfg.full) &&& keep s.cfg kh.toNat ∧
      (kh.toNat = 0 → t.board rd = s.board rs1) ∧
      (s.cfg.n ≤ kh.toNat → t.board rd = zeroBoard s.cfg) ∧
      ∀ (kv : BitVec 8) (wdata : Block), kv ≠ 0 →
        ∃ e, decode ⟨shmWord rd rs1 4 kv kh, wdata⟩ = .error e

/-- SHM UpLeft moves every cell up `kv` and left `kh`; `kv = 0` is `L(kh)`, `kh = 0` is `U(kv)`, and
a magnitude of `N` or more empties the board (`41_shift_engine.md` R172). -/
def Obligations.ShmUpLeftMovesDiagonally : Prop :=
  ∀ (rd rs1 : Reg) (kv kh : BitVec 8) (s : State), s.Wf →
    (encode (.shmUL rd rs1 kv kh)).word = shmWord rd rs1 5 kv kh ∧
    ∃ t, exec (.shmUL rd rs1 kv kh) s = .next t ∧ Completed s t 0 ∧ SameBoardsBut rd s t ∧ t.Wf ∧
      MovedBy s.cfg (s.board rs1) (t.board rd) (-kh.toNat) kv.toNat ∧
      boardVal s.cfg (t.board rd) =
        lshift s.cfg (boardVal s.cfg (s.board rs1)) ((kv.toNat : Int) * s.cfg.n - kh.toNat) &&&
          keep s.cfg (-kh.toNat) ∧
      (kv = 0 → exec (.shmL rd rs1 kh) s = .next t) ∧
      (kh = 0 → exec (.shmU rd rs1 kv) s = .next t) ∧
      (s.cfg.n ≤ kv.toNat ∨ s.cfg.n ≤ kh.toNat → t.board rd = zeroBoard s.cfg)

/-- SHM UpRight moves every cell up `kv` and right `kh`; `kv = 0` is `R(kh)`, `kh = 0` is `U(kv)`, and
a magnitude of `N` or more empties the board (`41_shift_engine.md` R173). -/
def Obligations.ShmUpRightMovesDiagonally : Prop :=
  ∀ (rd rs1 : Reg) (kv kh : BitVec 8) (s : State), s.Wf →
    (encode (.shmUR rd rs1 kv kh)).word = shmWord rd rs1 6 kv kh ∧
    ∃ t, exec (.shmUR rd rs1 kv kh) s = .next t ∧ Completed s t 0 ∧ SameBoardsBut rd s t ∧ t.Wf ∧
      MovedBy s.cfg (s.board rs1) (t.board rd) kh.toNat kv.toNat ∧
      boardVal s.cfg (t.board rd) =
        lshift s.cfg (boardVal s.cfg (s.board rs1)) ((kv.toNat : Int) * s.cfg.n + kh.toNat) &&&
          keep s.cfg kh.toNat ∧
      (kv = 0 → exec (.shmR rd rs1 kh) s = .next t) ∧
      (kh = 0 → exec (.shmU rd rs1 kv) s = .next t) ∧
      (s.cfg.n ≤ kv.toNat ∨ s.cfg.n ≤ kh.toNat → t.board rd = zeroBoard s.cfg)

/-- SHM DownLeft moves every cell down `kv` and left `kh`; `kv = 0` is `L(kh)`, `kh = 0` is `D(kv)`,
and a magnitude of `N` or more empties the board (`41_shift_engine.md` R174). -/
def Obligations.ShmDownLeftMovesDiagonally : Prop :=
  ∀ (rd rs1 : Reg) (kv kh : BitVec 8) (s : State), s.Wf →
    (encode (.shmDL rd rs1 kv kh)).word = shmWord rd rs1 7 kv kh ∧
    ∃ t, exec (.shmDL rd rs1 kv kh) s = .next t ∧ Completed s t 0 ∧ SameBoardsBut rd s t ∧ t.Wf ∧
      MovedBy s.cfg (s.board rs1) (t.board rd) (-kh.toNat) (-kv.toNat) ∧
      boardVal s.cfg (t.board rd) =
        lshift s.cfg (boardVal s.cfg (s.board rs1)) (-((kv.toNat : Int) * s.cfg.n + kh.toNat)) &&&
          keep s.cfg (-kh.toNat) ∧
      (kv = 0 → exec (.shmL rd rs1 kh) s = .next t) ∧
      (kh = 0 → exec (.shmD rd rs1 kv) s = .next t) ∧
      (s.cfg.n ≤ kv.toNat ∨ s.cfg.n ≤ kh.toNat → t.board rd = zeroBoard s.cfg)

/-- SHM DownRight moves every cell down `kv` and right `kh`; `kv = 0` is `R(kh)`, `kh = 0` is `D(kv)`,
and a magnitude of `N` or more empties the board (`41_shift_engine.md` R175). -/
def Obligations.ShmDownRightMovesDiagonally : Prop :=
  ∀ (rd rs1 : Reg) (kv kh : BitVec 8) (s : State), s.Wf →
    (encode (.shmDR rd rs1 kv kh)).word = shmWord rd rs1 8 kv kh ∧
    ∃ t, exec (.shmDR rd rs1 kv kh) s = .next t ∧ Completed s t 0 ∧ SameBoardsBut rd s t ∧ t.Wf ∧
      MovedBy s.cfg (s.board rs1) (t.board rd) kh.toNat (-kv.toNat) ∧
      boardVal s.cfg (t.board rd) =
        lshift s.cfg (boardVal s.cfg (s.board rs1)) (-((kv.toNat : Int) * s.cfg.n) + kh.toNat) &&&
          keep s.cfg kh.toNat ∧
      (kv = 0 → exec (.shmR rd rs1 kh) s = .next t) ∧
      (kh = 0 → exec (.shmD rd rs1 kv) s = .next t) ∧
      (s.cfg.n ≤ kv.toNat ∨ s.cfg.n ≤ kh.toNat → t.board rd = zeroBoard s.cfg)

/-- Every reserved move kind, 9 to 15, decodes to a reserved-kind command, and each of those
completes with its own effect: `rd` is cleared, `ERR.ILLMOVE` is set and ILLEGAL_MOVE is answered,
whatever `rs1`, `hi` and `lo` are (`41_shift_engine.md` R176, `60_exceptions.md` R303). -/
def Obligations.ReservedKindsClearAndReport : Prop :=
  (∀ (rd rs1 : Reg) (f : BitVec 4) (hi lo : BitVec 8) (wdata : Block), 9 ≤ f.toNat →
    ∃ i, decode ⟨shmWord rd rs1 f hi lo, wdata⟩ = .ok i ∧
      (i = .shmRsv9 rd rs1 hi lo ∨ (∃ sel, i = .shmRsv10to11 rd rs1 sel hi lo) ∨
        (∃ sel, i = .shmRsv12to15 rd rs1 sel hi lo))) ∧
  (∀ (rd rs1 : Reg) (sel1 : BitVec 1) (sel2 : BitVec 2) (hi lo : BitVec 8) (s : State), s.Wf →
    ∃ t, exec (.shmRsv9 rd rs1 hi lo) s = .next t ∧
      exec (.shmRsv10to11 rd rs1 sel1 hi lo) s = .next t ∧
      exec (.shmRsv12to15 rd rs1 sel2 hi lo) s = .next t ∧
      Raised s t .illegalMove ∧ SameBoardsBut rd s t ∧ t.Wf ∧
      (∀ k, k < s.cfg.blocks → t.blkRead rd k = 0))

/-- RSHL shifts every position up by `count` and drops what leaves `[0, CELLS)`, with no edge mask;
`count = 0` copies, `count ≥ CELLS` empties the board and `count = W` moves every block up by one
index (`41_shift_engine.md` R177). -/
def Obligations.RshlShiftsPositionsUp : Prop :=
  ∀ (rd rs1 : Reg) (count : BitVec 16) (s : State), s.Wf →
    (encode (.rshl rd rs1 count)).word =
      0x34000000#32 ||| rdBits rd ||| rs1Bits rs1 ||| count.setWidth 32 ∧
    ∃ t, exec (.rshl rd rs1 count) s = .next t ∧ Completed s t 0 ∧ SameBoardsBut rd s t ∧ t.Wf ∧
      (∀ p, bitOf s.cfg (t.board rd) p = (decide (p < s.cfg.cells) && decide (count.toNat ≤ p) &&
        bitOf s.cfg (s.board rs1) (p - count.toNat))) ∧
      (count.toNat = 0 → t.board rd = s.board rs1) ∧
      (s.cfg.cells ≤ count.toNat → t.board rd = zeroBoard s.cfg) ∧
      boardVal s.cfg (t.board rd) =
        boardVal s.cfg (s.board rs1) * 2 ^ count.toNat % 2 ^ s.cfg.cells ∧
      (count.toNat = s.cfg.width → t.blkRead rd 0 = 0 ∧ ∀ i, i + 1 < s.cfg.blocks →
        t.blkRead rd (i + 1) = storedBlock s.cfg (i + 1) (s.blkRead rs1 i))

/-- RSHR shifts every position down by `count` and drops what falls below 0, with no edge mask;
`count = 0` copies and `count ≥ CELLS` empties the board (`41_shift_engine.md` R178). -/
def Obligations.RshrShiftsPositionsDown : Prop :=
  ∀ (rd rs1 : Reg) (count : BitVec 16) (s : State), s.Wf →
    (encode (.rshr rd rs1 count)).word =
      0x38000000#32 ||| rdBits rd ||| rs1Bits rs1 ||| count.setWidth 32 ∧
    ∃ t, exec (.rshr rd rs1 count) s = .next t ∧ Completed s t 0 ∧ SameBoardsBut rd s t ∧ t.Wf ∧
      (∀ p, bitOf s.cfg (t.board rd) p = bitOf s.cfg (s.board rs1) (p + count.toNat)) ∧
      boardVal s.cfg (t.board rd) = boardVal s.cfg (s.board rs1) / 2 ^ count.toNat ∧
      (count.toNat = 0 → t.board rd = s.board rs1) ∧
      (s.cfg.cells ≤ count.toNat → t.board rd = zeroBoard s.cfg)

/-- The chunked datapath, for every split of the total into chunks of 1 to `W`, leaves the board that
the shift function gives, with and without the edge mask; the reference split is such a split, of
`ceil(s / W)` chunks (`41_shift_engine.md` R181, R186). -/
def Obligations.DatapathComputesTheShift : Prop :=
  ∀ (c : Config) (b : Board), c.legal → BoardWf c b →
    (∀ (dx dy : Int) (chunks : List Nat), (∀ k ∈ chunks, 1 ≤ k ∧ k ≤ c.width) →
      chunks.sum = (linearShift c dx dy).natAbs →
      datapathMove c chunks b dx dy = moveBoard c b dx dy) ∧
    (∀ (delta : Int) (chunks : List Nat), (∀ k ∈ chunks, 1 ≤ k ∧ k ≤ c.width) →
      chunks.sum = delta.natAbs →
      datapathRaw c chunks b delta = rawShiftBoard c b delta) ∧
    (∀ s : Nat, (∀ k ∈ chunksOf c s, 1 ≤ k ∧ k ≤ c.width) ∧ (chunksOf c s).sum = s ∧
      (chunksOf c s).length = (s + c.width - 1) / c.width)

/-- The closed form per block gives the shift function's result, edge mask included; below the last
block the mask of a vertical move is `WMASK`, and the last block's mask has no bit above `LBM`
(`41_shift_engine.md` R180). -/
def Obligations.ClosedFormComputesTheShift : Prop :=
  ∀ c : Config, c.legal →
    (∀ (b : Board) (dx dy : Int), BoardWf c b → closedMove c b dx dy = moveBoard c b dx dy) ∧
    (∀ i, i < c.blocks - 1 → edgeMask c 0 i = c.wmask) ∧
    (∀ dx : Int, edgeMask c dx (c.blocks - 1) &&& c.compl c.lbm = 0)

/-- Moves that do not oppose each other on either axis add: same-direction moves add, and a diagonal
is its two components in either order (`41_shift_engine.md` R187 (a), (b)). -/
def Obligations.UnopposedMovesAdd : Prop :=
  ∀ (c : Config) (b : Board) (dx dy dx' dy' : Int), c.legal → BoardWf c b →
    0 ≤ dx * dx' → 0 ≤ dy * dy' →
    moveBoard c (moveBoard c b dx dy) dx' dy' = moveBoard c b (dx + dx') (dy + dy')

/-- The count never grows under a shift, by a Move or raw (`41_shift_engine.md` R187 (d)). -/
def Obligations.ShiftsNeverAddCells : Prop :=
  ∀ (c : Config) (b : Board), c.legal → BoardWf c b →
    (∀ dx dy : Int, countOnes c (moveBoard c b dx dy) ≤ countOnes c b) ∧
    (∀ delta : Int, countOnes c (rawShiftBoard c b delta) ≤ countOnes c b)

/-- Shifts, by a Move and raw, distribute over AND, OR and XOR (`41_shift_engine.md` R187 (e)). -/
def Obligations.ShiftsDistributeOverCombinators : Prop :=
  ∀ (c : Config) (a b : Board), c.legal → BoardWf c a → BoardWf c b →
    (∀ dx dy : Int,
      moveBoard c (combineBoards c (· &&& ·) a b) dx dy =
        combineBoards c (· &&& ·) (moveBoard c a dx dy) (moveBoard c b dx dy) ∧
      moveBoard c (combineBoards c (· ||| ·) a b) dx dy =
        combineBoards c (· ||| ·) (moveBoard c a dx dy) (moveBoard c b dx dy) ∧
      moveBoard c (combineBoards c (· ^^^ ·) a b) dx dy =
        combineBoards c (· ^^^ ·) (moveBoard c a dx dy) (moveBoard c b dx dy)) ∧
    (∀ delta : Int,
      rawShiftBoard c (combineBoards c (· &&& ·) a b) delta =
        combineBoards c (· &&& ·) (rawShiftBoard c a delta) (rawShiftBoard c b delta) ∧
      rawShiftBoard c (combineBoards c (· ||| ·) a b) delta =
        combineBoards c (· ||| ·) (rawShiftBoard c a delta) (rawShiftBoard c b delta) ∧
      rawShiftBoard c (combineBoards c (· ^^^ ·) a b) delta =
        combineBoards c (· ^^^ ·) (rawShiftBoard c a delta) (rawShiftBoard c b delta))

/-- What leaves the board is lost and never wraps: `U(k)` then `D(k)` clears the top `k` rows and keeps
the rest; a board with every set cell in columns `≤ col` is emptied by `L(k)` with `k ≥ col + 1`, one
with every set cell in columns `≥ col` by `R(k)` with `k ≥ N - col` (`41_shift_engine.md` R187 (c),
(f)). -/
def Obligations.OffBoardCellsAreLost : Prop :=
  ∀ (c : Config) (b : Board) (col k : Nat), c.legal → BoardWf c b →
    (∀ x y, inBounds c x y = true → cellOf c (moveBoard c (moveBoard c b 0 k) 0 (-k)) x y =
      (cellOf c b x y && decide (y + k < c.n))) ∧
    ((∀ x y, cellOf c b x y = true → x ≤ col) → col + 1 ≤ k →
      moveBoard c b (-k) 0 = zeroBoard c) ∧
    ((∀ x y, cellOf c b x y = true → col ≤ x) → c.n ≤ col + k →
      moveBoard c b k 0 = zeroBoard c)

/-! ### System commands -/

/-- NOP answers OK with data 0 and changes no state; a word that is zero in `op` but not elsewhere is
illegal (`43_system.md` R220). -/
def Obligations.NopChangesNothing : Prop :=
  (encode .nop).word = 0#32 ∧
  (∀ (w : CmdWord) (wdata : Block), w.extractLsb' 26 6 = 0#6 → w ≠ 0#32 →
    ∃ e, decode ⟨w, wdata⟩ = .error e) ∧
  ∀ s : State, ∃ t, exec .nop s = .next t ∧ Completed s t 0 ∧ SameBoards s t

/-- RDCSR answers CFG0, CFG1 or ERR, field by field as the registers are laid out, and reading clears
nothing; any other number raises BAD_CSR (`43_system.md` R221, `10_state.md` R26, R27, R28,
`60_exceptions.md` R305). -/
def Obligations.RdcsrReadsTheRegisters : Prop :=
  ∀ s : State, s.Wf →
    (∃ t v, exec (.rdcsr 0) s = .next t ∧ Completed s t v ∧ SameBoards s t ∧
      v = s.cfg.n + 2 ^ 8 * s.cfg.wcode.toNat + 2 ^ 16 * 8 ∧
      s.cfg.width = 8 * 2 ^ s.cfg.wcode.toNat) ∧
    (∃ t v, exec (.rdcsr 1) s = .next t ∧ Completed s t v ∧ SameBoards s t ∧
      v = s.cfg.blocks + 2 ^ 16 * s.cfg.rem ∧ 1 ≤ s.cfg.blocks ∧ s.cfg.blocks ≤ 8129 ∧
      1 ≤ s.cfg.rem ∧ s.cfg.rem ≤ s.cfg.width) ∧
    (∃ t, exec (.rdcsr 2) s = .next t ∧ Completed s t s.err.toNat ∧ SameBoards s t) ∧
    (∀ csr : BitVec 8, 3 ≤ csr.toNat →
      ∃ t, exec (.rdcsr csr) s = .next t ∧ Raised s t .badCsr ∧ SameBoards s t) ∧
    (∀ csr : BitVec 8, (encode (.rdcsr csr)).word = 0x48000000#32 ||| csr.setWidth 32)

/-- CLRERR clears all four sticky bits and touches nothing else, board registers keep their contents;
it is the only command that clears an `ERR` bit (`43_system.md` R222). -/
def Obligations.ClrerrClearsTheStickyBits : Prop :=
  (encode .clrerr).word = 0x4C000000#32 ∧
  (∀ (i : Instr) (s t : State), exec i s = .next t → i ≠ .clrerr → s.err &&& t.err = s.err) ∧
  ∀ s : State, ∃ t, exec .clrerr s = .next t ∧ t.err = 0 ∧ SameBoards s t ∧
    t.outbox = s.outbox ++ [⟨.ok, 0⟩] ∧ t.everErr = s.everErr ∧ t.cfg = s.cfg ∧ t.inbox = s.inbox

/-! ### Host layer -/

/-- The SHM that the host encodes for a Move shifts the board by the Move's displacement, and the raw
shift that it encodes for a count shifts by the count, for magnitudes and counts of any size:
saturation loses nothing (`30_encoding.md` R84, R85, `44_move_algebra.md` R242). -/
def Obligations.SaturatedOperandsShiftAlike : Prop :=
  ∀ (m : Move) (rd rs1 : Reg) (count : Nat) (s : State), s.Wf →
    encodeFields (m.shm rd rs1) =
      shmFields rd rs1 m.operand.1 m.operand.2.1 m.operand.2.2 ∧
    (∃ t, exec (m.shm rd rs1) s = .next t ∧ Completed s t 0 ∧ SameBoardsBut rd s t ∧
      t.board rd = moveBoard s.cfg (s.board rs1) m.disp.1 m.disp.2) ∧
    (∃ t, exec (hostRshl rd rs1 count) s = .next t ∧ Completed s t 0 ∧ SameBoardsBut rd s t ∧
      t.board rd = rawShiftBoard s.cfg (s.board rs1) count) ∧
    (∃ t, exec (hostRshr rd rs1 count) s = .next t ∧ Completed s t 0 ∧ SameBoardsBut rd s t ∧
      t.board rd = rawShiftBoard s.cfg (s.board rs1) (-count))

/-- The displacements of the Move algebra: mirror negates, a clockwise quarter turn sends `(dx, dy)`
to `(dy, -dx)`, an anticlockwise one to `(-dy, dx)`, scaling multiplies, and combining what splits
adds (`44_move_algebra.md` R244 to R247). -/
def Obligations.MoveAlgebraDisplacements : Prop :=
  ∀ m : Move,
    m.mirror.disp = (-m.disp.1, -m.disp.2) ∧
    (m.rotate .clockwise).disp = (m.disp.2, -m.disp.1) ∧
    (m.rotate .antiClockwise).disp = (-m.disp.2, m.disp.1) ∧
    (∀ k : Nat, (m.scale k).disp = ((k : Int) * m.disp.1, (k : Int) * m.disp.2)) ∧
    m.split.1.disp.1 + m.split.2.disp.1 = m.disp.1 ∧
    m.split.1.disp.2 + m.split.2.disp.2 = m.disp.2

/-- The laws of the Move algebra: double mirror and four quarter turns are the identity, the two
rotations undo each other, two clockwise turns are a mirror, combining a split Move gives it back,
and a diagonal shifts a board as its two components do in either order (`44_move_algebra.md`
R249). -/
def Obligations.MoveAlgebraLaws : Prop :=
  (∀ m : Move,
    m.mirror.mirror = m ∧ m.rotateCW.rotateCW.rotateCW.rotateCW = m ∧
    m.rotateACW.rotateACW.rotateACW.rotateACW = m ∧
    (m.rotate .clockwise).rotate .antiClockwise = m ∧
    (m.rotate .clockwise).rotate .clockwise = m.mirror ∧
    Move.combine m.split.1 m.split.2 = m) ∧
  (∀ (m : Move) (c : Config) (b : Board), c.legal → BoardWf c b →
    moveBoard c b m.disp.1 m.disp.2 =
      moveBoard c (moveBoard c b m.split.1.disp.1 m.split.1.disp.2)
        m.split.2.disp.1 m.split.2.disp.2 ∧
    moveBoard c b m.disp.1 m.disp.2 =
      moveBoard c (moveBoard c b m.split.2.disp.1 m.split.2.disp.2)
        m.split.1.disp.1 m.split.1.disp.2)

/-- COLLECT in OR_ACCUMULATE mode, its three registers different, leaves in `rd` the union of the
source shifted by every Move of the list and keeps the source; every command of it answers OK
(`45_move_builder.md` R290, R291). -/
def Obligations.CollectGathersTheUnion : Prop :=
  ∀ (rd rs1 tmp : Reg) (moves : List Move) (s : State), s.Wf →
    rd ≠ rs1 → rd ≠ tmp → rs1 ≠ tmp →
    ∃ t, execList (collectCommands rd rs1 tmp moves .orAccumulate) s = .next t ∧
      t.board rs1 = s.board rs1 ∧ (∀ r, r ≠ rd → r ≠ tmp → t.board r = s.board r) ∧
      (∀ x y : Nat, inBounds s.cfg x y = true → t.cell rd x y =
        moves.any fun m => cellAt s.cfg (s.board rs1) ((x : Int) - m.disp.1) ((y : Int) - m.disp.2)) ∧
      t.err = s.err ∧
      t.outbox = s.outbox ++ List.replicate (1 + 2 * moves.length) ⟨.ok, 0⟩

/-- COLLECT in CHAINED mode leaves in `rd` the source shifted by the Moves one after another and
writes no other register (`45_move_builder.md` R290, R291). -/
def Obligations.CollectChainsTheMoves : Prop :=
  ∀ (rd rs1 tmp : Reg) (moves : List Move) (s : State), s.Wf → rd ≠ rs1 →
    ∃ t, execList (collectCommands rd rs1 tmp moves .chained) s = .next t ∧
      t.board rd = moves.foldl (fun b m => moveBoard s.cfg b m.disp.1 m.disp.2) (s.board rs1) ∧
      SameBoardsBut rd s t ∧ t.err = s.err ∧
      t.outbox = s.outbox ++ List.replicate (1 + moves.length) ⟨.ok, 0⟩

/-- NEW leaves in `rd` the board whose set cells are exactly the in-range members of the list
(`40_board_core.md` R138 (e), `30_encoding.md` R96). -/
def Obligations.NewSetsTheListedCells : Prop :=
  ∀ (rd : Reg) (cells : List (BitVec 8 × BitVec 8)) (s : State), s.Wf →
    ∃ t, execList ((PseudoInstr.new rd cells).expand s.cfg) s = .next t ∧ SameBoardsBut rd s t ∧
      t.err = s.err ∧
      ∀ x y : Nat, inBounds s.cfg x y = true →
        t.cell rd x y = cells.any fun xy => decide (xy.1.toNat = x ∧ xy.2.toNat = y)

/-- ITER answers the cells of the whole grid in row-major order, one response each, and changes no
board register; the coordinate sequence is the cells answered 1, in that order, as many as CNT counts
(`40_board_core.md` R137). -/
def Obligations.IterVisitsTheGridInOrder : Prop :=
  ∀ (rs1 : Reg) (s : State), s.Wf →
    (∃ t, execList ((PseudoInstr.iter rs1).expand s.cfg) s = .next t ∧ SameBoards s t ∧
      t.outbox = s.outbox ++ (List.range s.cfg.cells).map fun p =>
        ⟨.ok, if bitOf s.cfg (s.board rs1) p then 1 else 0⟩) ∧
    setCells s.cfg (s.board rs1) =
      ((List.range s.cfg.cells).filter fun p => bitOf s.cfg (s.board rs1) p).map
        (fun p => (p % s.cfg.n, p / s.cfg.n)) ∧
    (setCells s.cfg (s.board rs1)).length = countOnes s.cfg (s.board rs1)

/-- A stream of encoded commands takes effect in the order issued: stepping through it is executing
the commands one after another (`20_memory.md` R63). -/
def Obligations.StreamRunsInOrder : Prop :=
  ∀ (prog : List Instr) (rest : List Command) (s : State),
    Host.Core.run Sys2Proof.core prog.length { s with inbox := prog.map encode ++ rest } =
      execList prog { s with inbox := rest }

/-- A board is loaded whole by `B` WRBLKs in any order and read whole by `B` RDBLKs in any order
(`40_board_core.md` R141, R140). -/
def Obligations.BlocksLoadTheWholeBoard : Prop :=
  ∀ (rd : Reg) (b : Board) (order : List Nat) (s : State), s.Wf → BoardWf s.cfg b →
    order.Perm (List.range s.cfg.blocks) →
    (∃ t, execList (order.map fun i => .wrblk rd (BitVec.ofNat 16 i) (blockAt b i)) s = .next t ∧
      t.board rd = b ∧ SameBoardsBut rd s t ∧ t.err = s.err ∧
      t.outbox = s.outbox ++ order.map fun _ => ⟨.ok, 0⟩) ∧
    (∃ u, execList (order.map fun i => .rdblk rd (BitVec.ofNat 16 i)) s = .next u ∧
      SameBoards s u ∧ u.err = s.err ∧
      u.outbox = s.outbox ++ order.map fun i => ⟨.ok, blockAt (s.board rd) i⟩)
end

