-- ==== Sys2Proof/Laws/Config.lean ====
section
/-! SUPPORT. Arithmetic of the derived constants (`00_scope.md` R10, R11). -/

namespace Sys2Proof

theorem width_pos (c : Config) : 0 < c.width := by
  rcases c with ⟨n, bw⟩; cases bw <;> simp [Config.width]

theorem width_le (c : Config) : c.width ≤ 128 := by
  rcases c with ⟨n, bw⟩; cases bw <;> simp [Config.width]

theorem width_ge (c : Config) : 8 ≤ c.width := by
  rcases c with ⟨n, bw⟩; cases bw <;> simp [Config.width]

theorem width_le_respWidth (c : Config) : c.width ≤ c.respWidth := le_max_left _ _

theorem width_eq_wcode (c : Config) : c.width = 8 * 2 ^ c.wcode.toNat := by
  rcases c with ⟨n, bw⟩; cases bw <;> simp [Config.width, Config.wcode]

theorem cells_pos {c : Config} (h : c.legal) : 0 < c.cells := Nat.mul_pos h.1 h.1

theorem cells_le {c : Config} (h : c.legal) : c.cells ≤ 65025 := by
  have := Nat.mul_le_mul h.2 h.2
  simpa [Config.cells] using this

/-- Every cell has a block: `CELLS ≤ B*W`. -/
theorem cells_le_blocks_mul (c : Config) : c.cells ≤ c.blocks * c.width := by
  have h := Nat.div_add_mod (c.cells + c.width - 1) c.width
  have h2 := Nat.mod_lt (c.cells + c.width - 1) (width_pos c)
  have h3 : c.blocks * c.width = c.width * ((c.cells + c.width - 1) / c.width) := by
    simp [Config.blocks, Config.cells, Nat.mul_comm]
  have h4 := width_pos c
  omega

theorem blocks_pos {c : Config} (h : c.legal) : 0 < c.blocks := by
  have h1 := cells_le_blocks_mul c
  have h2 := cells_pos h
  by_contra h0
  have : c.blocks = 0 := by omega
  simp [this] at h1; omega

/-- The final block holds a cell: `(B-1)*W < CELLS`. -/
theorem pred_blocks_mul_lt {c : Config} (h : c.legal) : (c.blocks - 1) * c.width < c.cells := by
  have h1 : c.blocks * c.width ≤ c.cells + c.width - 1 := by
    simpa [Config.blocks, Config.cells] using Nat.div_mul_le_self (c.n * c.n + c.width - 1) c.width
  have h2 := width_pos c
  have h3 := blocks_pos h
  have h4 : c.blocks * c.width = (c.blocks - 1) * c.width + c.width := by
    rw [Nat.sub_mul, Nat.one_mul, Nat.sub_add_cancel]
    exact Nat.le_mul_of_pos_left _ h3
  omega

/-- `CELLS = (B-1)*W + REM` (`00_scope.md` R11). -/
theorem cells_eq {c : Config} (h : c.legal) : c.cells = (c.blocks - 1) * c.width + c.rem := by
  have := pred_blocks_mul_lt h
  simp only [Config.rem]; omega

/-- `1 ≤ REM` (`00_scope.md` R11). -/
theorem rem_pos {c : Config} (h : c.legal) : 0 < c.rem := by
  have := pred_blocks_mul_lt h
  simp only [Config.rem]; omega

/-- `REM ≤ W` (`00_scope.md` R11). -/
theorem rem_le {c : Config} (h : c.legal) : c.rem ≤ c.width := by
  have h1 := cells_le_blocks_mul c
  have h3 := blocks_pos h
  have h4 : c.blocks * c.width = (c.blocks - 1) * c.width + c.width := by
    rw [Nat.sub_mul, Nat.one_mul, Nat.sub_add_cancel]
    exact Nat.le_mul_of_pos_left _ h3
  simp only [Config.rem]; omega

/-- `B ≤ 8129` (`00_scope.md` R10). -/
theorem blocks_le {c : Config} (h : c.legal) : c.blocks ≤ 8129 := by
  have h1 := pred_blocks_mul_lt h
  have h2 := cells_le h
  have h3 : (c.blocks - 1) * 8 ≤ (c.blocks - 1) * c.width := Nat.mul_le_mul_left _ (width_ge c)
  omega

theorem le_full_iff (c : Config) (v : Nat) : v ≤ c.full ↔ v < 2 ^ c.cells := by
  have := Nat.two_pow_pos c.cells
  simp only [Config.full]; omega

theorem and_full (c : Config) (v : Nat) : v &&& c.full = v % 2 ^ c.cells :=
  Nat.and_two_pow_sub_one_eq_mod v c.cells

theorem and_wmask (c : Config) (v : Nat) : v &&& c.wmask = v % 2 ^ c.width :=
  Nat.and_two_pow_sub_one_eq_mod v c.width

theorem and_lbm (c : Config) (v : Nat) : v &&& c.lbm = v % 2 ^ c.rem :=
  Nat.and_two_pow_sub_one_eq_mod v c.rem

@[simp] theorem testBit_wmask (c : Config) (k : Nat) :
    c.wmask.testBit k = decide (k < c.width) := by
  simp [Config.wmask, Nat.testBit_two_pow_sub_one]

@[simp] theorem testBit_lbm (c : Config) (k : Nat) : c.lbm.testBit k = decide (k < c.rem) := by
  simp [Config.lbm, Nat.testBit_two_pow_sub_one]

@[simp] theorem testBit_full (c : Config) (k : Nat) :
    c.full.testBit k = decide (k < c.cells) := by
  simp [Config.full, Nat.testBit_two_pow_sub_one]

/-- A bit of the complement within `W` bits (`00_scope.md` R14). -/
theorem testBit_compl (c : Config) (v k : Nat) :
    (c.compl v).testBit k = (decide (k < c.width) ^^ v.testBit k) := by
  simp [Config.compl, Nat.testBit_xor]

@[simp] theorem length_zeroBoard (c : Config) : (zeroBoard c).length = c.blocks := by
  simp [zeroBoard]

end Sys2Proof
end

