-- ==== Sys2Proof/Laws/State.lean ====
section
/-! SUPPORT. One lemma per field per update of the state, true by `rfl`, and the reads of a board
register after a write. -/

namespace Sys2Proof.Machine

/-! ### answer -/

@[simp] theorem answer_cfg (s : State) (st : Status) (d : Nat) : (s.answer st d).cfg = s.cfg := rfl
@[simp] theorem answer_boards (s : State) (st : Status) (d : Nat) :
    (s.answer st d).boards = s.boards := rfl
@[simp] theorem answer_err (s : State) (st : Status) (d : Nat) : (s.answer st d).err = s.err := rfl
@[simp] theorem answer_everErr (s : State) (st : Status) (d : Nat) :
    (s.answer st d).everErr = s.everErr := rfl
@[simp] theorem answer_inbox (s : State) (st : Status) (d : Nat) :
    (s.answer st d).inbox = s.inbox := rfl
@[simp] theorem answer_outbox (s : State) (st : Status) (d : Nat) :
    (s.answer st d).outbox = s.outbox ++ [⟨st, d⟩] := rfl
@[simp] theorem answer_board (s : State) (st : Status) (d : Nat) (r : Reg) :
    (s.answer st d).board r = s.board r := rfl

/-! ### record and clearErr -/

@[simp] theorem record_cfg (s : State) (e : ErrKind) : (s.record e).cfg = s.cfg := rfl
@[simp] theorem record_boards (s : State) (e : ErrKind) : (s.record e).boards = s.boards := rfl
@[simp] theorem record_err (s : State) (e : ErrKind) : (s.record e).err = s.err ||| e.mask := rfl
@[simp] theorem record_everErr (s : State) (e : ErrKind) :
    (s.record e).everErr = s.everErr ||| e.mask := rfl
@[simp] theorem record_inbox (s : State) (e : ErrKind) : (s.record e).inbox = s.inbox := rfl
@[simp] theorem record_outbox (s : State) (e : ErrKind) : (s.record e).outbox = s.outbox := rfl
@[simp] theorem record_board (s : State) (e : ErrKind) (r : Reg) :
    (s.record e).board r = s.board r := rfl

@[simp] theorem clearErr_cfg (s : State) : s.clearErr.cfg = s.cfg := rfl
@[simp] theorem clearErr_boards (s : State) : s.clearErr.boards = s.boards := rfl
@[simp] theorem clearErr_err (s : State) : s.clearErr.err = 0 := rfl
@[simp] theorem clearErr_everErr (s : State) : s.clearErr.everErr = s.everErr := rfl
@[simp] theorem clearErr_inbox (s : State) : s.clearErr.inbox = s.inbox := rfl
@[simp] theorem clearErr_outbox (s : State) : s.clearErr.outbox = s.outbox := rfl
@[simp] theorem clearErr_board (s : State) (r : Reg) : s.clearErr.board r = s.board r := rfl

/-! ### setBoard -/

@[simp] theorem setBoard_cfg (s : State) (r : Reg) (b : Board) : (s.setBoard r b).cfg = s.cfg := rfl
@[simp] theorem setBoard_err (s : State) (r : Reg) (b : Board) : (s.setBoard r b).err = s.err := rfl
@[simp] theorem setBoard_everErr (s : State) (r : Reg) (b : Board) :
    (s.setBoard r b).everErr = s.everErr := rfl
@[simp] theorem setBoard_inbox (s : State) (r : Reg) (b : Board) :
    (s.setBoard r b).inbox = s.inbox := rfl
@[simp] theorem setBoard_outbox (s : State) (r : Reg) (b : Board) :
    (s.setBoard r b).outbox = s.outbox := rfl

/-- A write to one register is read back and leaves every other register alone (`10_state.md`
R24). -/
theorem setBoard_board (s : State) (r q : Reg) (b : Board) :
    (s.setBoard r b).board q = if q = r then b else s.board q := by
  simp [State.setBoard, State.board, Vector.getElem_set, Fin.ext_iff, eq_comm]

@[simp] theorem setBoard_board_same (s : State) (r : Reg) (b : Board) :
    (s.setBoard r b).board r = b := by simp [setBoard_board]

@[simp] theorem setBoard_board_ne (s : State) {r q : Reg} (b : Board) (h : q ≠ r) :
    (s.setBoard r b).board q = s.board q := by simp [setBoard_board, h]

/-- Writing a register with what it holds changes nothing. -/
theorem setBoard_board_self (s : State) (r : Reg) : s.setBoard r (s.board r) = s := by
  simp [State.setBoard, State.board]

/-! ### blkWrite -/

@[simp] theorem blkWrite_cfg (s : State) (r : Reg) (i v : Nat) :
    (s.blkWrite r i v).cfg = s.cfg := rfl
@[simp] theorem blkWrite_err (s : State) (r : Reg) (i v : Nat) :
    (s.blkWrite r i v).err = s.err := rfl
@[simp] theorem blkWrite_everErr (s : State) (r : Reg) (i v : Nat) :
    (s.blkWrite r i v).everErr = s.everErr := rfl
@[simp] theorem blkWrite_inbox (s : State) (r : Reg) (i v : Nat) :
    (s.blkWrite r i v).inbox = s.inbox := rfl
@[simp] theorem blkWrite_outbox (s : State) (r : Reg) (i v : Nat) :
    (s.blkWrite r i v).outbox = s.outbox := rfl

/-- A block write leaves every other register alone (`10_state.md` R24). -/
@[simp] theorem blkWrite_board_ne (s : State) {r q : Reg} (i v : Nat) (h : q ≠ r) :
    (s.blkWrite r i v).board q = s.board q := setBoard_board_ne s _ h

/-! ### the command stream -/

@[simp] theorem inbox_cfg (s : State) (q : List Command) : { s with inbox := q }.cfg = s.cfg := rfl
@[simp] theorem inbox_err (s : State) (q : List Command) : { s with inbox := q }.err = s.err := rfl
@[simp] theorem inbox_everErr (s : State) (q : List Command) :
    { s with inbox := q }.everErr = s.everErr := rfl
@[simp] theorem inbox_outbox (s : State) (q : List Command) :
    { s with inbox := q }.outbox = s.outbox := rfl
@[simp] theorem inbox_board (s : State) (q : List Command) (r : Reg) :
    { s with inbox := q }.board r = s.board r := rfl

@[simp] theorem issue_inbox (s : State) (q : List Command) :
    (s.issue q).inbox = s.inbox ++ q := rfl
@[simp] theorem presentFirst_inbox (s : State) (cmd : Command) :
    (s.presentFirst cmd).inbox = cmd :: s.inbox := rfl

/-! ### reset -/

@[simp] theorem resetOf_cfg (c : Config) : (State.resetOf c).cfg = c := rfl
@[simp] theorem resetOf_err (c : Config) : (State.resetOf c).err = 0 := rfl
@[simp] theorem resetOf_everErr (c : Config) : (State.resetOf c).everErr = 0 := rfl
@[simp] theorem resetOf_board (c : Config) (r : Reg) :
    (State.resetOf c).board r = zeroBoard c := by
  simp [State.resetOf, State.board]

end Sys2Proof.Machine
end

