-- ==== Sys2Proof/Laws/Board.lean ====
section
/-! SUPPORT. The two views of a board, blocks and integer (`00_scope.md` R15): each in terms of bits,
and each the inverse of the other. -/

namespace Sys2Proof.Machine

/-! ### blocks -/

theorem blockAt_of_length_le {b : Board} {i : Nat} (h : b.length ≤ i) : blockAt b i = 0 := by
  simp [blockAt, List.getD_eq_getElem?_getD, List.getElem?_eq_none h]

theorem blockAt_mem {b : Board} {i : Nat} (h : i < b.length) : blockAt b i ∈ b := by
  simp [blockAt, List.getD_eq_getElem?_getD, List.getElem?_eq_getElem h]

/-- Every block of a board with `W`-bit blocks is a `W`-bit value, the value beyond the end too. -/
theorem blockAt_lt {c : Config} {b : Board} (h : ∀ v ∈ b, v < 2 ^ c.width) (i : Nat) :
    blockAt b i < 2 ^ c.width := by
  by_cases hi : i < b.length
  · exact h _ (blockAt_mem hi)
  · rw [blockAt_of_length_le (by omega)]; exact Nat.two_pow_pos _

@[simp] theorem blockAt_set (b : Board) (i j v : Nat) :
    blockAt (b.set i v) j = if i = j ∧ j < b.length then v else blockAt b j := by
  by_cases h : i = j
  · subst h
    by_cases hi : i < b.length
    · simp [blockAt, List.getD_eq_getElem?_getD, hi]
    · simp [blockAt, List.getD_eq_getElem?_getD, hi]
  · simp [blockAt, List.getD_eq_getElem?_getD, h]

@[simp] theorem blockAt_map_range (n i : Nat) (f : Nat → Block) :
    blockAt ((List.range n).map f) i = if i < n then f i else 0 := by
  by_cases h : i < n
  · simp [blockAt, List.getD_eq_getElem?_getD, h]
  · simp [blockAt, List.getD_eq_getElem?_getD, h]

@[simp] theorem blockAt_zeroBoard (c : Config) (i : Nat) : blockAt (zeroBoard c) i = 0 := by
  by_cases h : i < c.blocks
  · simp [blockAt, zeroBoard, List.getD_eq_getElem?_getD, h]
  · simp [blockAt, zeroBoard, List.getD_eq_getElem?_getD, h]

/-- Two boards of the same length with the same blocks are equal. -/
theorem board_ext {a b : Board} (hl : a.length = b.length)
    (h : ∀ i, i < a.length → blockAt a i = blockAt b i) : a = b := by
  apply List.ext_getElem hl
  intro i h1 h2
  have := h i h1
  simpa [blockAt, List.getD_eq_getElem?_getD, List.getElem?_eq_getElem h1,
    List.getElem?_eq_getElem h2] using this

/-! ### the board as one integer -/

@[simp] theorem boardVal_nil (c : Config) : boardVal c [] = 0 := rfl
@[simp] theorem boardVal_cons (c : Config) (v : Block) (b : Board) :
    boardVal c (v :: b) = v + 2 ^ c.width * boardVal c b := rfl

/-- `val(b) < 2^(len*W)` (`00_scope.md` R15). -/
theorem boardVal_lt (c : Config) (b : Board) (h : ∀ v ∈ b, v < 2 ^ c.width) :
    boardVal c b < 2 ^ (b.length * c.width) := by
  induction b with
  | nil => simp
  | cons v b ih =>
    have hv := h v (by simp)
    have hb := ih fun w hw => h w (by simp [hw])
    have e : 2 ^ ((b.length + 1) * c.width) = 2 ^ c.width * 2 ^ (b.length * c.width) := by
      rw [Nat.succ_mul, Nat.pow_add, Nat.mul_comm]
    simp only [boardVal_cons, List.length_cons, e]
    have h1 : 2 ^ c.width * (boardVal c b + 1) ≤ 2 ^ c.width * 2 ^ (b.length * c.width) :=
      Nat.mul_le_mul_left _ hb
    rw [Nat.mul_add, Nat.mul_one, Nat.add_comm] at h1
    exact Nat.lt_of_lt_of_le (Nat.add_lt_add_right hv _) h1

/-- Bit `p` of the integer is bit `p mod W` of block `p div W` (`20_memory.md` R52). -/
theorem testBit_boardVal (c : Config) (b : Board) (h : ∀ v ∈ b, v < 2 ^ c.width) (p : Nat) :
    (boardVal c b).testBit p = (blockAt b (p / c.width)).testBit (p % c.width) := by
  induction b generalizing p with
  | nil => simp [blockAt]
  | cons v b ih =>
    have hw := width_pos c
    have hv := h v (by simp)
    have hb := ih (fun w hw => h w (by simp [hw]))
    rw [boardVal_cons, Nat.add_comm, Nat.testBit_two_pow_mul_add _ hv]
    by_cases hp : p < c.width
    · simp [hp, Nat.div_eq_of_lt hp, Nat.mod_eq_of_lt hp, blockAt]
    · have e1 : p / c.width = (p - c.width) / c.width + 1 := by
        rw [← Nat.sub_add_cancel (Nat.le_of_not_lt hp), Nat.add_div_right _ hw]; simp
      have e2 : p % c.width = (p - c.width) % c.width := by
        conv_lhs => rw [← Nat.sub_add_cancel (Nat.le_of_not_lt hp), Nat.add_mod_right]
      rw [if_neg hp, hb, e1, e2]
      rfl

/-- Block `i` is the slice of the integer at `i*W` (`00_scope.md` R15). -/
theorem blockAt_eq_slice (c : Config) (b : Board) (h : ∀ v ∈ b, v < 2 ^ c.width) (i : Nat) :
    blockAt b i = (boardVal c b >>> (i * c.width)) &&& c.wmask := by
  have hw := width_pos c
  apply Nat.eq_of_testBit_eq
  intro k
  rw [Nat.testBit_and, testBit_wmask, Nat.testBit_shiftRight, testBit_boardVal c b h]
  by_cases hk : k < c.width
  · rw [Nat.mul_comm, Nat.mul_add_div hw, Nat.mul_add_mod, Nat.div_eq_of_lt hk,
      Nat.mod_eq_of_lt hk]
    simp [hk]
  · have := Nat.testBit_lt_two_pow (Nat.lt_of_lt_of_le (blockAt_lt h i)
      (Nat.pow_le_pow_right (by omega) (Nat.le_of_not_lt hk)))
    simp [hk, this]

@[simp] theorem length_boardOf (c : Config) (v : Nat) : (boardOf c v).length = c.blocks := by
  simp [boardOf]

@[simp] theorem blockAt_boardOf (c : Config) (v i : Nat) :
    blockAt (boardOf c v) i = if i < c.blocks then (v >>> (i * c.width)) &&& c.wmask else 0 := by
  simp [boardOf]

theorem boardOf_lt (c : Config) (v : Nat) : ∀ w ∈ boardOf c v, w < 2 ^ c.width := by
  intro w hw
  simp only [boardOf, List.mem_map] at hw
  obtain ⟨i, _, rfl⟩ := hw
  rw [and_wmask]; exact Nat.mod_lt _ (Nat.two_pow_pos _)

/-- The bits of `board(v)` are the bits of `v` below `B*W`. -/
theorem testBit_boardVal_boardOf (c : Config) (v p : Nat) :
    (boardVal c (boardOf c v)).testBit p = (decide (p < c.blocks * c.width) && v.testBit p) := by
  have hw := width_pos c
  rw [testBit_boardVal c _ (boardOf_lt c v), blockAt_boardOf]
  by_cases h : p < c.blocks * c.width
  · have h1 : p / c.width < c.blocks := (Nat.div_lt_iff_lt_mul hw).2 h
    have h2 : p / c.width * c.width + p % c.width = p := Nat.div_add_mod' p c.width
    simp [h, h1, Nat.testBit_shiftRight, h2, Nat.mod_lt _ hw]
  · have h1 : ¬ p / c.width < c.blocks := fun h' => h ((Nat.div_lt_iff_lt_mul hw).1 h')
    simp [h, h1]

/-- `val(board(v)) = v` for a value of meaningful positions only (`00_scope.md` R15). -/
theorem boardVal_boardOf (c : Config) (v : Nat) (h : v ≤ c.full) :
    boardVal c (boardOf c v) = v := by
  apply Nat.eq_of_testBit_eq
  intro p
  rw [testBit_boardVal_boardOf]
  by_cases hp : p < c.blocks * c.width
  · simp [hp]
  · have h1 := cells_le_blocks_mul c
    have : v.testBit p = false := Nat.testBit_lt_two_pow
      (Nat.lt_of_lt_of_le ((le_full_iff c v).1 h) (Nat.pow_le_pow_right (by omega) (by omega)))
    simp [this]

/-- `board(val(b)) = b` for `B` blocks of `W` bits (`00_scope.md` R15). -/
theorem boardOf_boardVal (c : Config) (b : Board) (hl : b.length = c.blocks)
    (h : ∀ v ∈ b, v < 2 ^ c.width) : boardOf c (boardVal c b) = b := by
  apply board_ext (by simp [hl])
  intro i hi
  rw [length_boardOf] at hi
  simp [hi, blockAt_eq_slice c b h i]

/-- `board(v)` is well formed for a value of meaningful positions only. -/
theorem boardOf_wf (c : Config) (v : Nat) (h : v ≤ c.full) : BoardWf c (boardOf c v) :=
  ⟨length_boardOf c v, boardOf_lt c v, by rw [boardVal_boardOf c v h]; exact h⟩

/-- Two well-formed boards with the same bits are equal. -/
theorem board_eq_of_bits {c : Config} {a b : Board} (ha : BoardWf c a) (hb : BoardWf c b)
    (h : ∀ p, p < c.cells → bitOf c a p = bitOf c b p) : a = b := by
  have hv : boardVal c a = boardVal c b := by
    apply Nat.eq_of_testBit_eq
    intro p
    by_cases hp : p < c.cells
    · exact h p hp
    · have e : ∀ d : Board, BoardWf c d → (boardVal c d).testBit p = false := fun d hd =>
        Nat.testBit_lt_two_pow (Nat.lt_of_lt_of_le ((le_full_iff c _).1 hd.2.2)
          (Nat.pow_le_pow_right (by omega) (by omega)))
      rw [e a ha, e b hb]
  rw [← boardOf_boardVal c a ha.1 ha.2.1, ← boardOf_boardVal c b hb.1 hb.2.1, hv]

/-- A well-formed board has no bit at or beyond `CELLS` (`10_state.md` R22). -/
theorem bitOf_of_cells_le {c : Config} {b : Board} (hb : BoardWf c b) {p : Nat}
    (h : c.cells ≤ p) : bitOf c b p = false :=
  Nat.testBit_lt_two_pow (Nat.lt_of_lt_of_le ((le_full_iff c _).1 hb.2.2)
    (Nat.pow_le_pow_right (by omega) h))

/-- A board of `B` blocks of `W` bits is well formed when no bit at or beyond `CELLS` is set
(`10_state.md` R22). -/
theorem boardWf_of_bits {c : Config} {b : Board} (hl : b.length = c.blocks)
    (hw : ∀ v ∈ b, v < 2 ^ c.width) (h : ∀ p, c.cells ≤ p → bitOf c b p = false) :
    BoardWf c b := by
  refine ⟨hl, hw, (le_full_iff c _).2 ?_⟩
  exact Nat.lt_pow_two_of_testBit _ fun p hp => h p hp

@[simp] theorem boardVal_zeroBoard (c : Config) : boardVal c (zeroBoard c) = 0 := by
  have : ∀ n, boardVal c (List.replicate n 0) = 0 := by
    intro n
    induction n with
    | zero => rfl
    | succ k ih => simp [List.replicate_succ, ih]
  exact this _

theorem zeroBoard_wf (c : Config) : BoardWf c (zeroBoard c) :=
  ⟨length_zeroBoard c, fun v hv => by
    rw [List.eq_of_mem_replicate hv]; exact Nat.two_pow_pos _, by simp⟩

end Sys2Proof.Machine
end

