-- ==== Sys2Proof/Laws/Decode.lean ====
section
/-! SUPPORT. The command word and its fields (`30_encoding.md` R81), each the inverse of the other, and
all that the decoder's must-be-zero check can answer. -/

namespace Sys2Proof

/-! ### register fields -/

@[simp] theorem regOfBits_bitsOfReg (r : Reg) : regOfBits (bitsOfReg r) = r := rfl
@[simp] theorem bitsOfReg_regOfBits (b : BitVec 3) : bitsOfReg (regOfBits b) = b := rfl

/-! ### the word and its fields -/

@[ext] theorem Fields.ext_fields {a b : Fields} (h1 : a.op = b.op) (h2 : a.rd = b.rd)
    (h3 : a.rs1 = b.rs1) (h4 : a.f = b.f) (h5 : a.hi = b.hi) (h6 : a.lo = b.lo) : a = b := by
  cases a; cases b; simp_all

/-- The fields of the word that has the given fields (`30_encoding.md` R81). -/
@[simp] theorem Fields.ofWord_toWord (fl : Fields) : Fields.ofWord fl.toWord = fl := by
  ext i hi <;> simp [Fields.ofWord, Fields.toWord] <;> grind

/-- The six fields are the whole word: no bit is dropped (`30_encoding.md` R81). -/
@[simp] theorem Fields.toWord_ofWord (w : CmdWord) : (Fields.ofWord w).toWord = w := by
  ext i hi
  simp [Fields.ofWord, Fields.toWord]
  grind

/-- Two words with the same fields are the same word. -/
theorem word_eq_of_fields {v w : CmdWord} (h : Fields.ofWord v = Fields.ofWord w) : v = w := by
  rw [← Fields.toWord_ofWord v, h, Fields.toWord_ofWord]

/-- `imm16` of the two halves of a 16-bit operand is the operand (`30_encoding.md` R81). -/
@[simp] theorem imm16_of_halves (x : BitVec 16) :
    x.extractLsb' 8 8 ++ x.extractLsb' 0 8 = x := by
  ext i hi
  simp
  grind

/-- `rs2` of the field that holds it (`30_encoding.md` R81). -/
@[simp] theorem rs2_of_fOfRs2 (r : Reg) : (fOfRs2 r).extractLsb' 1 3 = bitsOfReg r := by
  revert r; decide

/-- `f0` of the field that holds `rs2` is 0 (`30_encoding.md` R81). -/
@[simp] theorem f0_of_fOfRs2 (r : Reg) : (fOfRs2 r).extractLsb' 0 1 = 0#1 := by
  revert r; decide

/-- An `f` field with `f0 = 0` is the field of its `rs2`. -/
theorem fOfRs2_of_f0 (f : BitVec 4) (h : f.extractLsb' 0 1 = 0#1) :
    fOfRs2 (regOfBits (f.extractLsb' 1 3)) = f := by
  revert f; decide

/-! ### the must-be-zero check -/

/-- All that the must-be-zero check can accept (`30_encoding.md` R90). -/
theorem requireZero_eq_ok {m : String} {z : Bool} {i j : Instr} :
    requireZero m z i = .ok j ↔ z = true ∧ i = j := by
  cases z <;> simp [requireZero]

/-- All that the must-be-zero check can reject (`30_encoding.md` R90). -/
theorem requireZero_eq_error {m : String} {z : Bool} {i : Instr} {e : DecodeError} :
    requireZero m z i = .error e ↔ z = false ∧ e = .strayBits m := by
  cases z <;> simp [requireZero, eq_comm]

/-- What the table word's command presents when the word has no write data (assumption log 9). -/
theorem tableCommand_32 (w : Nat) : tableCommand 32 w = ⟨BitVec.ofNat 32 w, 0⟩ := by
  have : w % 2 ^ 32 / 2 ^ 32 = 0 := Nat.div_eq_of_lt (Nat.mod_lt _ (by decide))
  simp only [tableCommand, this]
  congr 1
  apply BitVec.eq_of_toNat_eq
  simp

end Sys2Proof
end

