-- ==== Sys2Proof/Laws/Ops.lean ====
section
/-! SUPPORT. One lemma per shared operation saying what it does to blocks, bits and cells, and that it
keeps a board well formed (`10_state.md` R22). -/

namespace Sys2Proof.Machine

/-! ### responses and errors -/

/-- All that `respond` can answer. -/
theorem respond_eq_next {s t : State} {d : Nat} :
    s.respond d = .next t ↔ t = s.answer .ok d := by
  simp [State.respond, eq_comm]

/-- All that `raise` can answer. -/
theorem raise_eq_next {s t : State} {e : ErrKind} :
    s.raise e = .next t ↔ t = (s.record e).answer (.err e) 0 := by
  simp [State.raise, eq_comm]

/-- Raising an error does what `60_exceptions.md` R301 says. -/
theorem raised_of_raise (s : State) (e : ErrKind) : Raised s ((s.record e).answer (.err e) 0) e :=
  ⟨rfl, rfl, rfl, rfl, rfl⟩

/-- A state that differs in one board register and has answered OK completes. -/
theorem completed_setBoard (s : State) (r : Reg) (b : Board) (d : Nat) :
    Completed s ((s.setBoard r b).answer .ok d) d := ⟨rfl, rfl, rfl, rfl, rfl⟩

theorem sameBoardsBut_setBoard (s : State) (r : Reg) (b : Board) (st : Status) (d : Nat) :
    SameBoardsBut r s ((s.setBoard r b).answer st d) := by
  intro q hq; simp [hq]

/-- A block write leaves every other register alone, whatever is answered with it. -/
theorem sameBoardsBut_blkWrite (s : State) (r : Reg) (i v : Nat) (st : Status) (d : Nat) :
    SameBoardsBut r s ((s.blkWrite r i v).answer st d) := sameBoardsBut_setBoard s r _ st d

/-- Writing a well-formed board keeps the machine's invariant. -/
theorem wf_setBoard {s : State} (hs : s.Wf) (r : Reg) {b : Board} (hb : BoardWf s.cfg b) :
    (s.setBoard r b).Wf := by
  refine ⟨hs.1, fun q => ?_⟩
  rw [setBoard_board]
  split
  · exact hb
  · exact hs.2 q

theorem wf_answer {s : State} (hs : s.Wf) (st : Status) (d : Nat) : (s.answer st d).Wf := hs

theorem wf_record {s : State} (hs : s.Wf) (e : ErrKind) : (s.record e).Wf := hs

/-! ### coordinates -/

theorem inBounds_iff {c : Config} {x y : Nat} : inBounds c x y = true ↔ x < c.n ∧ y < c.n := by
  simp [inBounds]

/-- `to_linear` of an in-bounds pair is a meaningful position (`40_board_core.md` R121). -/
theorem toLinear_lt {c : Config} {x y : Nat} (h : inBounds c x y = true) :
    toLinear c x y < c.cells := by
  obtain ⟨hx, hy⟩ := inBounds_iff.1 h
  have : y * c.n + c.n ≤ c.n * c.n := by
    rw [← Nat.succ_mul]; exact Nat.mul_le_mul_right _ hy
  simp only [toLinear, Config.cells]; omega

/-- The coordinates of a meaningful position are in bounds. -/
theorem inBounds_of_position {c : Config} {p : Nat} (h : p < c.cells) :
    inBounds c (p % c.n) (p / c.n) = true := by
  have hn : 0 < c.n := by
    rcases Nat.eq_zero_or_pos c.n with h0 | h0
    · simp [Config.cells, h0] at h
    · exact h0
  exact inBounds_iff.2 ⟨Nat.mod_lt _ hn, Nat.div_lt_of_lt_mul h⟩

theorem toLinear_position (c : Config) (p : Nat) : toLinear c (p % c.n) (p / c.n) = p := by
  simp only [toLinear]; exact Nat.mod_add_div' p c.n

/-- `to_linear` is one to one on in-bounds pairs (`40_board_core.md` R121). -/
theorem toLinear_inj {c : Config} {x y x' y' : Nat} (h : inBounds c x y = true)
    (h' : inBounds c x' y' = true) : toLinear c x y = toLinear c x' y' ↔ x = x' ∧ y = y' := by
  obtain ⟨hx, hy⟩ := inBounds_iff.1 h
  obtain ⟨hx', hy'⟩ := inBounds_iff.1 h'
  have hn : 0 < c.n := by omega
  constructor
  · intro e
    have e1 := congrArg (· % c.n) e
    have e2 := congrArg (· / c.n) e
    simp only [toLinear, Nat.add_mul_mod_self_right, Nat.mod_eq_of_lt hx, Nat.mod_eq_of_lt hx',
      Nat.add_mul_div_right _ _ hn, Nat.div_eq_of_lt hx, Nat.div_eq_of_lt hx'] at e1 e2
    omega
  · rintro ⟨rfl, rfl⟩; rfl

/-! ### cells -/

/-- A one-bit mask tests one bit. -/
theorem and_one_shiftLeft_ne_zero (v k : Nat) : (v &&& 1 <<< k != 0) = v.testBit k := by
  rw [Bool.eq_iff_iff, bne_iff_ne, Nat.one_shiftLeft]
  constructor
  · intro h
    by_contra hb
    apply h
    apply Nat.eq_of_testBit_eq
    intro j
    rw [Nat.testBit_and, Nat.testBit_two_pow]
    by_cases hj : k = j
    · subst hj; simpa using hb
    · simp [hj]
  · intro hb h
    have := congrArg (fun z => Nat.testBit z k) h
    simp [Nat.testBit_and, hb] at this

/-- A cell is the block bit of its position (`20_memory.md` R55). -/
theorem cellOf_eq_blockBit (c : Config) (b : Board) (x y : Nat) :
    cellOf c b x y = (inBounds c x y &&
      (blockAt b (toLinear c x y / c.width)).testBit (toLinear c x y % c.width)) := by
  simp only [cellOf, mapCoords]
  cases inBounds c x y <;> simp [and_one_shiftLeft_ne_zero]

/-- A cell is the board's bit at its position (`40_board_core.md` R123). -/
theorem cellOf_eq_bitOf {c : Config} {b : Board} (hb : ∀ v ∈ b, v < 2 ^ c.width) (x y : Nat) :
    cellOf c b x y = (inBounds c x y && bitOf c b (toLinear c x y)) := by
  rw [cellOf_eq_blockBit, bitOf, testBit_boardVal c b hb]

/-- The bit at a meaningful position is the cell there. -/
theorem bitOf_eq_cellOf {c : Config} {b : Board} (hb : ∀ v ∈ b, v < 2 ^ c.width) {p : Nat}
    (hp : p < c.cells) : bitOf c b p = cellOf c b (p % c.n) (p / c.n) := by
  rw [cellOf_eq_bitOf hb, inBounds_of_position hp, toLinear_position, Bool.true_and]

theorem cellOf_of_not_inBounds {c : Config} {x y : Nat} (h : inBounds c x y = false) (b : Board) :
    cellOf c b x y = false := by simp [cellOf, h]

@[simp] theorem cellOf_zeroBoard (c : Config) (x y : Nat) :
    cellOf c (zeroBoard c) x y = false := by simp [cellOf_eq_blockBit]

/-- Two well-formed boards with the same cells are equal (`40_board_core.md` R136). -/
theorem board_eq_of_cells {c : Config} {a b : Board} (ha : BoardWf c a) (hb : BoardWf c b)
    (h : ∀ x y, inBounds c x y = true → cellOf c a x y = cellOf c b x y) : a = b := by
  apply board_eq_of_bits ha hb
  intro p hp
  rw [bitOf_eq_cellOf ha.2.1 hp, bitOf_eq_cellOf hb.2.1 hp]
  exact h _ _ (inBounds_of_position hp)

/-! ### writing one block -/

/-- A board with block `i` replaced keeps its length and its `W`-bit blocks. -/
theorem set_lt {c : Config} {b : Board} (hb : ∀ v ∈ b, v < 2 ^ c.width) {i v : Nat}
    (hv : v < 2 ^ c.width) : ∀ w ∈ b.set i v, w < 2 ^ c.width := by
  intro w hw
  rcases List.mem_or_eq_of_mem_set hw with h | h
  · exact hb w h
  · exact h ▸ hv

/-- Bit `p` after block `i` is replaced by a `W`-bit value. -/
theorem bitOf_set {c : Config} {b : Board} (hl : b.length = c.blocks)
    (hb : ∀ v ∈ b, v < 2 ^ c.width) {i v : Nat} (hi : i < c.blocks) (hv : v < 2 ^ c.width)
    (p : Nat) : bitOf c (b.set i v) p =
      if p / c.width = i then v.testBit (p % c.width) else bitOf c b p := by
  simp only [bitOf]
  rw [testBit_boardVal c _ (set_lt hb hv), testBit_boardVal c _ hb, blockAt_set]
  by_cases h : p / c.width = i
  · subst h
    simp [hl, hi]
  · simp [h, Ne.symm h]

/-- A bit in the block of index `i` that the padding holds: for `i = B-1`, the bits from `REM`
up. -/
theorem padding_bit {c : Config} (hc : c.legal) {p : Nat} (h : c.cells ≤ p)
    (hp : p / c.width < c.blocks) : p / c.width = c.blocks - 1 ∧ c.rem ≤ p % c.width := by
  have hw := width_pos c
  have h1 := cells_eq hc
  have h2 := rem_pos hc
  have h3 : p / c.width * c.width + p % c.width = p := Nat.div_add_mod' p c.width
  have h4 := Nat.mod_lt p hw
  have h5 : c.blocks - 1 ≤ p / c.width := by
    rw [Nat.le_div_iff_mul_le hw]; omega
  have h6 : p / c.width = c.blocks - 1 := by omega
  rw [h6] at h3
  exact ⟨h6, by omega⟩

/-- The value that a raw write stores is a `W`-bit value (`20_memory.md` R57). -/
theorem storedBlock_lt {c : Config} (hc : c.legal) (i v : Nat) :
    storedBlock c i v < 2 ^ c.width := by
  unfold storedBlock
  split
  · rw [and_lbm]
    exact Nat.lt_of_lt_of_le (Nat.mod_lt _ (Nat.two_pow_pos _))
      (Nat.pow_le_pow_right (by omega) (rem_le hc))
  · rw [and_wmask]; exact Nat.mod_lt _ (Nat.two_pow_pos _)

/-- A raw write keeps a board well formed (`20_memory.md` R57, `10_state.md` R22). -/
theorem boardWf_set_storedBlock {c : Config} (hc : c.legal) {b : Board} (hb : BoardWf c b)
    {i : Nat} (hi : i < c.blocks) (v : Nat) : BoardWf c (b.set i (storedBlock c i v)) := by
  have hv := storedBlock_lt hc i v
  refine boardWf_of_bits (by simpa using hb.1) (set_lt hb.2.1 hv) fun p hp => ?_
  rw [bitOf_set hb.1 hb.2.1 hi hv]
  split
  · next h =>
    obtain ⟨h1, h2⟩ := padding_bit hc hp (h ▸ hi)
    have : i = c.blocks - 1 := h ▸ h1
    simp [storedBlock, this, Nat.not_lt.2 h2]
  · exact bitOf_of_cells_le hb hp

/-- What `BlkWrite` does to a block of any register (`20_memory.md` R57). -/
theorem blkRead_blkWrite (s : State) (r q : Reg) (i j v : Nat) :
    (s.blkWrite r i v).blkRead q j =
      if q = r ∧ i = j ∧ j < (s.board r).length then storedBlock s.cfg i v
      else s.blkRead q j := by
  simp only [State.blkRead, State.blkWrite, setBoard_board]
  by_cases h : q = r
  · subst h; simp [blockAt_set]
  · simp [h]

/-! ### setting and clearing a cell -/

theorem mapCoords_lt {c : Config} {x y : Nat} (h : inBounds c x y = true) :
    toLinear c x y / c.width < c.blocks := by
  have := cells_le_blocks_mul c
  have := toLinear_lt h
  exact (Nat.div_lt_iff_lt_mul (width_pos c)).2 (by omega)

/-- The bits of a board with one cell set: that of the cell's position is set, every other as it was
(`40_board_core.md` R132). -/
theorem bitOf_setCell {c : Config} {b : Board} (hl : b.length = c.blocks)
    (hb : ∀ v ∈ b, v < 2 ^ c.width) (x y p : Nat) : bitOf c (setCell c b x y) p =
      (bitOf c b p || (inBounds c x y && decide (p = toLinear c x y))) := by
  have hw := width_pos c
  simp only [setCell, mapCoords]
  cases h : inBounds c x y
  · simp
  have hv : blockAt b (toLinear c x y / c.width) ||| 1 <<< (toLinear c x y % c.width)
      < 2 ^ c.width := by
    apply Nat.or_lt_two_pow (blockAt_lt hb _)
    rw [Nat.one_shiftLeft]
    exact Nat.pow_lt_pow_right (by omega) (Nat.mod_lt _ hw)
  rw [if_pos rfl, bitOf_set hl hb (mapCoords_lt h) hv]
  simp only [bitOf, testBit_boardVal c b hb, Nat.testBit_or, Nat.one_shiftLeft,
    Nat.testBit_two_pow, Bool.true_and]
  by_cases hq : p / c.width = toLinear c x y / c.width
  · rw [if_pos hq, ← hq]
    congr 1
    rw [decide_eq_decide]
    constructor
    · intro h2
      rw [← Nat.div_add_mod p c.width, ← Nat.div_add_mod (toLinear c x y) c.width, hq, h2]
    · rintro rfl; rfl
  · have : p ≠ toLinear c x y := fun h2 => hq (by rw [h2])
    simp [hq, this]

/-- The bits of a board with one cell cleared: that of the cell's position is clear, every other as it
was (`40_board_core.md` R133). -/
theorem bitOf_clearCell {c : Config} {b : Board} (hl : b.length = c.blocks)
    (hb : ∀ v ∈ b, v < 2 ^ c.width) (x y p : Nat) : bitOf c (clearCell c b x y) p =
      (bitOf c b p && !(inBounds c x y && decide (p = toLinear c x y))) := by
  have hw := width_pos c
  simp only [clearCell, mapCoords]
  cases h : inBounds c x y
  · simp
  have hv : blockAt b (toLinear c x y / c.width) &&&
      c.compl (1 <<< (toLinear c x y % c.width)) < 2 ^ c.width :=
    Nat.lt_of_le_of_lt Nat.and_le_left (blockAt_lt hb _)
  rw [if_pos rfl, bitOf_set hl hb (mapCoords_lt h) hv]
  simp only [bitOf, testBit_boardVal c b hb, Nat.testBit_and, testBit_compl, Nat.one_shiftLeft,
    Nat.testBit_two_pow, Bool.true_and, Nat.mod_lt _ hw, decide_true, Bool.true_xor]
  by_cases hq : p / c.width = toLinear c x y / c.width
  · rw [if_pos hq, ← hq]
    congr 2
    rw [decide_eq_decide]
    constructor
    · intro h2
      rw [← Nat.div_add_mod p c.width, ← Nat.div_add_mod (toLinear c x y) c.width, hq, h2]
    · rintro rfl; rfl
  · have : p ≠ toLinear c x y := fun h2 => hq (by rw [h2])
    simp [hq, this]

theorem setCell_lt {c : Config} {b : Board} (hb : ∀ v ∈ b, v < 2 ^ c.width) (x y : Nat) :
    ∀ v ∈ setCell c b x y, v < 2 ^ c.width := by
  simp only [setCell, mapCoords]
  split
  · apply set_lt hb
    apply Nat.or_lt_two_pow (blockAt_lt hb _)
    rw [Nat.one_shiftLeft]
    exact Nat.pow_lt_pow_right (by omega) (Nat.mod_lt _ (width_pos c))
  · exact hb

theorem clearCell_lt {c : Config} {b : Board} (hb : ∀ v ∈ b, v < 2 ^ c.width) (x y : Nat) :
    ∀ v ∈ clearCell c b x y, v < 2 ^ c.width := by
  simp only [clearCell, mapCoords]
  split
  · exact set_lt hb (Nat.lt_of_le_of_lt Nat.and_le_left (blockAt_lt hb _))
  · exact hb

/-- SET keeps a board well formed (`40_board_core.md` R132). -/
theorem boardWf_setCell {c : Config} {b : Board} (hb : BoardWf c b) (x y : Nat) :
    BoardWf c (setCell c b x y) := by
  have hl : (setCell c b x y).length = c.blocks := by
    simp only [setCell, mapCoords]; split <;> simp [hb.1]
  refine boardWf_of_bits hl (setCell_lt hb.2.1 x y) fun p hp => ?_
  rw [bitOf_setCell hb.1 hb.2.1, bitOf_of_cells_le hb hp]
  cases h : inBounds c x y
  · rfl
  · have := toLinear_lt h
    simp; omega

/-- UNSET keeps a board well formed (`40_board_core.md` R133). -/
theorem boardWf_clearCell {c : Config} {b : Board} (hb : BoardWf c b) (x y : Nat) :
    BoardWf c (clearCell c b x y) := by
  have hl : (clearCell c b x y).length = c.blocks := by
    simp only [clearCell, mapCoords]; split <;> simp [hb.1]
  refine boardWf_of_bits hl (clearCell_lt hb.2.1 x y) fun p hp => ?_
  rw [bitOf_clearCell hb.1 hb.2.1, bitOf_of_cells_le hb hp, Bool.false_and]

/-! ### comparing and combining -/

/-- EQ's comparison is equality of boards of `B` blocks (`40_board_core.md` R136). -/
theorem boardsEqual_iff {c : Config} {a b : Board} (ha : a.length = c.blocks)
    (hb : b.length = c.blocks) : boardsEqual c a b = true ↔ a = b := by
  simp only [boardsEqual, List.all_eq_true, List.mem_range, beq_iff_eq]
  constructor
  · intro h; exact board_ext (by omega) fun i hi => h i (by omega)
  · rintro rfl _ _; rfl

@[simp] theorem length_combineBoards (c : Config) (op : Block → Block → Block) (a b : Board) :
    (combineBoards c op a b).length = c.blocks := by simp [combineBoards]

/-- Block `i` of a combination depends on block `i` of each source only (`42_combinators.md`
R200). -/
@[simp] theorem blockAt_combineBoards (c : Config) (op : Block → Block → Block) (a b : Board)
    (i : Nat) : blockAt (combineBoards c op a b) i =
      if i < c.blocks then op (blockAt a i) (blockAt b i) else 0 := by simp [combineBoards]

/-- The bits of a combination, for an operation that acts bit by bit by `f` and keeps `W`-bit values
(`42_combinators.md` R200, R204). -/
theorem bitOf_combineBoards {c : Config} {op : Block → Block → Block} {f : Bool → Bool → Bool}
    (hop : ∀ u v k, (op u v).testBit k = f (u.testBit k) (v.testBit k))
    (hlt : ∀ u v, u < 2 ^ c.width → v < 2 ^ c.width → op u v < 2 ^ c.width)
    {a b : Board} (ha : BoardWf c a) (hb : BoardWf c b) (p : Nat) :
    (∀ w ∈ combineBoards c op a b, w < 2 ^ c.width) ∧
    bitOf c (combineBoards c op a b) p =
      (decide (p < c.blocks * c.width) && f (bitOf c a p) (bitOf c b p)) := by
  have hw := width_pos c
  have hlt' : ∀ w ∈ combineBoards c op a b, w < 2 ^ c.width := by
    intro w hw
    simp only [combineBoards, List.mem_map] at hw
    obtain ⟨i, _, rfl⟩ := hw
    exact hlt _ _ (blockAt_lt ha.2.1 i) (blockAt_lt hb.2.1 i)
  refine ⟨hlt', ?_⟩
  simp only [bitOf]
  rw [testBit_boardVal c _ hlt', testBit_boardVal c a ha.2.1, testBit_boardVal c b hb.2.1,
    blockAt_combineBoards]
  by_cases h : p / c.width < c.blocks
  · rw [if_pos h, hop]
    simp [(Nat.div_lt_iff_lt_mul hw).1 h]
  · have h' : ¬ p < c.blocks * c.width := fun h' => h ((Nat.div_lt_iff_lt_mul hw).2 h')
    rw [if_neg h]
    simp [h']

/-- A combination by an operation that is 0 on zeros keeps boards well formed (`42_combinators.md`
R204). -/
theorem boardWf_combineBoards {c : Config} {op : Block → Block → Block}
    {f : Bool → Bool → Bool} (hf : f false false = false)
    (hop : ∀ u v k, (op u v).testBit k = f (u.testBit k) (v.testBit k))
    (hlt : ∀ u v, u < 2 ^ c.width → v < 2 ^ c.width → op u v < 2 ^ c.width)
    {a b : Board} (ha : BoardWf c a) (hb : BoardWf c b) : BoardWf c (combineBoards c op a b) := by
  refine boardWf_of_bits (length_combineBoards c op a b)
    (bitOf_combineBoards hop hlt ha hb 0).1 fun p hp => ?_
  rw [(bitOf_combineBoards hop hlt ha hb p).2, bitOf_of_cells_le ha hp, bitOf_of_cells_le hb hp,
    hf, Bool.and_false]

theorem boardWf_and {c : Config} {a b : Board} (ha : BoardWf c a) (hb : BoardWf c b) :
    BoardWf c (combineBoards c (· &&& ·) a b) :=
  boardWf_combineBoards (f := (· && ·)) rfl (fun u v k => Nat.testBit_and u v k)
    (fun _ _ hu _ => Nat.lt_of_le_of_lt Nat.and_le_left hu) ha hb

theorem boardWf_or {c : Config} {a b : Board} (ha : BoardWf c a) (hb : BoardWf c b) :
    BoardWf c (combineBoards c (· ||| ·) a b) :=
  boardWf_combineBoards (f := (· || ·)) rfl (fun u v k => Nat.testBit_or u v k)
    (fun _ _ hu hv => Nat.or_lt_two_pow hu hv) ha hb

theorem boardWf_xor {c : Config} {a b : Board} (ha : BoardWf c a) (hb : BoardWf c b) :
    BoardWf c (combineBoards c (· ^^^ ·) a b) :=
  boardWf_combineBoards (f := Bool.xor) rfl (fun u v k => Nat.testBit_xor u v k)
    (fun _ _ hu hv => Nat.xor_lt_two_pow hu hv) ha hb

end Sys2Proof.Machine
end

