-- ==== Sys2Proof/Laws/Shift.lean ====
section
/-! SUPPORT. The shift function bit by bit, and that a shift keeps a board well formed
(`41_shift_engine.md` R162 to R164). -/

namespace Sys2Proof.Machine

theorem maskOf_lt (n : Nat) (f : Nat → Bool) : maskOf n f < 2 ^ n := by
  induction n with
  | zero => simp [maskOf]
  | succ k ih =>
    have : 2 ^ (k + 1) = 2 ^ k + 2 ^ k := by rw [Nat.pow_succ]; omega
    simp only [maskOf, this]
    split
    · exact Nat.add_lt_add_right ih _
    · exact Nat.lt_of_lt_of_le ih (Nat.le_add_right _ _)

/-- The bits of the mask that a predicate describes. -/
theorem testBit_maskOf (n : Nat) (f : Nat → Bool) (p : Nat) :
    (maskOf n f).testBit p = (decide (p < n) && f p) := by
  induction n with
  | zero => simp [maskOf]
  | succ k ih =>
    have hlt := maskOf_lt k f
    have e : (maskOf k f + if f k then 2 ^ k else 0) =
        2 ^ k * (if f k then 1 else 0) + maskOf k f := by split <;> simp [Nat.add_comm]
    simp only [maskOf]
    rw [e, Nat.testBit_two_pow_mul_add _ hlt]
    by_cases h : p < k
    · rw [if_pos h, ih]; simp [h, Nat.lt_succ_of_lt h]
    · rw [if_neg h]
      by_cases h2 : p = k
      · subst h2; cases f p <;> simp
      · have h3 : ¬ p < k + 1 := by omega
        have h4 : p - k ≠ 0 := by omega
        have h5 : ∀ b : Bool, (if b then 1 else 0 : Nat).testBit (p - k) = false := by
          intro b
          cases b
          · simp
          · rw [if_pos rfl]
            exact Nat.testBit_lt_two_pow (Nat.one_lt_two_pow h4)
        rw [h5]; simp [h3]

/-- The bits of the edge mask (`41_shift_engine.md` R163). -/
theorem testBit_keep (c : Config) (dx : Int) (p : Nat) :
    (keep c dx).testBit p = (decide (p < c.cells) && keepsColumn c dx (p % c.n)) :=
  testBit_maskOf _ _ _

/-- The edge mask is at most `FULL` (`41_shift_engine.md` R163). -/
theorem keep_le_full (c : Config) (dx : Int) : keep c dx ≤ c.full :=
  (le_full_iff c _).2 (maskOf_lt _ _)

/-- A move with no horizontal part has no edge mask (`41_shift_engine.md` R163). -/
theorem keep_zero (c : Config) : keep c 0 = c.full := by
  apply Nat.eq_of_testBit_eq
  intro p
  simp [testBit_keep, keepsColumn]

/-- The bits of the linear shift: position `p` gets what stood `delta` below it, if it and the place
it comes from exist (`41_shift_engine.md` R162). -/
theorem testBit_lshift {c : Config} {v : Nat} (hv : v ≤ c.full) (delta : Int) (p : Nat) :
    (lshift c v delta).testBit p =
      (decide (p < c.cells) && decide (delta ≤ p) && v.testBit ((p : Int) - delta).toNat) := by
  have hbit : ∀ q, c.cells ≤ q → v.testBit q = false := fun q hq =>
    Nat.testBit_lt_two_pow (Nat.lt_of_lt_of_le ((le_full_iff c _).1 hv)
      (Nat.pow_le_pow_right (by omega) hq))
  unfold lshift
  split
  · next h =>
    rw [Nat.testBit_and, testBit_full, Nat.testBit_shiftLeft]
    have e1 : ((p : Int) - delta).toNat = p - delta.toNat := by omega
    have e2 : decide (p ≥ delta.toNat) = decide (delta ≤ (p : Int)) := by
      rw [decide_eq_decide]; omega
    rw [e1, e2]
    cases decide (p < c.cells) <;> simp
  · next h =>
    rw [Nat.testBit_shiftRight]
    have e1 : ((p : Int) - delta).toNat = (-delta).toNat + p := by omega
    have e2 : decide (delta ≤ (p : Int)) = true := by rw [decide_eq_true_iff]; omega
    rw [e1, e2, Bool.and_true]
    by_cases hp : p < c.cells
    · simp [hp]
    · rw [hbit _ (by omega)]; simp

/-- A linear shift stays within the meaningful positions (`41_shift_engine.md` R162). -/
theorem lshift_le_full {c : Config} {v : Nat} (hv : v ≤ c.full) (delta : Int) :
    lshift c v delta ≤ c.full := by
  unfold lshift
  split
  · exact Nat.and_le_right
  · exact Nat.le_trans (Nat.shiftRight_le _ _) hv

/-- A move shift stays within the meaningful positions (`41_shift_engine.md` R164). -/
theorem shiftMove_le_full (c : Config) (v : Nat) (dx dy : Int) : shiftMove c v dx dy ≤ c.full :=
  Nat.le_trans Nat.and_le_right (keep_le_full c dx)

/-- The bits of the move shift (`41_shift_engine.md` R164). -/
theorem testBit_shiftMove {c : Config} {v : Nat} (hv : v ≤ c.full) (dx dy : Int) (p : Nat) :
    (shiftMove c v dx dy).testBit p = (decide (p < c.cells) && decide (linearShift c dx dy ≤ p) &&
      v.testBit ((p : Int) - linearShift c dx dy).toNat && keepsColumn c dx (p % c.n)) := by
  rw [shiftMove, Nat.testBit_and, testBit_lshift hv, testBit_keep]
  cases decide (p < c.cells) <;> simp

/-- A moved board is well formed (`41_shift_engine.md` R164). -/
theorem moveBoard_wf (c : Config) (b : Board) (dx dy : Int) : BoardWf c (moveBoard c b dx dy) :=
  boardOf_wf c _ (shiftMove_le_full c _ dx dy)

/-- The integer of a moved board is the shift function of its integer. -/
theorem boardVal_moveBoard (c : Config) (b : Board) (dx dy : Int) :
    boardVal c (moveBoard c b dx dy) = shiftMove c (boardVal c b) dx dy :=
  boardVal_boardOf c _ (shiftMove_le_full c _ dx dy)

/-- A raw shift keeps a board well formed (`41_shift_engine.md` R177, R178). -/
theorem rawShiftBoard_wf {c : Config} {b : Board} (hb : BoardWf c b) (delta : Int) :
    BoardWf c (rawShiftBoard c b delta) :=
  boardOf_wf c _ (lshift_le_full hb.2.2 delta)

/-- The integer of a raw-shifted board. -/
theorem boardVal_rawShiftBoard {c : Config} {b : Board} (hb : BoardWf c b) (delta : Int) :
    boardVal c (rawShiftBoard c b delta) = lshift c (boardVal c b) delta :=
  boardVal_boardOf c _ (lshift_le_full hb.2.2 delta)

end Sys2Proof.Machine
end

