-- ==== Sys2Proof/Laws/Exec.lean ====
section
/-! SUPPORT. All that a meaning and a step can do, said once: what the shared shapes of the commands
answer, and the cases of one step. -/

namespace Sys2Proof.Machine

/-- The three things a step can be: idle, one decoded command, one word that is no command
(`20_memory.md` R63, `60_exceptions.md` R302). -/
theorem step_cases (s : State) :
    (s.inbox = [] ∧ step s = .next s) ∨
    (∃ cmd rest i, s.inbox = cmd :: rest ∧ decode cmd = .ok i ∧
      step s = exec i { s with inbox := rest }) ∨
    (∃ cmd rest e, s.inbox = cmd :: rest ∧ decode cmd = .error e ∧
      step s = .next (({ s with inbox := rest }.record .illegalOp).answer (.err .illegalOp) 0)) := by
  cases hq : s.inbox with
  | nil => exact .inl ⟨rfl, by simp [step, State.takeCommand, hq, State.idle]⟩
  | cons cmd rest =>
    cases hd : decode cmd with
    | ok i =>
      exact .inr (.inl ⟨cmd, rest, i, rfl, hd, by simp [step, State.takeCommand, hq, hd]⟩)
    | error e =>
      exact .inr (.inr ⟨cmd, rest, e, rfl, hd, by
        simp [step, State.takeCommand, hq, hd, State.illegalOp, State.raise]⟩)

/-- All that a command which writes one board register and answers OK can do. -/
theorem setBoard_respond_eq_next {s t : State} {r : Reg} {b : Board} {d : Nat} :
    (s.setBoard r b).respond d = .next t ↔ t = (s.setBoard r b).answer .ok d := respond_eq_next

/-- All that a move shift can do (`41_shift_engine.md` section 2). -/
theorem shiftInto_eq_next {s t : State} {rd rs1 : Reg} {dx dy : Int} :
    s.shiftInto rd rs1 dx dy = .next t ↔
      t = (s.setBoard rd (moveBoard s.cfg (s.board rs1) dx dy)).answer .ok 0 := respond_eq_next

/-- A move shift completes, leaves the moved board in `rd` and keeps the invariant. -/
theorem shiftInto_completes {s : State} (hs : s.Wf) (rd rs1 : Reg) (dx dy : Int) :
    ∃ t, s.shiftInto rd rs1 dx dy = .next t ∧ Completed s t 0 ∧ SameBoardsBut rd s t ∧ t.Wf ∧
      t.board rd = moveBoard s.cfg (s.board rs1) dx dy :=
  ⟨_, rfl, completed_setBoard s rd _ 0, sameBoardsBut_setBoard s rd _ _ _,
    wf_setBoard hs rd (moveBoard_wf s.cfg _ dx dy), by simp⟩

/-- All that a reserved move kind can do (`41_shift_engine.md` R176). -/
theorem illegalMove_eq_next {s t : State} {rd : Reg} :
    s.illegalMove rd = .next t ↔ t = ((s.setBoard rd (zeroBoard s.cfg)).record
      .illegalMove).answer (.err .illegalMove) 0 := raise_eq_next

/-- All that a raw block write can do (`40_board_core.md` R141). -/
theorem execWrblk_eq_next {s t : State} {rd : Reg} {index : BitVec 16} {wdata : Block} :
    execWrblk rd index wdata s = .next t ↔
      (s.cfg.blocks ≤ index.toNat ∧ t = (s.record .badIndex).answer (.err .badIndex) 0) ∨
      (index.toNat < s.cfg.blocks ∧ t = (s.blkWrite rd index.toNat wdata).answer .ok 0) := by
  unfold execWrblk
  split
  · next h => simp [raise_eq_next, h, Nat.not_lt.2 h]
  · next h => simp [respond_eq_next, h, Nat.lt_of_not_le h]

/-- All that a raw block read can do (`40_board_core.md` R140). -/
theorem execRdblk_eq_next {s t : State} {rs1 : Reg} {index : BitVec 16} :
    execRdblk rs1 index s = .next t ↔
      (s.cfg.blocks ≤ index.toNat ∧ t = (s.record .badIndex).answer (.err .badIndex) 0) ∨
      (index.toNat < s.cfg.blocks ∧ t = s.answer .ok (s.blkRead rs1 index.toNat)) := by
  unfold execRdblk
  split
  · next h => simp [raise_eq_next, h, Nat.not_lt.2 h]
  · next h => simp [respond_eq_next, h, Nat.lt_of_not_le h]

/-- The CSRs that exist (`10_state.md` R26 to R29). -/
theorem csr_eq_none {s : State} {num : BitVec 8} : s.csr num = none ↔ 3 ≤ num.toNat := by
  unfold State.csr
  split <;> first
    | (simp; done)
    | (simp only [true_iff]
       rename_i h0 h1 h2
       have e0 : num.toNat ≠ 0 := fun h => h0 (BitVec.eq_of_toNat_eq (by simpa using h))
       have e1 : num.toNat ≠ 1 := fun h => h1 (BitVec.eq_of_toNat_eq (by simpa using h))
       have e2 : num.toNat ≠ 2 := fun h => h2 (BitVec.eq_of_toNat_eq (by simpa using h))
       omega)

/-- All that a CSR read can do (`43_system.md` R221). -/
theorem execRdcsr_eq_next {s t : State} {csr : BitVec 8} :
    execRdcsr csr s = .next t ↔
      (∃ v, s.csr csr = some v ∧ t = s.answer .ok v.toNat) ∨
      (s.csr csr = none ∧ t = (s.record .badCsr).answer (.err .badCsr) 0) := by
  unfold execRdcsr
  cases h : s.csr csr <;> simp [respond_eq_next, raise_eq_next]

/-- No command changes the shape or the commands still pending. -/
theorem exec_keeps {i : Instr} {s t : State} (h : exec i s = .next t) :
    t.cfg = s.cfg ∧ t.inbox = s.inbox := by
  cases i <;> simp only [exec] at h
  case rdblk rs1 index =>
    obtain ⟨_, rfl⟩ | ⟨_, rfl⟩ := execRdblk_eq_next.1 h <;> exact ⟨rfl, rfl⟩
  case wrblk rd index wdata =>
    obtain ⟨_, rfl⟩ | ⟨_, rfl⟩ := execWrblk_eq_next.1 h <;> exact ⟨rfl, rfl⟩
  case rdcsr csr =>
    obtain ⟨_, _, rfl⟩ | ⟨_, rfl⟩ := execRdcsr_eq_next.1 h <;> exact ⟨rfl, rfl⟩
  all_goals (injection h with h; subst h; exact ⟨rfl, rfl⟩)

end Sys2Proof.Machine
end

