-- ==== Sys2Proof/Laws/PerInstr.lean ====
section
/-! SUPPORT. Per instruction: its encoded word selects the row of the opcode map that carries its
mnemonic (`30_encoding.md` R87). -/

namespace Sys2Proof

/-- The word of an instruction selects its own row of the opcode map (`30_encoding.md` R87). -/
def Laws.MatchesRow.Statement (i : Instr) : Prop :=
  ∃ row ∈ opcodeMap, row.mnemonic = i.mnemonic ∧ row.selects (encode i).word = true

/-- Selecting a row, field by field. -/
theorem selects_toWord {row : OpRow} {fl : Fields}
    (h1 : fl.op &&& (Fields.ofWord row.mask).op = (Fields.ofWord row.bits).op)
    (h2 : fl.rd &&& (Fields.ofWord row.mask).rd = (Fields.ofWord row.bits).rd)
    (h3 : fl.rs1 &&& (Fields.ofWord row.mask).rs1 = (Fields.ofWord row.bits).rs1)
    (h4 : fl.f &&& (Fields.ofWord row.mask).f = (Fields.ofWord row.bits).f)
    (h5 : fl.hi &&& (Fields.ofWord row.mask).hi = (Fields.ofWord row.bits).hi)
    (h6 : fl.lo &&& (Fields.ofWord row.mask).lo = (Fields.ofWord row.bits).lo) :
    row.selects fl.toWord = true := by
  rw [OpRow.selects, beq_iff_eq]
  apply word_eq_of_fields
  have e : Fields.ofWord fl.toWord = fl := Fields.ofWord_toWord fl
  have and_slice : ∀ (a b : CmdWord) (lo len : Nat),
      (a &&& b).extractLsb' lo len = a.extractLsb' lo len &&& b.extractLsb' lo len := by
    intro a b lo len; ext i hi; simp
  apply Fields.ext_fields <;> simp only [Fields.ofWord, and_slice] at *
  all_goals simp_all [Fields.ext_fields_iff]

/-- A field that the row's mask leaves free. -/
theorem free_field {w : Nat} {x m b : BitVec w} (hm : m = 0#w) (hb : b = 0#w) : x &&& m = b := by
  simp [hm, hb]

/-- The low bit of the field that holds `rs2` is 0. -/
theorem rs2_field (r : Reg) : fOfRs2 r &&& 1#4 = 0#4 := by revert r; decide

/-- The fixed bits of the kinds 10 and 11. -/
theorem kind10_field (sel : BitVec 1) : (0b101#3 ++ sel) &&& 0xE#4 = 0xA#4 := by
  revert sel; decide

/-- The fixed bits of the kinds 12 to 15. -/
theorem kind12_field (sel : BitVec 2) : (0b11#2 ++ sel) &&& 0xC#4 = 0xC#4 := by
  revert sel; decide

theorem Laws.MatchesRow.nop : Statement .nop :=
  ⟨opcodeMap[0], by simp [opcodeMap], rfl, by
    apply selects_toWord <;> decide⟩

theorem Laws.MatchesRow.clr (rd : Reg) : Statement (.clr rd) :=
  ⟨opcodeMap[1], by simp [opcodeMap], rfl, by
    apply selects_toWord <;>
    first
      | (simp only [encodeFields]; decide)
      | exact free_field (by decide) (by decide)⟩

theorem Laws.MatchesRow.mov (rd rs1 : Reg) : Statement (.mov rd rs1) :=
  ⟨opcodeMap[2], by simp [opcodeMap], rfl, by
    apply selects_toWord <;>
    first
      | (simp only [encodeFields]; decide)
      | exact free_field (by decide) (by decide)⟩

theorem Laws.MatchesRow.set (rd : Reg) (x y : BitVec 8) : Statement (.set rd x y) :=
  ⟨opcodeMap[3], by simp [opcodeMap], rfl, by
    apply selects_toWord <;>
    first
      | (simp only [encodeFields]; decide)
      | exact free_field (by decide) (by decide)⟩

theorem Laws.MatchesRow.unset (rd : Reg) (x y : BitVec 8) : Statement (.unset rd x y) :=
  ⟨opcodeMap[4], by simp [opcodeMap], rfl, by
    apply selects_toWord <;>
    first
      | (simp only [encodeFields]; decide)
      | exact free_field (by decide) (by decide)⟩

theorem Laws.MatchesRow.test (rs1 : Reg) (x y : BitVec 8) : Statement (.test rs1 x y) :=
  ⟨opcodeMap[5], by simp [opcodeMap], rfl, by
    apply selects_toWord <;>
    first
      | (simp only [encodeFields]; decide)
      | exact free_field (by decide) (by decide)⟩

theorem Laws.MatchesRow.cnt (rs1 : Reg) : Statement (.cnt rs1) :=
  ⟨opcodeMap[6], by simp [opcodeMap], rfl, by
    apply selects_toWord <;>
    first
      | (simp only [encodeFields]; decide)
      | exact free_field (by decide) (by decide)⟩

theorem Laws.MatchesRow.eq (rs1 rs2 : Reg) : Statement (.eq rs1 rs2) :=
  ⟨opcodeMap[7], by simp [opcodeMap], rfl, by
    apply selects_toWord <;>
    first
      | (simp only [encodeFields]; decide)
      | exact free_field (by decide) (by decide)
      | exact rs2_field rs2⟩

theorem Laws.MatchesRow.and (rd rs1 rs2 : Reg) : Statement (.and rd rs1 rs2) :=
  ⟨opcodeMap[8], by simp [opcodeMap], rfl, by
    apply selects_toWord <;>
    first
      | (simp only [encodeFields]; decide)
      | exact free_field (by decide) (by decide)
      | exact rs2_field rs2⟩

theorem Laws.MatchesRow.or (rd rs1 rs2 : Reg) : Statement (.or rd rs1 rs2) :=
  ⟨opcodeMap[9], by simp [opcodeMap], rfl, by
    apply selects_toWord <;>
    first
      | (simp only [encodeFields]; decide)
      | exact free_field (by decide) (by decide)
      | exact rs2_field rs2⟩

theorem Laws.MatchesRow.xor (rd rs1 rs2 : Reg) : Statement (.xor rd rs1 rs2) :=
  ⟨opcodeMap[10], by simp [opcodeMap], rfl, by
    apply selects_toWord <;>
    first
      | (simp only [encodeFields]; decide)
      | exact free_field (by decide) (by decide)
      | exact rs2_field rs2⟩

theorem Laws.MatchesRow.shmID (rd rs1 : Reg) : Statement (.shmID rd rs1) :=
  ⟨opcodeMap[11], by simp [opcodeMap], rfl, by
    apply selects_toWord <;>
    first
      | (simp only [encodeFields, shmFields]; decide)
      | exact free_field (by decide) (by decide)⟩

theorem Laws.MatchesRow.shmU (rd rs1 : Reg) (kv : BitVec 8) : Statement (.shmU rd rs1 kv) :=
  ⟨opcodeMap[12], by simp [opcodeMap], rfl, by
    apply selects_toWord <;>
    first
      | (simp only [encodeFields, shmFields]; decide)
      | exact free_field (by decide) (by decide)⟩

theorem Laws.MatchesRow.shmD (rd rs1 : Reg) (kv : BitVec 8) : Statement (.shmD rd rs1 kv) :=
  ⟨opcodeMap[13], by simp [opcodeMap], rfl, by
    apply selects_toWord <;>
    first
      | (simp only [encodeFields, shmFields]; decide)
      | exact free_field (by decide) (by decide)⟩

theorem Laws.MatchesRow.shmL (rd rs1 : Reg) (kh : BitVec 8) : Statement (.shmL rd rs1 kh) :=
  ⟨opcodeMap[14], by simp [opcodeMap], rfl, by
    apply selects_toWord <;>
    first
      | (simp only [encodeFields, shmFields]; decide)
      | exact free_field (by decide) (by decide)⟩

theorem Laws.MatchesRow.shmR (rd rs1 : Reg) (kh : BitVec 8) : Statement (.shmR rd rs1 kh) :=
  ⟨opcodeMap[15], by simp [opcodeMap], rfl, by
    apply selects_toWord <;>
    first
      | (simp only [encodeFields, shmFields]; decide)
      | exact free_field (by decide) (by decide)⟩

theorem Laws.MatchesRow.shmUL (rd rs1 : Reg) (kv kh : BitVec 8) : Statement (.shmUL rd rs1 kv kh) :=
  ⟨opcodeMap[16], by simp [opcodeMap], rfl, by
    apply selects_toWord <;>
    first
      | (simp only [encodeFields, shmFields]; decide)
      | exact free_field (by decide) (by decide)⟩

theorem Laws.MatchesRow.shmUR (rd rs1 : Reg) (kv kh : BitVec 8) : Statement (.shmUR rd rs1 kv kh) :=
  ⟨opcodeMap[17], by simp [opcodeMap], rfl, by
    apply selects_toWord <;>
    first
      | (simp only [encodeFields, shmFields]; decide)
      | exact free_field (by decide) (by decide)⟩

theorem Laws.MatchesRow.shmDL (rd rs1 : Reg) (kv kh : BitVec 8) : Statement (.shmDL rd rs1 kv kh) :=
  ⟨opcodeMap[18], by simp [opcodeMap], rfl, by
    apply selects_toWord <;>
    first
      | (simp only [encodeFields, shmFields]; decide)
      | exact free_field (by decide) (by decide)⟩

theorem Laws.MatchesRow.shmDR (rd rs1 : Reg) (kv kh : BitVec 8) : Statement (.shmDR rd rs1 kv kh) :=
  ⟨opcodeMap[19], by simp [opcodeMap], rfl, by
    apply selects_toWord <;>
    first
      | (simp only [encodeFields, shmFields]; decide)
      | exact free_field (by decide) (by decide)⟩

theorem Laws.MatchesRow.shmRsv9 (rd rs1 : Reg) (hi lo : BitVec 8) : Statement (.shmRsv9 rd rs1 hi lo) :=
  ⟨opcodeMap[20], by simp [opcodeMap], rfl, by
    apply selects_toWord <;>
    first
      | (simp only [encodeFields, shmFields]; decide)
      | exact free_field (by decide) (by decide)⟩

theorem Laws.MatchesRow.shmRsv10to11 (rd rs1 : Reg) (sel : BitVec 1) (hi lo : BitVec 8) : Statement (.shmRsv10to11 rd rs1 sel hi lo) :=
  ⟨opcodeMap[21], by simp [opcodeMap], rfl, by
    apply selects_toWord <;>
    first
      | (simp only [encodeFields, shmFields]; decide)
      | exact free_field (by decide) (by decide)
      | exact kind10_field sel⟩

theorem Laws.MatchesRow.shmRsv12to15 (rd rs1 : Reg) (sel : BitVec 2) (hi lo : BitVec 8) : Statement (.shmRsv12to15 rd rs1 sel hi lo) :=
  ⟨opcodeMap[22], by simp [opcodeMap], rfl, by
    apply selects_toWord <;>
    first
      | (simp only [encodeFields, shmFields]; decide)
      | exact free_field (by decide) (by decide)
      | exact kind12_field sel⟩

theorem Laws.MatchesRow.rshl (rd rs1 : Reg) (count : BitVec 16) : Statement (.rshl rd rs1 count) :=
  ⟨opcodeMap[23], by simp [opcodeMap], rfl, by
    apply selects_toWord <;>
    first
      | (simp only [encodeFields]; decide)
      | exact free_field (by decide) (by decide)⟩

theorem Laws.MatchesRow.rshr (rd rs1 : Reg) (count : BitVec 16) : Statement (.rshr rd rs1 count) :=
  ⟨opcodeMap[24], by simp [opcodeMap], rfl, by
    apply selects_toWord <;>
    first
      | (simp only [encodeFields]; decide)
      | exact free_field (by decide) (by decide)⟩

theorem Laws.MatchesRow.rdblk (rs1 : Reg) (index : BitVec 16) : Statement (.rdblk rs1 index) :=
  ⟨opcodeMap[25], by simp [opcodeMap], rfl, by
    apply selects_toWord <;>
    first
      | (simp only [encodeFields]; decide)
      | exact free_field (by decide) (by decide)⟩

theorem Laws.MatchesRow.wrblk (rd : Reg) (index : BitVec 16) (wdata : Block) : Statement (.wrblk rd index wdata) :=
  ⟨opcodeMap[26], by simp [opcodeMap], rfl, by
    apply selects_toWord <;>
    first
      | (simp only [encodeFields]; decide)
      | exact free_field (by decide) (by decide)⟩

theorem Laws.MatchesRow.rdcsr (csr : BitVec 8) : Statement (.rdcsr csr) :=
  ⟨opcodeMap[27], by simp [opcodeMap], rfl, by
    apply selects_toWord <;>
    first
      | (simp only [encodeFields]; decide)
      | exact free_field (by decide) (by decide)⟩

theorem Laws.MatchesRow.clrerr : Statement .clrerr :=
  ⟨opcodeMap[28], by simp [opcodeMap], rfl, by
    apply selects_toWord <;> decide⟩

end Sys2Proof
end

