-- ==== Sys2Proof/Tests/Slice0.lean ====
section
/-! SUPPORT. The model's own tests. Every expected value is taken from the spec: a `V`, `S` or `P`
number names a row of `spec/95_test_vectors.md`, an `R` number the example of that rule. The witness
theorems show a state and operands that meet the hypotheses of an obligation. -/

namespace Sys2Proof.Machine

/-! ### Helpers -/

def shape5 : Config := ⟨5, .w8⟩
def shape8 : Config := ⟨8, .w8⟩
def shape16 : Config := ⟨16, .w8⟩

/-- A unit just reset whose `b0` and `b1` hold the given boards. -/
def unit (c : Config) (b0 b1 : Board) : State := ((State.resetOf c).setBoard 0 b0).setBoard 1 b1

/-- A unit of the shape 5×5, `W = 8`, with `b0` and `b1` given. -/
def unit5 (b0 b1 : Board) : State := unit shape5 b0 b1

/-- The unit with one command pending. -/
def offer (s : State) (w : CmdWord) (wdata : Block) : State := { s with inbox := [⟨w, wdata⟩] }

/-- After one step: the board in `r`, the responses and `ERR`. -/
def after (s : State) (r : Reg) (w : CmdWord) (wdata : Block) :
    Option (Board × List Response × BitVec 4) :=
  match step (offer s w wdata) with
  | .next t => some (t.board r, t.outbox, t.err)
  | .fault _ => none
  | .refused _ => none

def full5 : Board := [0xFF, 0xFF, 0xFF, 0x01]
def empty5 : Board := [0, 0, 0, 0]
def three5 : Board := [0x01, 0x10, 0x00, 0x01]

/-! ### Ill-formed terms that the checks refuse -/

/-- R141: the write data is exactly `W` bits. -/
theorem test_wf_refuses_wide_wrblk : Instr.wf shape5 (.wrblk 0 0 0x100) = false := by decide
theorem test_wf_accepts_widest_wrblk : Instr.wf shape5 (.wrblk 0 0 0xFF) = true := by decide
/-- R8: `1 ≤ N ≤ 255`. -/
theorem test_legal_refuses_zero : ¬ Config.legal ⟨0, .w8⟩ := by decide
theorem test_legal_refuses_256 : ¬ Config.legal ⟨256, .w64⟩ := by decide
/-- R80: the write data port is `W` bits wide. -/
theorem test_command_refuses_wide : ¬ Command.wf shape5 ⟨0x44000000#32, 0x100⟩ := by decide
/-- R22: a bit of the padding. -/
theorem test_board_refuses_padding : ¬ BoardWf shape5 [0, 0, 0, 2] := by decide
/-- R20: a board has `B` blocks. -/
theorem test_board_refuses_length : ¬ BoardWf shape5 [0, 0, 0] := by decide

/-! ### Decoding: words written out from the spec -/

theorem test_decode_nop : decode ⟨0x00000000#32, 0⟩ = .ok .nop := by decide
theorem test_decode_clr : decode ⟨0x05000000#32, 0⟩ = .ok (.clr 2) := by decide
theorem test_decode_mov : decode ⟨0x09A00000#32, 0⟩ = .ok (.mov 3 2) := by decide
theorem test_decode_set : decode ⟨0x0C800102#32, 0⟩ = .ok (.set 1 2 1) := by decide
theorem test_decode_unset : decode ⟨0x10800102#32, 0⟩ = .ok (.unset 1 2 1) := by decide
theorem test_decode_test : decode ⟨0x14100201#32, 0⟩ = .ok (.test 1 1 2) := by decide
theorem test_decode_cnt : decode ⟨0x18500000#32, 0⟩ = .ok (.cnt 5) := by decide
theorem test_decode_eq : decode ⟨0x1C260000#32, 0⟩ = .ok (.eq 2 3) := by decide
theorem test_decode_and : decode ⟨0x220E0000#32, 0⟩ = .ok (.and 4 0 7) := by decide
theorem test_decode_or : decode ⟨0x26940000#32, 0⟩ = .ok (.or 5 1 2) := by decide
theorem test_decode_xor : decode ⟨0x29220000#32, 0⟩ = .ok (.xor 2 2 1) := by decide
theorem test_decode_shmID : decode ⟨0x30800000#32, 0⟩ = .ok (.shmID 1 0) := by decide
theorem test_decode_shmU : decode ⟨0x31B10100#32, 0⟩ = .ok (.shmU 3 3 1) := by decide
theorem test_decode_shmD : decode ⟨0x3082FF00#32, 0⟩ = .ok (.shmD 1 0 255) := by decide
theorem test_decode_shmL : decode ⟨0x32130001#32, 0⟩ = .ok (.shmL 4 1 1) := by decide
theorem test_decode_shmR : decode ⟨0x308400FF#32, 0⟩ = .ok (.shmR 1 0 255) := by decide
theorem test_decode_shmUL : decode ⟨0x31050102#32, 0⟩ = .ok (.shmUL 2 0 1 2) := by decide
theorem test_decode_shmUR : decode ⟨0x30860201#32, 0⟩ = .ok (.shmUR 1 0 2 1) := by decide
theorem test_decode_shmDL : decode ⟨0x30870102#32, 0⟩ = .ok (.shmDL 1 0 1 2) := by decide
theorem test_decode_shmDR : decode ⟨0x31080102#32, 0⟩ = .ok (.shmDR 2 0 1 2) := by decide
theorem test_decode_kind9 : decode ⟨0x30890000#32, 0⟩ = .ok (.shmRsv9 1 0 0 0) := by decide
/-- R176: kind 11, `rd = 2`, `hi = 0x12`, `lo = 0x34`. -/
theorem test_decode_kind11 : decode ⟨0x310B1234#32, 0⟩ =
    .ok (.shmRsv10to11 2 0 1 0x12 0x34) := by decide
/-- V49.6. -/
theorem test_decode_kind15 : decode ⟨0x32BFFFFF#32, 0⟩ =
    .ok (.shmRsv12to15 5 3 3 0xFF 0xFF) := by decide
theorem test_decode_rshl : decode ⟨0x35800001#32, 0⟩ = .ok (.rshl 3 0 1) := by decide
theorem test_decode_rshr : decode ⟨0x3A200001#32, 0⟩ = .ok (.rshr 4 2 1) := by decide
theorem test_decode_rdblk : decode ⟨0x4010FFFF#32, 0⟩ = .ok (.rdblk 1 65535) := by decide
theorem test_decode_wrblk : decode ⟨0x45800001#32, 0x7F⟩ = .ok (.wrblk 3 1 0x7F) := by decide
theorem test_decode_rdcsr : decode ⟨0x480000FF#32, 0⟩ = .ok (.rdcsr 255) := by decide
theorem test_decode_clrerr : decode ⟨0x4C000000#32, 0⟩ = .ok .clrerr := by decide

/-- V70.1, V70.3, V70.4, V70.5: reserved opcodes. -/
theorem test_decode_refuses_opcodes :
    decode ⟨0x2C000000#32, 0⟩ = .error (.reservedOpcode 0x0B) ∧
    decode ⟨0x3C000000#32, 0⟩ = .error (.reservedOpcode 0x0F) ∧
    decode ⟨0x50000000#32, 0⟩ = .error (.reservedOpcode 0x14) ∧
    decode ⟨0xFFFFFFFF#32, 0⟩ = .error (.reservedOpcode 0x3F) := by decide

/-- V70.6 to V70.14: must-be-zero fields. -/
theorem test_decode_refuses_stray_bits :
    decode ⟨0x00000001#32, 0⟩ = .error (.strayBits "NOP") ∧
    decode ⟨0x04810000#32, 0⟩ = .error (.strayBits "CLR") ∧
    decode ⟨0x18900000#32, 0⟩ = .error (.strayBits "CNT") ∧
    decode ⟨0x30810101#32, 0⟩ = .error (.strayBits "SHM.U") ∧
    decode ⟨0x30830101#32, 0⟩ = .error (.strayBits "SHM.L") ∧
    decode ⟨0x30800001#32, 0⟩ = .error (.strayBits "SHM.ID") ∧
    decode ⟨0x21030000#32, 0⟩ = .error (.strayBits "AND") ∧
    decode ⟨0x4C000001#32, 0⟩ = .error (.strayBits "CLRERR") ∧
    decode ⟨0x48000102#32, 0⟩ = .error (.strayBits "RDCSR") := by decide

/-! ### One step of each command -/

/-- V61.1. -/
theorem test_nop : after (unit5 three5 empty5) 0 0x00000000#32 0 =
    some (three5, [⟨.ok, 0⟩], 0) := by decide
/-- V2.17. -/
theorem test_clr : after (unit5 empty5 full5) 1 0x04800000#32 0 =
    some (empty5, [⟨.ok, 0⟩], 0) := by decide
/-- S2. -/
theorem test_mov : after (unit5 [1, 0, 2, 0] empty5) 1 0x08800000#32 0 =
    some ([1, 0, 2, 0], [⟨.ok, 0⟩], 0) := by decide
/-- V1.2: position 7, the last bit of block 0. -/
theorem test_set : after (unit5 empty5 [1, 0, 0, 0]) 1 0x0C800102#32 0 =
    some ([0x81, 0, 0, 0], [⟨.ok, 0⟩], 0) := by decide
/-- V1.5: out of bounds in x. -/
theorem test_set_out_of_bounds : after (unit5 empty5 [0x81, 1, 0, 1]) 1 0x0C800005#32 0 =
    some ([0x81, 1, 0, 1], [⟨.ok, 0⟩], 0) := by decide
/-- V1.11. -/
theorem test_unset : after (unit5 empty5 [0x81, 1, 0, 1]) 1 0x10800102#32 0 =
    some ([1, 1, 0, 1], [⟨.ok, 0⟩], 0) := by decide
/-- V1.12: the cell is clear already. -/
theorem test_unset_clear : after (unit5 empty5 [1, 1, 0, 1]) 1 0x10800102#32 0 =
    some ([1, 1, 0, 1], [⟨.ok, 0⟩], 0) := by decide
/-- V1.8. -/
theorem test_test : after (unit5 empty5 [0x81, 1, 0, 1]) 1 0x14100102#32 0 =
    some ([0x81, 1, 0, 1], [⟨.ok, 1⟩], 0) := by decide
/-- V1.9: the coordinates the other way round. -/
theorem test_test_swapped : after (unit5 empty5 [0x81, 1, 0, 1]) 1 0x14100201#32 0 =
    some ([0x81, 1, 0, 1], [⟨.ok, 0⟩], 0) := by decide
/-- S6: `CNT` of the full board. -/
theorem test_cnt : after (unit5 full5 empty5) 0 0x18000000#32 0 =
    some (full5, [⟨.ok, 0x19⟩], 0) := by decide
/-- V2.15 on `b0`, `b1`: one bit differs. -/
theorem test_eq : after (unit5 [0xFF, 0xFF, 0xFF, 0] [0xFF, 0x7F, 0xFF, 0]) 0 0x1C020000#32 0 =
    some ([0xFF, 0xFF, 0xFF, 0], [⟨.ok, 0⟩], 0) := by decide
/-- R136: a register equals itself. -/
theorem test_eq_self : after (unit5 three5 empty5) 0 0x1C000000#32 0 =
    some (three5, [⟨.ok, 1⟩], 0) := by decide
/-- V51.1. -/
theorem test_and : after (unit5 [0x21, 0x84, 0x10, 0] [0x1F, 0, 0, 0]) 2 0x21020000#32 0 =
    some ([1, 0, 0, 0], [⟨.ok, 0⟩], 0) := by decide
/-- V51.2. -/
theorem test_or : after (unit5 [0x21, 0x84, 0x10, 0] [0x1F, 0, 0, 0]) 2 0x25020000#32 0 =
    some ([0x3F, 0x84, 0x10, 0], [⟨.ok, 0⟩], 0) := by decide
/-- V51.3. -/
theorem test_xor : after (unit5 [0x21, 0x84, 0x10, 0] [0x1F, 0, 0, 0]) 2 0x29020000#32 0 =
    some ([0x3E, 0x84, 0x10, 0], [⟨.ok, 0⟩], 0) := by decide
/-- V21.4. -/
theorem test_shmID : after (unit5 three5 empty5) 1 0x30800000#32 0 =
    some (three5, [⟨.ok, 0⟩], 0) := by decide
/-- V21.5. -/
theorem test_shmU : after (unit5 three5 empty5) 1 0x30810100#32 0 =
    some ([0x20, 0, 0x02, 0], [⟨.ok, 0⟩], 0) := by decide
/-- V41.1: the shift is `W` exactly. -/
theorem test_shmU_full_block :
    after (unit shape8 [0x81, 0, 0, 0, 0, 0, 0, 0xFF] [0, 0, 0, 0, 0, 0, 0, 0]) 1 0x30810100#32 0 =
    some ([0, 0x81, 0, 0, 0, 0, 0, 0], [⟨.ok, 0⟩], 0) := by decide
/-- V21.6. -/
theorem test_shmD : after (unit5 three5 empty5) 1 0x30820100#32 0 =
    some ([0x80, 0, 0x08, 0], [⟨.ok, 0⟩], 0) := by decide
/-- V21.7. -/
theorem test_shmL : after (unit5 three5 empty5) 1 0x30830001#32 0 =
    some ([0, 0x08, 0x80, 0], [⟨.ok, 0⟩], 0) := by decide
/-- S5: column 2 leaves the board. -/
theorem test_shmL_off_board : after (unit5 [0x84, 0x10, 0x42, 0] full5) 1 0x30830003#32 0 =
    some (empty5, [⟨.ok, 0⟩], 0) := by decide
/-- V21.8. -/
theorem test_shmR : after (unit5 three5 empty5) 1 0x30840001#32 0 =
    some ([0x02, 0x20, 0, 0], [⟨.ok, 0⟩], 0) := by decide
set_option maxRecDepth 4000 in
/-- V42.1: `delta = W` and the edge mask. -/
theorem test_shmR_edge : after (unit shape16 (1 :: 1 :: List.replicate 30 0) (zeroBoard shape16))
    1 0x30840008#32 0 = some (0 :: 1 :: List.replicate 30 0, [⟨.ok, 0⟩], 0) := by decide
/-- V21.9. -/
theorem test_shmUL : after (unit5 three5 empty5) 1 0x30850101#32 0 =
    some ([0, 0, 0x01, 0], [⟨.ok, 0⟩], 0) := by decide
/-- V45.1. -/
theorem test_shmUR :
    after (unit shape8 [0x81, 0, 0, 0, 0, 0, 0, 0] [0, 0, 0, 0, 0, 0, 0, 0]) 1 0x30860101#32 0 =
    some ([0, 0x02, 0, 0, 0, 0, 0, 0], [⟨.ok, 0⟩], 0) := by decide
/-- V30.16: source and destination the same register. -/
theorem test_shmUR_in_place : after (unit5 full5 empty5) 0 0x30060101#32 0 =
    some ([0xC0, 0x7B, 0xEF, 0x01], [⟨.ok, 0⟩], 0) := by decide
/-- V21.18. -/
theorem test_shmDL : after (unit5 three5 empty5) 1 0x30870102#32 0 =
    some ([0x20, 0, 0x02, 0], [⟨.ok, 0⟩], 0) := by decide
/-- V30.11: no vertical part. -/
theorem test_shmDR : after (unit5 full5 empty5) 1 0x30880002#32 0 =
    some ([0x9C, 0x73, 0xCE, 0x01], [⟨.ok, 0⟩], 0) := by decide
/-- V49.1. -/
theorem test_kind9 : after (unit5 [0x10, 0, 0, 0] [0x20, 0, 0x80, 0]) 1 0x30890000#32 0 =
    some (empty5, [⟨.err .illegalMove, 0⟩], 2) := by decide
/-- R176: kind 10. -/
theorem test_kind10 : after (unit5 [0x10, 0, 0, 0] [0x20, 0, 0x80, 0]) 1 0x308A0000#32 0 =
    some (empty5, [⟨.err .illegalMove, 0⟩], 2) := by decide
/-- V70.20: kind 12 on top of the bits set before. -/
theorem test_kind12 :
    after { unit5 empty5 [0x20, 0, 0x80, 0] with err := 0xD } 1 0x30DC0000#32 0 =
    some (empty5, [⟨.err .illegalMove, 0⟩], 0xF) := by decide
/-- V43.1. -/
theorem test_rshl : after (unit5 [0x10, 0, 0x01, 0] empty5) 1 0x34800008#32 0 =
    some ([0, 0x10, 0, 0x01], [⟨.ok, 0⟩], 0) := by decide
/-- V43.3: into the padding, which stays clear. -/
theorem test_rshl_padding : after (unit5 [0x10, 0, 0x01, 0] full5) 1 0x34800018#32 0 =
    some (empty5, [⟨.ok, 0⟩], 0) := by decide
/-- V43.4. -/
theorem test_rshr : after (unit5 [0x10, 0, 0x01, 0] empty5) 1 0x38800008#32 0 =
    some ([0, 0x01, 0, 0], [⟨.ok, 0⟩], 0) := by decide
/-- V2.16 on `b1`. -/
theorem test_rdblk : after (unit5 empty5 [0xFF, 0x7F, 0xFF, 0]) 1 0x40100001#32 0 =
    some ([0xFF, 0x7F, 0xFF, 0], [⟨.ok, 0x7F⟩], 0) := by decide
/-- V70.16: `index = B`. -/
theorem test_rdblk_bad_index :
    after { unit5 empty5 [0x20, 0, 0x80, 0] with err := 1 } 1 0x40100004#32 0 =
    some ([0x20, 0, 0x80, 0], [⟨.err .badIndex, 0⟩], 5) := by decide
/-- V2.7 on `b0`: the final block is masked. -/
theorem test_wrblk : after (unit5 full5 empty5) 0 0x44000003#32 0xFE =
    some ([0xFF, 0xFF, 0xFF, 0], [⟨.ok, 0⟩], 0) := by decide
/-- V70.17: nothing is written. -/
theorem test_wrblk_bad_index :
    after { unit5 empty5 [0x20, 0, 0x80, 0] with err := 5 } 1 0x44800004#32 0xFF =
    some ([0x20, 0, 0x80, 0], [⟨.err .badIndex, 0⟩], 5) := by decide
/-- V60.7: `CFG1` of `N = 19`, `W = 32`. -/
theorem test_rdcsr : after (State.resetOf ⟨19, .w32⟩) 0 0x48000001#32 0 =
    some (List.replicate 12 0, [⟨.ok, 0x0009000C⟩], 0) := by decide
/-- V61.2. -/
theorem test_rdcsr_bad : after (unit5 empty5 empty5) 0 0x48000003#32 0 =
    some (empty5, [⟨.err .badCsr, 0⟩], 8) := by decide
/-- V70.23. -/
theorem test_clrerr : after { unit5 three5 empty5 with err := 0xF } 0 0x4C000000#32 0 =
    some (three5, [⟨.ok, 0⟩], 0) := by decide
/-- V70.8: a word that is no command. -/
theorem test_illegal_word : after (unit5 empty5 [0x20, 0, 0x80, 0]) 1 0x18900000#32 0 =
    some ([0x20, 0, 0x80, 0], [⟨.err .illegalOp, 0⟩], 1) := by decide
/-- V60.5: `CFG0` and `CFG1` of the largest board. -/
theorem test_csr_largest : cfg0 ⟨255, .w8⟩ = 0x000800FF#32 ∧ cfg1 ⟨255, .w8⟩ = 0x00011FC1#32 := by
  decide
/-- The fixed names: a table word is the first command after reset. -/
theorem test_withFetchWord :
    (match step (State.reset.withFetchWord 32 0x0C000101) with
      | .next t => some (t.board 0, t.outbox)
      | .fault _ => none
      | .refused _ => none) = some ([0x40, 0, 0, 0], [⟨.ok, 0⟩]) := by decide

/-! ### Datapath and host layer -/

/-- V45.1 on the chunked datapath, chunks 8 and 1. -/
theorem test_datapath : datapathMove shape8 [8, 1] [0x81, 0, 0, 0, 0, 0, 0, 0] 1 1 =
    [0, 0x02, 0, 0, 0, 0, 0, 0] := by decide
set_option maxRecDepth 4000 in
/-- V42.1 on the closed form. -/
theorem test_closed_form : closedMove shape16 (1 :: 1 :: List.replicate 30 0) 8 0 =
    0 :: 1 :: List.replicate 30 0 := by decide
/-- S10. -/
theorem test_combine : Move.combine (.left 3) (.up 2) = .upLeft 2 3 ∧
    Move.combine (.up 2) (.down 2) = .identity ∧ Move.combine (.right 1) (.right 1) = .right 2 ∧
    Move.combine (.upLeft 1 1) (.up 1) = .identity := by decide
/-- S4 and V86.6. -/
theorem test_rotate : (Move.upLeft 2 1).rotate .clockwise = .upRight 1 2 ∧
    (Move.upLeft 2 1).rotate .antiClockwise = .downLeft 1 2 ∧
    (Move.upLeft 2 1).mirror = .downRight 2 1 := by decide
/-- V86.11: saturation. -/
theorem test_saturation : (encode ((Move.upRight 1 1000).shm 1 0)).word = 0x308601FF#32 := by decide
/-- V101: the order of calls. -/
theorem test_builder_order :
    (((startMoves 0).up 1).rotate .clockwise |>.repeatMoves 2).moves =
      [.up 1, .right 1, .up 1, .up 2, .right 1, .right 2] ∧
    ((((startMoves 0).up 1).repeatMoves 2).rotate .clockwise).moves =
      [.up 1, .up 1, .up 2, .right 1, .right 1, .right 2] := by decide
/-- S8: the length of the queen's list. -/
theorem test_builder_queen : (((((makeMovesFrom ⟨8, .w64⟩ 4 4).translate (.up 1)).translate
    (.upRight 1 1)).rotate .clockwise).mirror.repeatMoves 8).moves.length = 72 := by decide
/-- V102: `collect` in the OR_ACCUMULATE mode. -/
theorem test_collect :
    (((startMoves 0).up 1).right 1 |>.collect shape5 1 7 2).map (fun i => (encode i).word) =
      [0x04800000#32, 0x31010100#32, 0x24940000#32, 0x31040001#32, 0x24940000#32] := by decide
/-- V30.16 as text (R95). -/
theorem test_assemble : assemble shape5 ["SHM b0, b0, UpRight(1,1) ; in place".toList] =
    some [⟨0x30060101#32, 0⟩] := by decide
/-- R95 and log 16: write data of `2^W` or more is refused. -/
theorem test_assemble_refuses_wide_wrblk : assemble shape5 ["WRBLK b0, 1, 0x100".toList] = none ∧
    assemble shape5 ["WRBLK b0, 1, 0xFF".toList] = some [⟨0x44000001#32, 0xFF⟩] := by decide
/-- R96: the expansion of NEW. -/
theorem test_assemble_new : assemble shape5 ["NEW b2, (0,0), (4,4)".toList] =
    some [⟨0x05000000#32, 0⟩, ⟨0x0D000000#32, 0⟩, ⟨0x0D000404#32, 0⟩] := by decide

/-! ### Witnesses: the hypotheses of the obligations can be met -/

/-- The witness state: `b0` holds three cells, `b1` column 2, `ERR` shows an earlier ILLEGAL_OP. -/
def witnessState : State :=
  { unit5 three5 [0x84, 0x10, 0x42, 0] with err := 1, everErr := 1 }

/-- The witness state with a command and a NOP pending. -/
def witnessPending (w : CmdWord) (wdata : Block) : State :=
  { witnessState with inbox := [⟨w, wdata⟩, ⟨0, 0⟩] }

theorem witness_Wf : witnessState.Wf := by decide

/-- A board of the largest legal shape (R8). -/
theorem witness_Wf_smallest : (State.resetOf ⟨1, .w128⟩).Wf := by decide

theorem witness_DecodedWordIsItsEncoding :
    decode ⟨0x30860201#32, 0xFF⟩ = .ok (.shmUR 1 0 2 1) := by decide

/-- The rows of the reserved kinds 9 and 12 to 15 at their first and last words. -/
theorem witness_DecoderFollowsOpcodeMap :
    (∃ row ∈ opcodeMap, row.selects 0x30090000#32 = true) ∧
    (∃ row ∈ opcodeMap, row.selects 0x33FFFFFF#32 = true) ∧
    (∃ i, decode ⟨0x33FFFFFF#32, 0⟩ = .ok i) := by
  refine ⟨by decide, by decide, ⟨.shmRsv12to15 7 7 3 0xFF 0xFF, by decide⟩⟩

theorem witness_StepRunsDecodedCommand :
    (witnessPending 0x30860201#32 0).inbox = ⟨0x30860201#32, 0⟩ :: [⟨0, 0⟩] ∧
    decode ⟨0x30860201#32, 0⟩ = .ok (.shmUR 1 0 2 1) := by decide

/-- The reserved opcodes at the ends of their ranges, and a stray bit under a legal opcode. -/
theorem witness_IllegalWordRaisesIllegalOp :
    (witnessPending 0x00000001#32 0xFF).inbox = ⟨0x00000001#32, 0xFF⟩ :: [⟨0, 0⟩] ∧
    (∀ row ∈ opcodeMap, row.selects 0x00000001#32 = false) ∧
    ((0x2C000000#32 : CmdWord).extractLsb' 26 6).toNat = 0x0B ∧
    ((0x3FFFFFFF#32 : CmdWord).extractLsb' 26 6).toNat = 0x0F ∧
    ((0x50000000#32 : CmdWord).extractLsb' 26 6).toNat = 0x14 ∧
    ((0xFFFFFFFF#32 : CmdWord).extractLsb' 26 6).toNat = 0x3F := by decide

theorem witness_EveryCommandIsAnsweredOnce :
    (witnessPending 0x30890000#32 0).Wf ∧
    (witnessPending 0x30890000#32 0).inbox = ⟨0x30890000#32, 0⟩ :: [⟨0, 0⟩] := by decide

theorem witness_StatusDecidesErr :
    (witnessPending 0x4C000000#32 0).inbox = ⟨0x4C000000#32, 0⟩ :: [⟨0, 0⟩] ∧
    (witnessPending 0x4C000001#32 0).inbox = ⟨0x4C000001#32, 0⟩ :: [⟨0, 0⟩] ∧
    (0x4C000001#32 : CmdWord) ≠ 0x4C000000#32 := by decide

theorem witness_OnlyIllegalMoveErrorsWrite :
    ∃ t, step (witnessPending 0x44800004#32 0xFF) = .next t ∧
      t.outbox = (witnessPending 0x44800004#32 0xFF).outbox ++ [⟨.err .badIndex, 0⟩] ∧
      ErrKind.badIndex ≠ .illegalMove := ⟨_, rfl, rfl, by decide⟩

theorem witness_StepKeepsWellFormed :
    (witnessPending 0x30890000#32 0).Wf ∧ ∃ t, step (witnessPending 0x30890000#32 0) = .next t :=
  ⟨by decide, _, rfl⟩

theorem witness_ResetLeavesZero : Config.legal ⟨1, .w8⟩ ∧ Config.legal ⟨255, .w128⟩ ∧
    0 < Config.blocks ⟨1, .w8⟩ ∧ 8128 < Config.blocks ⟨255, .w8⟩ := by decide

theorem witness_ShapeAndErrorRecordPersist :
    (∃ t, step (witnessPending 0x4C000000#32 0) = .next t) ∧
    (witnessPending 0x4C000000#32 0).ErrRecorded := ⟨⟨_, rfl⟩, by decide⟩

theorem witness_CoordinatesMapBijectively : shape5.legal ∧ inBounds shape5 0 0 = true ∧
    inBounds shape5 4 4 = true ∧ (mapCoords shape5 4 4).1 = shape5.blocks - 1 ∧
    0 < shape5.cells ∧ 24 < shape5.cells := by decide

theorem witness_CellAndBlockViewsAgree : witnessState.Wf ∧
    inBounds witnessState.cfg 0 0 = true ∧ inBounds witnessState.cfg 4 4 = true := by decide

/-- A command with a destination and one with none. -/
theorem witness_OneRegisterAtMostIsWritten :
    (∃ t, exec (.shmRsv9 3 0 0 0) witnessState = .next t) ∧
    destination (.shmRsv9 3 0 0 0) = some 3 ∧
    (∃ t, exec (.cnt 0) witnessState = .next t) ∧ destination (.cnt 0) = none :=
  ⟨⟨_, rfl⟩, rfl, ⟨_, rfl⟩, rfl⟩

/-- The last block that RDBLK can read and the last CSR, and a command issued twice. -/
theorem witness_ReadsAndRepeatedWritesChangeNothing :
    (3#16).toNat < witnessState.cfg.blocks ∧ (2#8).toNat < 3 ∧
    (∃ t, exec (.rdblk 0 3) witnessState = .next t) ∧
    (∃ t, exec (.rdcsr 2) witnessState = .next t) ∧
    (∃ t, exec (.cnt 0) witnessState = .next t) ∧
    ∃ t u, exec (.set 0 4 4) witnessState = .next t ∧ exec (.set 0 4 4) t = .next u :=
  ⟨by decide, by decide, ⟨_, rfl⟩, ⟨_, rfl⟩, ⟨_, rfl⟩, _, _, rfl, rfl⟩

theorem witness_ClrClearsTheBoard : witnessState.Wf ∧ 3 < witnessState.cfg.blocks := by decide

theorem witness_MovCopiesTheBoard : witnessState.Wf ∧ (1 : Reg) ≠ 0 := by decide

/-- In bounds with the cell clear and set, out of bounds in each coordinate. -/
theorem witness_SetSetsOneCell : witnessState.Wf ∧ inBounds witnessState.cfg 4 0 = true ∧
    inBounds witnessState.cfg 4 4 = true ∧ witnessState.cell 0 4 4 = true ∧
    inBounds witnessState.cfg 5 0 = false ∧ inBounds witnessState.cfg 0 5 = false ∧
    (0 : Nat) ≠ toLinear witnessState.cfg 4 4 / witnessState.cfg.width := by decide

theorem witness_UnsetClearsOneCell : witnessState.Wf ∧ inBounds witnessState.cfg 4 4 = true ∧
    witnessState.cell 0 4 0 = false ∧ inBounds witnessState.cfg 5 0 = false ∧
    inBounds witnessState.cfg 255 255 = false ∧
    (0 : Nat) ≠ toLinear witnessState.cfg 4 4 / witnessState.cfg.width := by decide

theorem witness_TestReadsOneCell : witnessState.Wf ∧ inBounds witnessState.cfg 4 4 = true ∧
    inBounds witnessState.cfg 0 5 = false := by decide

theorem witness_CntCountsSetCells : witnessState.Wf := by decide

/-- Registers that agree and registers that do not. -/
theorem witness_EqComparesBoards : witnessState.Wf ∧
    boardsEqual witnessState.cfg (witnessState.board 2) (witnessState.board 3) = true ∧
    boardsEqual witnessState.cfg (witnessState.board 0) (witnessState.board 1) = false := by decide

theorem witness_RdblkReadsOneBlock : witnessState.Wf ∧ (3#16).toNat < witnessState.cfg.blocks ∧
    witnessState.cfg.blocks ≤ (4#16).toNat ∧ witnessState.cfg.blocks ≤ (65535#16).toNat := by decide

/-- Below the final block, the final block, and the first index that does not exist. -/
theorem witness_WrblkWritesOneBlock : witnessState.Wf ∧
    Instr.wf witnessState.cfg (.wrblk 0 3 0xFF) = true ∧
    (2#16).toNat < witnessState.cfg.blocks - 1 ∧ (3#16).toNat = witnessState.cfg.blocks - 1 ∧
    (3#16).toNat < witnessState.cfg.blocks ∧ witnessState.cfg.blocks ≤ (4#16).toNat := by decide

theorem witness_SetAndUnsetChangeTheCount : witnessState.Wf ∧
    inBounds witnessState.cfg (4#8).toNat (0#8).toNat = true ∧
    (∃ t, exec (.set 0 4 0) witnessState = .next t) ∧
    ∃ u, exec (.unset 0 4 0) witnessState = .next u := ⟨by decide, by decide, ⟨_, rfl⟩, _, rfl⟩

theorem witness_CombinatorsActCellwise : witnessState.Wf ∧ 3 < witnessState.cfg.blocks := by decide

theorem witness_CombinatorCountsAdd : shape5.legal ∧ BoardWf shape5 three5 ∧
    BoardWf shape5 full5 := by decide

theorem witness_ShiftMoveMovesCells : shape5.full ≤ shape5.full ∧ inBounds shape5 0 0 = true ∧
    inBounds shape5 4 4 = true := by decide

/-- A component of exactly `N`, in each direction. -/
theorem witness_LargeMagnitudesEmptyTheBoard : shape5.full ≤ shape5.full ∧
    (shape5.n : Int) ≤ |5| ∧ (shape5.n : Int) ≤ |-5| := by
  refine ⟨by decide, ?_, ?_⟩ <;> simp [shape5]

theorem witness_ShmIdentityCopies : witnessState.Wf ∧ ((0#8 : BitVec 8) ≠ 0 ∨ (1#8 : BitVec 8) ≠ 0) := by
  decide

/-- The smallest and the first emptying magnitude of a move with one component, each kind. -/
theorem witness_ShmUpMovesRows : witnessState.Wf ∧ (0#8).toNat = 0 ∧
    witnessState.cfg.n ≤ (5#8).toNat ∧ (1#8 : BitVec 8) ≠ 0 := by decide
theorem witness_ShmDownMovesRows : witnessState.Wf ∧ (0#8).toNat = 0 ∧
    witnessState.cfg.n ≤ (5#8).toNat ∧ (1#8 : BitVec 8) ≠ 0 := by decide
theorem witness_ShmLeftMovesColumns : witnessState.Wf ∧ (0#8).toNat = 0 ∧
    witnessState.cfg.n ≤ (5#8).toNat ∧ (1#8 : BitVec 8) ≠ 0 := by decide
theorem witness_ShmRightMovesColumns : witnessState.Wf ∧ (0#8).toNat = 0 ∧
    witnessState.cfg.n ≤ (5#8).toNat ∧ (1#8 : BitVec 8) ≠ 0 := by decide

/-- The magnitudes 0 and `N` of a diagonal, each kind. -/
theorem witness_ShmUpLeftMovesDiagonally : witnessState.Wf ∧
    witnessState.cfg.n ≤ (5#8).toNat ∧ ¬ witnessState.cfg.n ≤ (4#8).toNat := by decide
theorem witness_ShmUpRightMovesDiagonally : witnessState.Wf ∧
    witnessState.cfg.n ≤ (5#8).toNat ∧ ¬ witnessState.cfg.n ≤ (4#8).toNat := by decide
theorem witness_ShmDownLeftMovesDiagonally : witnessState.Wf ∧
    witnessState.cfg.n ≤ (5#8).toNat ∧ ¬ witnessState.cfg.n ≤ (4#8).toNat := by decide
theorem witness_ShmDownRightMovesDiagonally : witnessState.Wf ∧
    witnessState.cfg.n ≤ (5#8).toNat ∧ ¬ witnessState.cfg.n ≤ (4#8).toNat := by decide

/-- The first and the last reserved kind. -/
theorem witness_ReservedKindsClearAndReport : witnessState.Wf ∧ 9 ≤ (9#4).toNat ∧
    9 ≤ (15#4).toNat ∧ 3 < witnessState.cfg.blocks := by decide

/-- The counts 0, `W` and `CELLS`. -/
theorem witness_RshlShiftsPositionsUp : witnessState.Wf ∧ (0#16).toNat = 0 ∧
    witnessState.cfg.cells ≤ (25#16).toNat ∧ (8#16).toNat = witnessState.cfg.width ∧
    2 + 1 < witnessState.cfg.blocks := by decide
theorem witness_RshrShiftsPositionsDown : witnessState.Wf ∧ (0#16).toNat = 0 ∧
    witnessState.cfg.cells ≤ (25#16).toNat := by decide

/-- Chunks of 1 and of `W`, up and down. -/
theorem witness_DatapathComputesTheShift : shape8.legal ∧
    BoardWf shape8 [0x81, 0, 0, 0, 0, 0, 0, 0xFF] ∧ (∀ k ∈ [8, 1], 1 ≤ k ∧ k ≤ shape8.width) ∧
    [8, 1].sum = (linearShift shape8 1 1).natAbs ∧ [8, 1].sum = (linearShift shape8 (-1) (-1)).natAbs ∧
    [8, 8].sum = (-16 : Int).natAbs := by decide

theorem witness_ClosedFormComputesTheShift : shape5.legal ∧ BoardWf shape5 three5 ∧
    2 < shape5.blocks - 1 := by decide

/-- Two moves up, and one up with one to the right. -/
theorem witness_UnopposedMovesAdd : shape5.legal ∧ BoardWf shape5 three5 ∧
    (0 : Int) ≤ 0 * 0 ∧ (0 : Int) ≤ 2 * 3 ∧ (0 : Int) ≤ 1 * 0 ∧ (0 : Int) ≤ -2 * -1 := by decide

theorem witness_ShiftsNeverAddCells : shape5.legal ∧ BoardWf shape5 full5 := by decide

theorem witness_ShiftsDistributeOverCombinators : shape5.legal ∧ BoardWf shape5 full5 ∧
    BoardWf shape5 three5 := by decide

/-- Column 2 on a 5×5 board: `L(3)` and `R(3)` empty it (S5). -/
theorem witness_OffBoardCellsAreLost : shape5.legal ∧ BoardWf shape5 [0x84, 0x10, 0x42, 0] ∧
    (∀ x y, cellOf shape5 [0x84, 0x10, 0x42, 0] x y = true → x ≤ 2 ∧ 2 ≤ x) ∧
    2 + 1 ≤ 3 ∧ shape5.n ≤ 2 + 3 := by
  refine ⟨by decide, by decide, ?_, by decide, by decide⟩
  have bounded : ∀ x < 5, ∀ y < 5, cellOf shape5 [0x84, 0x10, 0x42, 0] x y = true →
      x ≤ 2 ∧ 2 ≤ x := by decide
  intro x y h
  by_cases hb : inBounds shape5 x y = true
  · rw [inBounds, Bool.and_eq_true, decide_eq_true_iff, decide_eq_true_iff] at hb
    exact bounded x hb.1 y hb.2 h
  · simp [cellOf, hb] at h

/-- The NOP opcode with one stray bit (V70.6). -/
theorem witness_NopChangesNothing : (0x00000001#32 : CmdWord).extractLsb' 26 6 = 0#6 ∧
    (0x00000001#32 : CmdWord) ≠ 0#32 := by decide

theorem witness_ClrerrClearsTheStickyBits :
    (∃ t, exec (.shmRsv9 0 0 0 0) witnessState = .next t) ∧ Instr.shmRsv9 0 0 0 0 ≠ .clrerr :=
  ⟨⟨_, rfl⟩, by decide⟩

/-- The CSR numbers at the ends of the range that does not exist. -/
theorem witness_RdcsrReadsTheRegisters : witnessState.Wf ∧ 3 ≤ (3#8).toNat ∧
    3 ≤ (255#8).toNat := by decide

theorem witness_SaturatedOperandsShiftAlike : witnessState.Wf := by decide

theorem witness_MoveAlgebraLaws : shape5.legal ∧ BoardWf shape5 full5 := by decide

theorem witness_CollectGathersTheUnion : witnessState.Wf ∧ (1 : Reg) ≠ 0 ∧ (1 : Reg) ≠ 2 ∧
    (0 : Reg) ≠ 2 := by decide

theorem witness_CollectChainsTheMoves : witnessState.Wf ∧ (1 : Reg) ≠ 0 := by decide

theorem witness_NewSetsTheListedCells : witnessState.Wf ∧ inBounds witnessState.cfg 4 4 = true := by
  decide

theorem witness_IterVisitsTheGridInOrder : witnessState.Wf := by decide

theorem witness_BlocksLoadTheWholeBoard : witnessState.Wf ∧ BoardWf witnessState.cfg full5 ∧
    [2, 0, 3, 1].Perm (List.range witnessState.cfg.blocks) := by decide

end Sys2Proof.Machine
end

section
/-! PROOFS. All that a presented command can do, as one inductive relation with a case per kind of
effect, and from it the statements about the state: the invariant, `ERR` and the record of errors,
the shape, the register frame and reset (`10_state.md`). -/

namespace Sys2Proof.Machine

/-! ### What a presented command does -/

/-- `Effect s d resp t`: a command that decodes to `d` takes the state `s`, in which it is no longer
pending, to `t`, and `resp` is the response. The facts about a step are read off this relation, which
`exec_effect` and `step_effect` tie to the model. -/
inductive Effect (s : State) : Except DecodeError Instr → Response → State → Prop
  /-- The command only answers. -/
  | read {i : Instr} (hdest : destination i = none) (hclr : i ≠ .clrerr) (data : Nat) :
      Effect s (.ok i) ⟨.ok, data⟩ (s.answer .ok data)
  /-- The command writes the register that its `rd` names, and on a well-formed state what it writes
  is well formed. -/
  | write {i : Instr} {rd : Reg} (b : Board) (hdest : destination i = some rd)
      (hb : s.Wf → BoardWf s.cfg b) :
      Effect s (.ok i) ⟨.ok, 0⟩ ((s.setBoard rd b).answer .ok 0)
  /-- The command raises an error and writes no register: BAD_INDEX, BAD_CSR. -/
  | reject {i : Instr} (hclr : i ≠ .clrerr) (e : ErrKind) :
      Effect s (.ok i) ⟨.err e, 0⟩ ((s.record e).answer (.err e) 0)
  /-- A reserved move kind clears `rd` and raises ILLEGAL_MOVE (`41_shift_engine.md` R176). -/
  | illegalMove {i : Instr} {rd : Reg} (hdest : destination i = some rd) :
      Effect s (.ok i) ⟨.err .illegalMove, 0⟩
        (((s.setBoard rd (zeroBoard s.cfg)).record .illegalMove).answer (.err .illegalMove) 0)
  /-- CLRERR clears `ERR` (`43_system.md` R222). -/
  | clear : Effect s (.ok .clrerr) ⟨.ok, 0⟩ (s.clearErr.answer .ok 0)
  /-- A word that is no command raises ILLEGAL_OP (`60_exceptions.md` R302). -/
  | illegalWord (err : DecodeError) :
      Effect s (.error err) ⟨.err .illegalOp, 0⟩
        ((s.record .illegalOp).answer (.err .illegalOp) 0)

/-- Every command ends in a next state, by one of the effects; where it writes a register, the board
it writes is well formed by the law of the operation that computes it. -/
theorem exec_effect (i : Instr) (s : State) :
    ∃ resp t, exec i s = .next t ∧ Effect s (.ok i) resp t := by
  cases i with
  | nop => exact ⟨_, _, rfl, .read rfl (by simp) _⟩
  | clr rd => exact ⟨_, _, rfl, .write _ rfl fun _ => zeroBoard_wf _⟩
  | mov rd rs1 => exact ⟨_, _, rfl, .write _ rfl fun hs => hs.2 rs1⟩
  | set rd x y => exact ⟨_, _, rfl, .write _ rfl fun hs => boardWf_setCell (hs.2 rd) _ _⟩
  | unset rd x y => exact ⟨_, _, rfl, .write _ rfl fun hs => boardWf_clearCell (hs.2 rd) _ _⟩
  | test rs1 x y => exact ⟨_, _, rfl, .read rfl (by simp) _⟩
  | cnt rs1 => exact ⟨_, _, rfl, .read rfl (by simp) _⟩
  | eq rs1 rs2 => exact ⟨_, _, rfl, .read rfl (by simp) _⟩
  | and rd rs1 rs2 => exact ⟨_, _, rfl, .write _ rfl fun hs => boardWf_and (hs.2 rs1) (hs.2 rs2)⟩
  | or rd rs1 rs2 => exact ⟨_, _, rfl, .write _ rfl fun hs => boardWf_or (hs.2 rs1) (hs.2 rs2)⟩
  | xor rd rs1 rs2 => exact ⟨_, _, rfl, .write _ rfl fun hs => boardWf_xor (hs.2 rs1) (hs.2 rs2)⟩
  | shmID rd rs1 => exact ⟨_, _, rfl, .write _ rfl fun hs => hs.2 rs1⟩
  | shmU | shmD | shmL | shmR | shmUL | shmUR | shmDL | shmDR =>
    exact ⟨_, _, rfl, .write _ rfl fun _ => moveBoard_wf _ _ _ _⟩
  | shmRsv9 | shmRsv10to11 | shmRsv12to15 => exact ⟨_, _, rfl, .illegalMove rfl⟩
  | rshl rd rs1 count | rshr rd rs1 count =>
    exact ⟨_, _, rfl, .write _ rfl fun hs => rawShiftBoard_wf (hs.2 rs1) _⟩
  | rdblk rs1 index =>
    obtain hbad | hin := le_or_gt s.cfg.blocks index.toNat
    · exact ⟨_, _, execRdblk_eq_next.2 (.inl ⟨hbad, rfl⟩), .reject (by simp) _⟩
    · exact ⟨_, _, execRdblk_eq_next.2 (.inr ⟨hin, rfl⟩), .read rfl (by simp) _⟩
  | wrblk rd index wdata =>
    obtain hbad | hin := le_or_gt s.cfg.blocks index.toNat
    · exact ⟨_, _, execWrblk_eq_next.2 (.inl ⟨hbad, rfl⟩), .reject (by simp) _⟩
    · exact ⟨_, _, execWrblk_eq_next.2 (.inr ⟨hin, rfl⟩),
        .write _ rfl fun hs => boardWf_set_storedBlock hs.1 (hs.2 rd) hin wdata⟩
  | rdcsr csr =>
    cases hcsr : s.csr csr with
    | some v => exact ⟨_, _, execRdcsr_eq_next.2 (.inl ⟨v, hcsr, rfl⟩), .read rfl (by simp) _⟩
    | none => exact ⟨_, _, execRdcsr_eq_next.2 (.inr ⟨hcsr, rfl⟩), .reject (by simp) _⟩
  | clrerr => exact ⟨_, _, rfl, .clear⟩

/-- A step with a command pending has the effect of what that command decodes to. -/
theorem step_effect {s : State} {cmd : Command} {rest : List Command} (hq : s.inbox = cmd :: rest) :
    ∃ resp t, step s = .next t ∧ Effect { s with inbox := rest } (decode cmd) resp t := by
  obtain ⟨hnil, _⟩ | ⟨_, _, i, hcons, hdec, hstep⟩ | ⟨_, _, err, hcons, hdec, hstep⟩ :=
    step_cases s
  · simp [hnil] at hq
  · obtain ⟨rfl, rfl⟩ := List.cons.inj (hcons.symm.trans hq)
    rw [hstep, hdec]
    exact exec_effect i _
  · obtain ⟨rfl, rfl⟩ := List.cons.inj (hcons.symm.trans hq)
    rw [hdec]
    exact ⟨_, _, hstep, .illegalWord err⟩

/-- A step leaves the state alone, the unit being idle, or has the effect of the command it took. -/
theorem eq_or_effect_of_step {s t : State} (h : step s = .next t) :
    t = s ∨ ∃ rest d resp, Effect { s with inbox := rest } d resp t := by
  cases hq : s.inbox with
  | nil => exact .inl (by simpa [step, State.takeCommand, hq, State.idle, eq_comm] using h)
  | cons cmd rest =>
    obtain ⟨resp, t', hstep, heff⟩ := step_effect hq
    obtain rfl : t' = t := by simpa [hstep] using h
    exact .inr ⟨rest, _, resp, heff⟩

/-! ### What every effect keeps and changes -/

section
variable {s t : State} {d : Except DecodeError Instr} {resp : Response}

theorem Effect.cfg_eq (h : Effect s d resp t) : t.cfg = s.cfg := by
  cases h <;> rfl

theorem Effect.outbox_eq (h : Effect s d resp t) : t.outbox = s.outbox ++ [resp] := by
  cases h <;> rfl

/-- The record gains the bit of the status, which is none for OK. -/
theorem Effect.everErr_eq (h : Effect s d resp t) :
    t.everErr = s.everErr ||| resp.status.errBits := by
  cases h <;> simp [Status.errBits]

/-- `ERR` gains the bit of the status, but for CLRERR. -/
theorem Effect.err_eq (h : Effect s d resp t) (hd : d ≠ .ok .clrerr) :
    t.err = s.err ||| resp.status.errBits := by
  cases h with
  | clear => exact absurd rfl hd
  | read | write | reject | illegalMove | illegalWord => simp [Status.errBits]

/-- CLRERR answers OK and leaves `ERR` 0. -/
theorem Effect.err_clrerr (h : Effect s (.ok .clrerr) resp t) : t.err = 0 ∧ resp = ⟨.ok, 0⟩ := by
  cases h with
  | clear => exact ⟨rfl, rfl⟩
  | read _ hclr | reject hclr => exact absurd rfl hclr
  | write _ hdest | illegalMove hdest => simp [destination] at hdest

/-- A register that is not the command's destination is as before (`10_state.md` R24). -/
theorem Effect.board_eq {i : Instr} {r : Reg} (h : Effect s (.ok i) resp t)
    (hr : destination i ≠ some r) : t.board r = s.board r := by
  have other {rd : Reg} (hdest : destination i = some rd) : r ≠ rd := by
    rintro rfl; exact hr hdest
  cases h with
  | read | reject | clear => rfl
  | write b hdest => exact setBoard_board_ne s b (other hdest)
  | illegalMove hdest => exact setBoard_board_ne s _ (other hdest)

/-- Every effect keeps the invariant (`10_state.md` R20, R22). -/
theorem Effect.wf (h : Effect s d resp t) (hs : s.Wf) : t.Wf := by
  cases h with
  | read | reject | clear | illegalWord => exact hs
  | write b _ hb => exact wf_setBoard hs _ (hb hs)
  | illegalMove _ => exact wf_setBoard hs _ (zeroBoard_wf s.cfg)

/-- Every effect keeps `ERR` within the record: both gain the same bit, or `ERR` becomes 0
(`60_exceptions.md` R311). -/
theorem Effect.errRecorded (h : Effect s d resp t) (hs : s.ErrRecorded) : t.ErrRecorded := by
  by_cases hd : d = .ok .clrerr
  · subst hd
    simp [State.ErrRecorded, h.err_clrerr.1]
  · calc t.err &&& t.everErr
        = (s.err ||| resp.status.errBits) &&& (s.everErr ||| resp.status.errBits) := by
          rw [h.err_eq hd, h.everErr_eq]
      _ = s.err &&& s.everErr ||| resp.status.errBits := by
          ext k hk; simp [Bool.or_and_distrib_right]
      _ = t.err := by rw [hs, h.err_eq hd]

end

/-! ### The CLRERR word -/

/-- No SHM command is CLRERR (`30_encoding.md` R86). -/
theorem decodeShm_ne_clrerr (fl : Fields) : decodeShm fl ≠ .ok .clrerr := by
  unfold decodeShm
  split <;> simp [requireZero_eq_ok]

/-- Of the fields of a word, only those of CLRERR decode to it (`30_encoding.md` R87, R90). -/
theorem decodeFields_eq_clrerr {fl : Fields} {wdata : Block}
    (h : decodeFields fl wdata = .ok .clrerr) : fl = ⟨0x13, 0, 0, 0, 0, 0⟩ := by
  unfold decodeFields at h
  split at h
  case h_18 hop =>
    obtain ⟨hzero, _⟩ := requireZero_eq_ok.1 h
    simp only [Bool.and_eq_true, beq_iff_eq] at hzero
    obtain ⟨⟨⟨hrd, hrs1⟩, hf⟩, hhi, hlo⟩ := hzero
    exact Fields.ext_fields hop hrd hrs1 hf hhi hlo
  all_goals simp [requireZero_eq_ok, decodeShm_ne_clrerr] at h

/-- The decoder reads CLRERR from the word 0x4C000000 and from no other (`43_system.md` R222). -/
theorem decode_eq_clrerr {cmd : Command} :
    decode cmd = .ok .clrerr ↔ cmd.word = 0x4C000000#32 := by
  constructor
  · intro h
    exact word_eq_of_fields (decodeFields_eq_clrerr h)
  · intro h
    rw [decode, h]
    rfl

/-! ### The statements -/

/-- Settles O10: an idle step changes nothing, and every effect keeps the invariant. -/
theorem stepKeepsWellFormed : Obligations.StepKeepsWellFormed := by
  intro s t hs hstep
  obtain rfl | ⟨rest, d, resp, heff⟩ := eq_or_effect_of_step hstep
  · exact hs
  · exact heff.wf hs

/-- Settles O8: the effect of the pending command, CLRERR told from the others by its word. -/
theorem statusDecidesErr : Obligations.StatusDecidesErr := by
  intro s cmd rest hq
  obtain ⟨resp, t, hstep, heff⟩ := step_effect hq
  refine ⟨t, resp, hstep, heff.outbox_eq, heff.everErr_eq, fun hword => ?_, fun hword => ?_⟩
  · exact heff.err_eq (mt decode_eq_clrerr.1 hword)
  · rw [decode_eq_clrerr.2 hword] at heff
    exact heff.err_clrerr

/-- Settles O12: CFG0 and CFG1 are functions of the shape, which every effect keeps, and the record
only gains bits. -/
theorem shapeAndErrorRecordPersist : Obligations.ShapeAndErrorRecordPersist := by
  intro s t hstep
  obtain rfl | ⟨rest, d, resp, heff⟩ := eq_or_effect_of_step hstep
  · exact ⟨rfl, rfl, rfl, BitVec.and_self, id⟩
  · have hcfg : t.cfg = s.cfg := heff.cfg_eq
    refine ⟨hcfg, congrArg (some ∘ cfg0) hcfg, congrArg (some ∘ cfg1) hcfg, ?_, heff.errRecorded⟩
    rw [heff.everErr_eq]
    ext k hk
    simpa using .inl

/-- Settles O15: a register other than the destination is as before; a command with none changes no
register. -/
theorem oneRegisterAtMostIsWritten : Obligations.OneRegisterAtMostIsWritten := by
  intro i s t hexec
  obtain ⟨resp, t', hexec', heff⟩ := exec_effect i s
  obtain rfl : t' = t := by simpa [hexec'] using hexec
  refine ⟨fun rd hdest r hr => heff.board_eq ?_, fun hdest r => heff.board_eq ?_⟩
  · simpa [hdest] using hr.symm
  · simp [hdest]

/-- Settles O11: every register holds the zero board, which is well formed. -/
theorem resetLeavesZero : Obligations.ResetLeavesZero := by
  refine ⟨fun c hc => ⟨?blocks, ?cells, rfl, ⟨hc, ?wf⟩, rfl, rfl, ?err⟩, resetShape, by decide, rfl⟩
  case blocks => intro r i _; simp [State.blkRead]
  case cells => intro r x y; simp [State.cell]
  case wf => intro r; exact resetOf_board c r ▸ zeroBoard_wf c
  case err => exact congrArg some (show errWord 0 = 0 by decide)

end Sys2Proof.Machine
end

section
/-! PROOFS. The encoder undone by the decoder and the word as its fields in their places
(`30_encoding.md` R81), for the streams and the block writes below. -/

namespace Sys2Proof

/-- Decoding an encoded instruction reads the fields it was written from. -/
theorem decode_encode_eq_decodeFields (i : Instr) :
    decode (encode i) = decodeFields (encodeFields i) (encodeWdata i) := by
  simp [decode, encode]

/-- The fields of a reserved kind's word decode to it: each value of `sel` has a row of its own
(`30_encoding.md` R86). -/
theorem decodeShm_rsv10to11 (rd rs1 : Reg) (sel : BitVec 1) (hi lo : BitVec 8) :
    decodeShm (shmFields rd rs1 (0b101#3 ++ sel) hi lo) = .ok (.shmRsv10to11 rd rs1 sel hi lo) := by
  have hsel : sel = 0 ∨ sel = 1 := by revert sel; decide
  obtain rfl | rfl := hsel <;> rfl

theorem decodeShm_rsv12to15 (rd rs1 : Reg) (sel : BitVec 2) (hi lo : BitVec 8) :
    decodeShm (shmFields rd rs1 (0b11#2 ++ sel) hi lo) = .ok (.shmRsv12to15 rd rs1 sel hi lo) := by
  have hsel : sel = 0 ∨ sel = 1 ∨ sel = 2 ∨ sel = 3 := by revert sel; decide
  obtain rfl | rfl | rfl | rfl := hsel <;> rfl

/-- The encoder's fields meet the must-be-zero rule of their row, and the operands come back out of
them: a register from its 3 bits, a 16-bit operand from its halves, `rs2` from `f`. -/
theorem decode_encode (i : Instr) : decode (encode i) = .ok i := by
  rw [decode_encode_eq_decodeFields]
  cases i with
  | shmRsv10to11 rd rs1 sel hi lo => exact decodeShm_rsv10to11 rd rs1 sel hi lo
  | shmRsv12to15 rd rs1 sel hi lo => exact decodeShm_rsv12to15 rd rs1 sel hi lo
  | rshl | rshr | rdblk | wrblk =>
    simp [decodeFields, encodeFields, encodeWdata, requireZero, Fields.imm16]
  | eq | and | or | xor =>
    simp [decodeFields, encodeFields, requireZero, Fields.rs2, Fields.f0]
  | _ => rfl

/-- A word is its fields, each shifted to its place (`30_encoding.md` R81). -/
theorem Fields.toWord_eq_or (fl : Fields) :
    fl.toWord = fl.op.setWidth 32 <<< 26 ||| fl.rd.setWidth 32 <<< 23 |||
      fl.rs1.setWidth 32 <<< 20 ||| fl.f.setWidth 32 <<< 16 |||
      (fl.hi.setWidth 32 <<< 8 ||| fl.lo.setWidth 32) := by
  ext i hi
  simp [Fields.toWord]
  grind

/-- The two halves of a 16-bit operand in their places are the operand (`30_encoding.md` R81). -/
theorem hiLoBits_halves (x : BitVec 16) :
    Machine.hiLoBits (x.extractLsb' 8 8) (x.extractLsb' 0 8) = x.setWidth 32 := by
  ext i hi
  simp [Machine.hiLoBits]
  grind

theorem rdBits_eq (r : Reg) : (bitsOfReg r).setWidth 32 <<< 23 = Machine.rdBits r := by
  revert r; decide

end Sys2Proof
end

section
/-! PROOFS. The board space as memory (`20_memory.md`): the two views of a board, block writes, reads
that change nothing, writes that repeat, and the order of a command stream. -/

namespace Sys2Proof.Machine

/-! ### The two views of a board -/

/-- Settles O14: both views are the bit of the board at `to_linear(x, y)`. -/
theorem cellAndBlockViewsAgree : Obligations.CellAndBlockViewsAgree := by
  intro s r x y hs hxy
  have hblocks : ∀ v ∈ s.board r, v < 2 ^ s.cfg.width := (hs.2 r).2.1
  constructor
  · simpa [hxy, State.cell, toLinear] using cellOf_eq_bitOf hblocks x y
  · simpa [hxy, State.cell, State.blkRead, toLinear] using
      cellOf_eq_blockBit s.cfg (s.board r) x y

/-! ### Writing one block -/

/-- Below the final block the stored value is the write data (`20_memory.md` R57). -/
theorem storedBlock_of_lt {c : Config} {i v : Nat} (hi : i < c.blocks - 1) (hv : v < 2 ^ c.width) :
    storedBlock c i v = v := by
  rw [storedBlock, if_neg hi.ne, and_wmask, Nat.mod_eq_of_lt hv]

/-- In the final block the stored value is masked by `LBM` (`20_memory.md` R57). -/
theorem storedBlock_final {c : Config} {i : Nat} (hi : i = c.blocks - 1) (v : Nat) :
    storedBlock c i v = v &&& c.lbm := if_pos hi

/-- A block write in range is read back as the stored value. -/
theorem blkRead_blkWrite_same {s : State} (hs : s.Wf) (r : Reg) {i : Nat} (hi : i < s.cfg.blocks)
    (v : Nat) : (s.blkWrite r i v).blkRead r i = storedBlock s.cfg i v := by
  rw [blkRead_blkWrite, if_pos ⟨rfl, rfl, (hs.2 r).1 ▸ hi⟩]

theorem blkRead_blkWrite_ne (s : State) (r : Reg) {i j : Nat} (hij : j ≠ i) (v : Nat) :
    (s.blkWrite r i v).blkRead r j = s.blkRead r j := by
  rw [blkRead_blkWrite, if_neg fun h => hij h.2.1.symm]

/-- A block write in range keeps the invariant (`20_memory.md` R57, `10_state.md` R22). -/
theorem wf_blkWrite {s : State} (hs : s.Wf) (r : Reg) {i : Nat} (hi : i < s.cfg.blocks) (v : Nat) :
    (s.blkWrite r i v).Wf :=
  wf_setBoard hs r (boardWf_set_storedBlock hs.1 (hs.2 r) hi v)

/-- The word of a WRBLK (`40_board_core.md` R141). -/
theorem encode_wrblk_word (rd : Reg) (index : BitVec 16) (wdata : Block) :
    (encode (.wrblk rd index wdata)).word = 0x44000000#32 ||| rdBits rd ||| index.setWidth 32 := by
  rw [← hiLoBits_halves, ← rdBits_eq]
  simp [encode, encodeFields, Fields.toWord_eq_or, hiLoBits]

/-- Settles O25: in range a WRBLK is a block write, which the rules above describe; out of range it
raises BAD_INDEX. -/
theorem wrblkWritesOneBlock : Obligations.WrblkWritesOneBlock := by
  intro rd index wdata s hs hwdata
  have hv : wdata < 2 ^ s.cfg.width := by simpa [Instr.wf] using hwdata
  refine ⟨encode_wrblk_word rd index wdata, fun hin => ?inRange, fun hbad => ?badIndex⟩
  case inRange =>
    have hread := blkRead_blkWrite_same hs rd hin wdata
    exact ⟨_, execWrblk_eq_next.2 (.inr ⟨hin, rfl⟩), completed_setBoard s rd _ 0,
      sameBoardsBut_blkWrite s rd _ _ _ _, wf_blkWrite hs rd hin wdata,
      fun hlt => hread.trans (storedBlock_of_lt hlt hv),
      fun hlast => hread.trans (storedBlock_final hlast wdata),
      fun _ hne => blkRead_blkWrite_ne s rd hne wdata⟩
  case badIndex =>
    exact ⟨_, execWrblk_eq_next.2 (.inl ⟨hbad, rfl⟩), raised_of_raise s .badIndex, fun _ => rfl⟩

/-! ### Reads -/

/-- The command `i` answers OK with `data` and does nothing else, whatever the unit has answered
before. -/
def AnswersOnly (i : Instr) (s : State) (data : Nat) : Prop :=
  ∀ answered : List Response, exec i { s with outbox := answered } =
    .next ({ s with outbox := answered }.answer .ok data)

theorem AnswersOnly.eq_answer {i : Instr} {s t : State} {data : Nat} (h : AnswersOnly i s data)
    (hexec : exec i s = .next t) : t = s.answer .ok data :=
  (Host.Outcome.next.inj ((h s.outbox).symm.trans hexec)).symm

/-- A read asked again answers the same. -/
theorem AnswersOnly.exec_again {i : Instr} {s : State} {data : Nat} (h : AnswersOnly i s data) :
    exec i (s.answer .ok data) = .next ((s.answer .ok data).answer .ok data) := h _

theorem answersOnly_test (rs1 : Reg) (x y : BitVec 8) (s : State) :
    AnswersOnly (.test rs1 x y) s (if s.cell rs1 x.toNat y.toNat then 1 else 0) := fun _ => rfl

theorem answersOnly_cnt (rs1 : Reg) (s : State) :
    AnswersOnly (.cnt rs1) s (countOnes s.cfg (s.board rs1)) := fun _ => rfl

theorem answersOnly_eq (rs1 rs2 : Reg) (s : State) : AnswersOnly (.eq rs1 rs2) s
    (if boardsEqual s.cfg (s.board rs1) (s.board rs2) then 1 else 0) := fun _ => rfl

theorem answersOnly_rdblk {s : State} (rs1 : Reg) {index : BitVec 16}
    (hin : index.toNat < s.cfg.blocks) :
    AnswersOnly (.rdblk rs1 index) s (s.blkRead rs1 index.toNat) :=
  fun _ => execRdblk_eq_next.2 (.inr ⟨hin, rfl⟩)

theorem answersOnly_rdcsr {s : State} {csr : BitVec 8} (hcsr : csr.toNat < 3) :
    ∃ data, AnswersOnly (.rdcsr csr) s data := by
  obtain ⟨v, hv⟩ : ∃ v, s.csr csr = some v :=
    Option.ne_none_iff_exists'.1 (mt csr_eq_none.1 (Nat.not_le.2 hcsr))
  exact ⟨v.toNat, fun _ => execRdcsr_eq_next.2 (.inl ⟨v, hv, rfl⟩)⟩

/-! ### Repeated writes -/

/-- Writing into a register what it already holds changes no board. -/
theorem sameBoards_setBoard_self {t : State} {r : Reg} {b : Board} (h : b = t.board r)
    (st : Status) (d : Nat) : SameBoards t ((t.setBoard r b).answer st d) := by
  subst h
  rw [setBoard_board_self]
  exact fun _ => rfl

/-- A command that writes `f` of the state into `rd`, where after the write `f` is as before, leaves
the boards of one issue when it is issued twice. -/
theorem sameBoards_of_write_idem {i : Instr} {rd : Reg} {f : State → Board} {s t u : State}
    (hwrite : ∀ s, exec i s = .next ((s.setBoard rd (f s)).answer .ok 0))
    (hidem : ∀ s, f ((s.setBoard rd (f s)).answer .ok 0) = f s)
    (ht : exec i s = .next t) (hu : exec i t = .next u) : SameBoards t u := by
  obtain rfl := Host.Outcome.next.inj ((hwrite s).symm.trans ht)
  obtain rfl := Host.Outcome.next.inj ((hwrite _).symm.trans hu)
  exact sameBoards_setBoard_self (by simp [hidem]) _ _

/-- Applying an idempotent function to one block twice is applying it once, in range or not. -/
theorem set_blockAt_idem {f : Block → Block} (hf : ∀ v, f (f v) = f v) (b : Board) (i : Nat) :
    (b.set i (f (blockAt b i))).set i (f (blockAt (b.set i (f (blockAt b i))) i)) =
      b.set i (f (blockAt b i)) := by
  rw [List.set_set, blockAt_set]
  split
  · rw [hf]
  · rfl

theorem setCell_setCell (c : Config) (b : Board) (x y : Nat) :
    setCell c (setCell c b x y) x y = setCell c b x y := by
  cases hxy : inBounds c x y with
  | false => simp [setCell, hxy]
  | true =>
    simp only [setCell, hxy, if_true]
    exact set_blockAt_idem (f := (· ||| (mapCoords c x y).2)) (fun v => by simp) b _

theorem clearCell_clearCell (c : Config) (b : Board) (x y : Nat) :
    clearCell c (clearCell c b x y) x y = clearCell c b x y := by
  cases hxy : inBounds c x y with
  | false => simp [clearCell, hxy]
  | true =>
    simp only [clearCell, hxy, if_true]
    exact set_blockAt_idem (f := (· &&& c.compl (mapCoords c x y).2)) (fun v => by simp) b _

/-- WRBLK is idempotent: in range the block is stored again over itself, out of range nothing is
written either time. -/
theorem sameBoards_of_wrblk_twice {rd : Reg} {index : BitVec 16} {wdata : Block} {s t u : State}
    (ht : execWrblk rd index wdata s = .next t) (hu : execWrblk rd index wdata t = .next u) :
    SameBoards t u := by
  obtain ⟨_, rfl⟩ | ⟨_, rfl⟩ := execWrblk_eq_next.1 hu
  · exact fun _ => rfl
  · obtain ⟨hbad, rfl⟩ | ⟨_, rfl⟩ := execWrblk_eq_next.1 ht
    · next hin => exact absurd hbad (Nat.not_le.2 hin)
    · exact sameBoards_setBoard_self (by simp [State.blkWrite]) _ _

/-- Settles O16: each read only answers, and each write finds its own result in place. -/
theorem readsAndRepeatedWritesChangeNothing :
    Obligations.ReadsAndRepeatedWritesChangeNothing := by
  constructor
  · intro i s t hread hexec
    obtain ⟨data, hdata⟩ : ∃ data, AnswersOnly i s data := by
      obtain ⟨rs1, x, y, rfl⟩ | ⟨rs1, rfl⟩ | ⟨rs1, rs2, rfl⟩ | ⟨rs1, index, rfl, hin⟩ |
        ⟨csr, rfl, hcsr⟩ := hread
      · exact ⟨_, answersOnly_test rs1 x y s⟩
      · exact ⟨_, answersOnly_cnt rs1 s⟩
      · exact ⟨_, answersOnly_eq rs1 rs2 s⟩
      · exact ⟨_, answersOnly_rdblk rs1 hin⟩
      · exact answersOnly_rdcsr hcsr
    obtain rfl := hdata.eq_answer hexec
    exact ⟨fun _ => rfl, rfl, rfl, rfl, _, _, rfl, hdata.exec_again, rfl⟩
  · intro i s t u hwrite ht hu
    obtain ⟨rd, rfl⟩ | ⟨rd, x, y, rfl⟩ | ⟨rd, x, y, rfl⟩ | ⟨rd, index, wdata, rfl⟩ |
      ⟨rd, rs1, rfl⟩ := hwrite
    · exact sameBoards_of_write_idem (fun _ => rfl) (fun _ => rfl) ht hu
    · exact sameBoards_of_write_idem (fun _ => rfl) (by simp [setCell_setCell]) ht hu
    · exact sameBoards_of_write_idem (fun _ => rfl) (by simp [clearCell_clearCell]) ht hu
    · exact sameBoards_of_wrblk_twice ht hu
    · exact sameBoards_of_write_idem (fun _ => rfl) (by simp [setBoard_board]) ht hu

/-! ### The command stream -/

/-- Settles O5: of the three things a step can be, only running the decoded command is left. -/
theorem stepRunsDecodedCommand : Obligations.StepRunsDecodedCommand := by
  intro s cmd rest i hq hdec
  obtain ⟨hnil, _⟩ | ⟨_, _, j, hcons, hdec', hstep⟩ | ⟨_, _, err, hcons, herr, _⟩ := step_cases s
  · simp [hnil] at hq
  · obtain ⟨rfl, rfl⟩ := List.cons.inj (hcons.symm.trans hq)
    obtain rfl := Except.ok.inj (hdec'.symm.trans hdec)
    exact hstep
  · obtain ⟨rfl, rfl⟩ := List.cons.inj (hcons.symm.trans hq)
    cases herr.symm.trans hdec

/-- No command reads the commands still pending: with others pending it does the same. -/
theorem exec_with_inbox {i : Instr} {s t : State} (h : exec i s = .next t)
    (pending : List Command) :
    exec i { s with inbox := pending } = .next { t with inbox := pending } := by
  cases i with
  | rdblk rs1 index =>
    obtain ⟨hbad, rfl⟩ | ⟨hin, rfl⟩ := execRdblk_eq_next.1 h
    · exact execRdblk_eq_next.2 (.inl ⟨hbad, rfl⟩)
    · exact execRdblk_eq_next.2 (.inr ⟨hin, rfl⟩)
  | wrblk rd index wdata =>
    obtain ⟨hbad, rfl⟩ | ⟨hin, rfl⟩ := execWrblk_eq_next.1 h
    · exact execWrblk_eq_next.2 (.inl ⟨hbad, rfl⟩)
    · exact execWrblk_eq_next.2 (.inr ⟨hin, rfl⟩)
  | rdcsr csr =>
    obtain ⟨v, hv, rfl⟩ | ⟨hnone, rfl⟩ := execRdcsr_eq_next.1 h
    · exact execRdcsr_eq_next.2 (.inl ⟨v, hv, rfl⟩)
    · exact execRdcsr_eq_next.2 (.inr ⟨hnone, rfl⟩)
  | _ => cases h; rfl

/-- A step with an encoded command at the head of the stream executes that command. -/
theorem step_encode_cons {i : Instr} {s t : State} (h : exec i s = .next t)
    (pending : List Command) :
    step { s with inbox := encode i :: pending } = .next { t with inbox := pending } :=
  (stepRunsDecodedCommand _ _ _ i rfl (decode_encode i)).trans (exec_with_inbox h pending)

/-- Running a stream with an encoded command at its head executes that command and runs on. -/
theorem run_encode_cons {i : Instr} {s t : State} (h : exec i s = .next t) (k : Nat)
    (pending : List Command) :
    Host.Core.run core (k + 1) { s with inbox := encode i :: pending } =
      Host.Core.run core k { t with inbox := pending } := by
  have hstep : core.step { s with inbox := encode i :: pending } =
      .next { t with inbox := pending } := step_encode_cons h pending
  simp only [Host.Core.run, hstep]

theorem execList_cons_of_exec {i : Instr} {s t : State} (h : exec i s = .next t)
    (prog : List Instr) : execList (i :: prog) s = execList prog t := by
  rw [execList, h]

/-- Settles O59, by induction on the commands: the first one is executed with the others pending, and
the others run from where it ends. -/
theorem streamRunsInOrder : Obligations.StreamRunsInOrder := by
  intro prog rest s
  induction prog generalizing s with
  | nil => rfl
  | cons i prog ih =>
    obtain ⟨_, t, hexec, _⟩ := exec_effect i { s with inbox := rest }
    have hinbox : t.inbox = rest := (exec_keeps hexec).2
    have hrun := run_encode_cons hexec prog.length (prog.map encode ++ rest)
    have hlist : execList (i :: prog) { s with inbox := rest } =
        execList prog { t with inbox := rest } := by
      rw [execList_cons_of_exec hexec, ← hinbox]
    exact hrun.trans ((ih t).trans hlist.symm)

end Sys2Proof.Machine
end

section
/-! PROOFS. The decoder against the encoder and the opcode map (`30_encoding.md` R87 to R91): a word
that decodes is the word of its instruction, the rows of the map are disjoint, and the words that
select one are exactly those that decode. -/

namespace Sys2Proof

/-! ### A word that decodes is its encoding -/

@[simp] theorem Fields.extract_hi_imm16 (fl : Fields) : fl.imm16.extractLsb' 8 8 = fl.hi :=
  (BitVec.extractLsb'_append_eq_of_le (by decide)).trans BitVec.extractLsb'_eq_self

@[simp] theorem Fields.extract_lo_imm16 (fl : Fields) : fl.imm16.extractLsb' 0 8 = fl.lo :=
  (BitVec.extractLsb'_append_eq_of_add_le (by decide)).trans BitVec.extractLsb'_eq_self

/-- The `f` field with `f0 = 0` is that of the register it selects (`30_encoding.md` R81). -/
theorem Fields.fOfRs2_rs2 {fl : Fields} (h : fl.f0 = 0) : fOfRs2 (regOfBits fl.rs2) = fl.f :=
  fOfRs2_of_f0 fl.f h

/-- An SHM command has the fields it was decoded from: the must-be-zero check has fixed those that
the move kind does not use (`30_encoding.md` R86, R90, R91). -/
theorem encodeFields_of_decodeShm {fl : Fields} {i : Instr} (hop : fl.op = 0x0C)
    (h : decodeShm fl = .ok i) : encodeFields i = fl := by
  unfold decodeShm at h
  split at h
  case h_1 | h_2 | h_3 | h_4 | h_5 =>
    all_goals
      obtain ⟨hzero, rfl⟩ := requireZero_eq_ok.1 h
      simp only [Bool.and_eq_true, beq_iff_eq] at hzero
      apply Fields.ext_fields <;> simp [encodeFields, shmFields, *]
  case h_16 =>
    -- The kind is none of the fifteen that have a row of their own in the decoder.
    have hf : fl.f = 15 := by
      generalize fl.f = f at *
      revert f
      decide
    cases h
    apply Fields.ext_fields <;> simp [encodeFields, shmFields, *]
  all_goals
    cases h
    apply Fields.ext_fields <;> simp [encodeFields, shmFields, *]

/-- An instruction has the fields it was decoded from: each row's must-be-zero check has fixed the
fields that its format does not use (`30_encoding.md` R82, R90). -/
theorem encodeFields_of_decodeFields {fl : Fields} {wdata : Block} {i : Instr}
    (h : decodeFields fl wdata = .ok i) : encodeFields i = fl := by
  unfold decodeFields at h
  split at h
  case h_12 hop => exact encodeFields_of_decodeShm hop h
  case h_19 => cases h
  all_goals
    obtain ⟨hzero, rfl⟩ := requireZero_eq_ok.1 h
    simp only [Bool.and_eq_true, beq_iff_eq] at hzero
    apply Fields.ext_fields <;> simp [encodeFields, Fields.fOfRs2_rs2, *]

/-- Settles O1: the encoder's fields meet the must-be-zero rule of their row, and the operands come
back out of them. -/
theorem decodeOfEncode : Obligations.DecodeOfEncode := decode_encode

/-- Settles O2: the six fields are the whole word, and they are the encoder's. -/
theorem decodedWordIsItsEncoding : Obligations.DecodedWordIsItsEncoding := by
  intro cmd i h
  have hfields : encodeFields i = Fields.ofWord cmd.word := encodeFields_of_decodeFields h
  calc (encode i).word = (encodeFields i).toWord := rfl
    _ = (Fields.ofWord cmd.word).toWord := by rw [hfields]
    _ = cmd.word := Fields.toWord_ofWord cmd.word

/-! ### The rows of the opcode map -/

/-- Two rows that one word selects demand the same of every bit that both fix. -/
theorem rows_agree {row row' : OpRow} {w : CmdWord} (h : row.selects w = true)
    (h' : row'.selects w = true) : row.bits &&& row'.mask = row'.bits &&& row.mask := by
  rw [OpRow.selects, beq_iff_eq] at h h'
  calc row.bits &&& row'.mask = w &&& row.mask &&& row'.mask := by rw [h]
    _ = w &&& row'.mask &&& row.mask := by ac_rfl
    _ = row'.bits &&& row.mask := by rw [h']

/-- Two different rows demand different values of some bit that both fix (`30_encoding.md` R87). -/
theorem row_eq_of_agree : ∀ row ∈ opcodeMap, ∀ row' ∈ opcodeMap,
    row.bits &&& row'.mask = row'.bits &&& row.mask → row = row' := by
  decide

/-- The word of every instruction selects the row of its mnemonic (`30_encoding.md` R87). -/
theorem matchesRow (i : Instr) : Laws.MatchesRow.Statement i := by
  cases i with
  | nop => exact Laws.MatchesRow.nop
  | clr => exact Laws.MatchesRow.clr ..
  | mov => exact Laws.MatchesRow.mov ..
  | set => exact Laws.MatchesRow.set ..
  | unset => exact Laws.MatchesRow.unset ..
  | test => exact Laws.MatchesRow.test ..
  | cnt => exact Laws.MatchesRow.cnt ..
  | eq => exact Laws.MatchesRow.eq ..
  | and => exact Laws.MatchesRow.and ..
  | or => exact Laws.MatchesRow.or ..
  | xor => exact Laws.MatchesRow.xor ..
  | shmID => exact Laws.MatchesRow.shmID ..
  | shmU => exact Laws.MatchesRow.shmU ..
  | shmD => exact Laws.MatchesRow.shmD ..
  | shmL => exact Laws.MatchesRow.shmL ..
  | shmR => exact Laws.MatchesRow.shmR ..
  | shmUL => exact Laws.MatchesRow.shmUL ..
  | shmUR => exact Laws.MatchesRow.shmUR ..
  | shmDL => exact Laws.MatchesRow.shmDL ..
  | shmDR => exact Laws.MatchesRow.shmDR ..
  | shmRsv9 => exact Laws.MatchesRow.shmRsv9 ..
  | shmRsv10to11 => exact Laws.MatchesRow.shmRsv10to11 ..
  | shmRsv12to15 => exact Laws.MatchesRow.shmRsv12to15 ..
  | rshl => exact Laws.MatchesRow.rshl ..
  | rshr => exact Laws.MatchesRow.rshr ..
  | rdblk => exact Laws.MatchesRow.rdblk ..
  | wrblk => exact Laws.MatchesRow.wrblk ..
  | rdcsr => exact Laws.MatchesRow.rdcsr ..
  | clrerr => exact Laws.MatchesRow.clrerr

/-- One set of fields masked by another, as a row's mask masks a word (`30_encoding.md` R87). -/
def Fields.masked (fl mask : Fields) : Fields :=
  ⟨fl.op &&& mask.op, fl.rd &&& mask.rd, fl.rs1 &&& mask.rs1, fl.f &&& mask.f, fl.hi &&& mask.hi,
    fl.lo &&& mask.lo⟩

theorem Fields.ofWord_and (w mask : CmdWord) :
    Fields.ofWord (w &&& mask) = (Fields.ofWord w).masked (Fields.ofWord mask) := by
  ext <;> simp [Fields.ofWord, Fields.masked]

/-- A word selects a row field by field (`30_encoding.md` R87). -/
theorem masked_of_selects {row : OpRow} {w : CmdWord} (h : row.selects w = true) :
    (Fields.ofWord w).masked (Fields.ofWord row.mask) = Fields.ofWord row.bits := by
  rw [OpRow.selects, beq_iff_eq] at h
  rw [← Fields.ofWord_and, h]

/-- A field that the mask takes whole. -/
theorem and_of_eq_allOnes {w : Nat} {x m : BitVec w} (h : m = BitVec.allOnes w) : x &&& m = x := by
  rw [h, BitVec.and_allOnes]

/-- The field with `f0 = 0`, in the rows with an `rs2` (`30_encoding.md` R81). -/
theorem and_f0_eq_zero {f : BitVec 4} : f &&& 1#4 = 0#4 ↔ f.extractLsb' 0 1 = 0#1 := by
  revert f; decide

/-- The kinds of the row SHM.RSV10_11. -/
theorem and_eq_kind10 {f : BitVec 4} : f &&& 0xE#4 = 0xA#4 ↔ f = 10#4 ∨ f = 11#4 := by
  revert f; decide

/-- The kinds of the row SHM.RSV12_15. -/
theorem and_eq_kind12 {f : BitVec 4} :
    f &&& 0xC#4 = 0xC#4 ↔ f = 12#4 ∨ f = 13#4 ∨ f = 14#4 ∨ f = 15#4 := by
  revert f; decide

/-- Fields that meet a row's match and mask decode to an instruction of that row: the mask fixes the
opcode, the move kind and the fields that must be zero, and what it leaves free are operands, which
take every value (`30_encoding.md` R83, R87, R88). -/
theorem decodeFields_of_masked {row : OpRow} (hrow : row ∈ opcodeMap) {fl : Fields}
    (h : fl.masked (Fields.ofWord row.mask) = Fields.ofWord row.bits) (wdata : Block) :
    ∃ i, decodeFields fl wdata = .ok i ∧ i.mnemonic = row.mnemonic := by
  obtain ⟨op, rd, rs1, f, hi, lo⟩ := fl
  unfold opcodeMap at hrow
  fin_cases hrow <;>
    simp only [Fields.masked, Fields.ofWord, BitVec.reduceExtractLsb', BitVec.reduceAllOnes,
      and_of_eq_allOnes, BitVec.and_zero, and_f0_eq_zero, and_eq_kind10, and_eq_kind12,
      Fields.mk.injEq, true_and, and_true] at h
  -- Goals 23 and 22 are the rows SHM.RSV12_15 and SHM.RSV10_11, which leave the kind a choice.
  on_goal 23 => obtain ⟨rfl, rfl | rfl | rfl | rfl⟩ := h <;> exact ⟨_, rfl, rfl⟩
  on_goal 22 => obtain ⟨rfl, rfl | rfl⟩ := h <;> exact ⟨_, rfl, rfl⟩
  all_goals simp [decodeFields, decodeShm, requireZero, Fields.f0, Instr.mnemonic, h]

/-- Settles O3: two rows that one word selects agree on what both fix, so they are one row; a word
that decodes is its instruction's, which selects the row of that mnemonic; and the fields of a word
that selects a row decode. -/
theorem decoderFollowsOpcodeMap : Obligations.DecoderFollowsOpcodeMap := by
  refine ⟨fun w row hrow row' hrow' hsel hsel' => ?disjoint, fun cmd => ⟨fun i hdec => ?sound,
    fun row hrow hsel => ?complete⟩⟩
  case disjoint => exact row_eq_of_agree row hrow row' hrow' (rows_agree hsel hsel')
  case sound =>
    obtain ⟨row, hrow, hmnemonic, hsel⟩ := matchesRow i
    rw [decodedWordIsItsEncoding cmd i hdec] at hsel
    exact ⟨row, hrow, hsel, hmnemonic⟩
  case complete => exact decodeFields_of_masked hrow (masked_of_selects hsel) cmd.wdata

end Sys2Proof
end

section
/-! PROOFS. The response of a command (`30_encoding.md` R93): one for each command, whose data fits
`RW` bits and is 0 beside an error. -/

namespace Sys2Proof.Machine

/-! ### The data that a read answers -/

theorem popcount_le (w : Nat) (v : Block) : popcount w v ≤ w := by
  simpa [popcount] using List.countP_le_length (l := List.range w) (p := v.testBit)

/-- A count is at most `B*W`, whatever the blocks hold (`40_board_core.md` R135). -/
theorem countOnes_le (c : Config) (b : Board) : countOnes c b ≤ b.length * c.width := by
  have h : ∀ n ∈ b.map (popcount c.width), n ≤ c.width := by simp [popcount_le]
  simpa [countOnes] using List.sum_le_card_nsmul _ _ h

/-- A response holds at least a 32-bit word (`00_scope.md` R12). -/
theorem two_pow_32_le (c : Config) : 2 ^ 32 ≤ 2 ^ c.respWidth :=
  Nat.pow_le_pow_right (by decide) (le_max_right _ _)

/-- The largest count of any shape fits the response (`00_scope.md` R12). -/
theorem countOnes_lt_two_pow_respWidth {c : Config} (hc : c.legal) {b : Board}
    (hb : BoardWf c b) : countOnes c b < 2 ^ c.respWidth := by
  calc countOnes c b ≤ c.blocks * c.width := hb.1 ▸ countOnes_le c b
    _ ≤ 8129 * 128 := Nat.mul_le_mul (blocks_le hc) (width_le c)
    _ < 2 ^ 32 := by decide
    _ ≤ 2 ^ c.respWidth := two_pow_32_le c

theorem blkRead_lt_two_pow_respWidth {s : State} (hs : s.Wf) (r : Reg) (i : Nat) :
    s.blkRead r i < 2 ^ s.cfg.respWidth :=
  (blockAt_lt (hs.2 r).2.1 i).trans_le
    (Nat.pow_le_pow_right (by decide) (width_le_respWidth s.cfg))

theorem word_lt_two_pow_respWidth (c : Config) (v : BitVec 32) : v.toNat < 2 ^ c.respWidth :=
  v.isLt.trans_le (two_pow_32_le c)

theorem bit_lt_two_pow_respWidth (c : Config) (b : Bool) :
    (if b then 1 else 0) < 2 ^ c.respWidth := by
  refine lt_of_lt_of_le ?_ (two_pow_32_le c)
  split <;> decide

theorem answer_inj {s : State} {st st' : Status} {d d' : Nat} :
    s.answer st d = s.answer st' d' ↔ st = st' ∧ d = d' := by
  simp [State.answer]

/-- What a command that only answers can answer: NOP 0, TEST and EQ a bit, CNT a count, RDBLK a
block, RDCSR a 32-bit word. -/
theorem read_data_lt {i : Instr} {s : State} {data : Nat} (hs : s.Wf)
    (hdest : destination i = none) (hclr : i ≠ .clrerr)
    (h : exec i s = .next (s.answer .ok data)) : data < 2 ^ s.cfg.respWidth := by
  cases i with
  | nop =>
    obtain ⟨-, rfl⟩ := answer_inj.1 (respond_eq_next.1 h)
    exact Nat.two_pow_pos _
  | test rs1 x y =>
    obtain ⟨-, rfl⟩ := answer_inj.1 (respond_eq_next.1 h)
    exact bit_lt_two_pow_respWidth _ _
  | cnt rs1 =>
    obtain ⟨-, rfl⟩ := answer_inj.1 (respond_eq_next.1 h)
    exact countOnes_lt_two_pow_respWidth hs.1 (hs.2 rs1)
  | eq rs1 rs2 =>
    obtain ⟨-, rfl⟩ := answer_inj.1 (respond_eq_next.1 h)
    exact bit_lt_two_pow_respWidth _ _
  | rdblk rs1 index =>
    obtain ⟨-, hraise⟩ | ⟨-, hread⟩ := execRdblk_eq_next.1 h
    · simpa using congrArg State.outbox hraise
    · obtain ⟨-, rfl⟩ := answer_inj.1 hread
      exact blkRead_lt_two_pow_respWidth hs rs1 _
  | rdcsr csr =>
    obtain ⟨v, -, hread⟩ | ⟨-, hraise⟩ := execRdcsr_eq_next.1 h
    · obtain ⟨-, rfl⟩ := answer_inj.1 hread
      exact word_lt_two_pow_respWidth _ v
    · simpa using congrArg State.outbox hraise
  | clrerr => exact absurd rfl hclr
  | _ => simp [destination] at hdest

/-! ### The response of every effect -/

section
variable {s t : State} {d : Except DecodeError Instr} {resp : Response}

theorem Effect.inbox_eq (h : Effect s d resp t) : t.inbox = s.inbox := by
  cases h <;> rfl

/-- An error answers no data. -/
theorem Effect.data_eq_zero (h : Effect s d resp t) (herr : resp.status ≠ .ok) : resp.data = 0 := by
  cases h with
  | read => exact absurd rfl herr
  | write | reject | illegalMove | clear | illegalWord => rfl

/-- The data fits `RW` bits: only a read answers any. -/
theorem Effect.data_lt (h : Effect s d resp t) (hs : s.Wf)
    (hexec : ∀ i, d = .ok i → exec i s = .next t) : resp.data < 2 ^ s.cfg.respWidth := by
  cases h with
  | read hdest hclr data => exact read_data_lt hs hdest hclr (hexec _ rfl)
  | write | reject | illegalMove | clear | illegalWord => exact Nat.two_pow_pos _

end

/-- Settles O7: the effect of the pending command gives the response, and if it decodes the step is
the run of what it decodes to. -/
theorem everyCommandIsAnsweredOnce : Obligations.EveryCommandIsAnsweredOnce := by
  intro s cmd rest hs hq
  obtain ⟨resp, t, hstep, heff⟩ := step_effect hq
  have hexec : ∀ i, decode cmd = .ok i → exec i { s with inbox := rest } = .next t :=
    fun i hdec => (stepRunsDecodedCommand s cmd rest i hq hdec).symm.trans hstep
  exact ⟨t, resp, hstep, heff.inbox_eq, heff.outbox_eq, heff.data_lt hs hexec, heff.data_eq_zero⟩

end Sys2Proof.Machine
end

section
/-! PROOFS. Saturated operands (`30_encoding.md` R84, R85, `44_move_algebra.md` R242): a displacement
or a count at or beyond the board's size empties it, so one cut to its field shifts alike. -/

namespace Sys2Proof.Machine

/-! ### Shifts that empty the board -/

/-- A bit stays on in column `col` when the column it came from exists (`41_shift_engine.md` R163). -/
theorem keepsColumn_iff {c : Config} {dx : Int} {col : Nat} (hcol : col < c.n) :
    keepsColumn c dx col = true ↔ 0 ≤ (col : Int) - dx ∧ (col : Int) - dx < c.n := by
  unfold keepsColumn
  split_ifs <;> simp <;> omega

/-- The place a position is moved from, as a column and a row (`41_shift_engine.md` R161). -/
theorem sub_linearShift (c : Config) (dx dy : Int) (p : Nat) :
    (p : Int) - linearShift c dx dy = ((p % c.n : Nat) - dx) + ((p / c.n : Nat) - dy) * c.n := by
  have hp : ((p % c.n : Nat) : Int) + (p / c.n : Nat) * c.n = p := by
    exact_mod_cast Nat.mod_add_div' p c.n
  rw [linearShift, ← hp]
  ring

theorem lt_cells_of_testBit {c : Config} {v p : Nat} (hv : v ≤ c.full) (h : v.testBit p = true) :
    p < c.cells := by
  by_contra hp
  have hlt : v < 2 ^ p :=
    ((le_full_iff c v).1 hv).trans_le (Nat.pow_le_pow_right (by decide) (not_lt.1 hp))
  simp [Nat.testBit_lt_two_pow hlt] at h

/-- A bit that a move shift sets comes from a cell of the grid: its column by the edge mask, its row
because the position it comes from is one of the board's (`41_shift_engine.md` R165). -/
theorem source_of_testBit_shiftMove {c : Config} {v : Nat} (hv : v ≤ c.full) {dx dy : Int} {p : Nat}
    (h : (shiftMove c v dx dy).testBit p = true) :
    inBounds c (p % c.n) (p / c.n) = true ∧
    (0 ≤ (p % c.n : Nat) - dx ∧ (p % c.n : Nat) - dx < c.n) ∧
    (0 ≤ (p / c.n : Nat) - dy ∧ (p / c.n : Nat) - dy < c.n) := by
  simp only [testBit_shiftMove hv, Bool.and_eq_true, decide_eq_true_eq] at h
  obtain ⟨⟨⟨hp, hdelta⟩, hbit⟩, hkeep⟩ := h
  have hgrid := inBounds_of_position hp
  have hcol := (keepsColumn_iff (inBounds_iff.1 hgrid).1).1 hkeep
  have hsource : (p : Int) - linearShift c dx dy < (c.n : Int) * c.n := by
    have := lt_cells_of_testBit hv hbit
    rw [Config.cells] at this
    zify at this
    omega
  have hsplit := sub_linearShift c dx dy p
  refine ⟨hgrid, hcol, ?_, ?_⟩ <;> by_contra hrow <;> nlinarith

/-- A magnitude of `N` or more in either direction empties the board (`41_shift_engine.md` R166). -/
theorem shiftMove_eq_zero {c : Config} {v : Nat} (hv : v ≤ c.full) {dx dy : Int}
    (h : (c.n : Int) ≤ |dx| ∨ (c.n : Int) ≤ |dy|) : shiftMove c v dx dy = 0 := by
  refine Nat.eq_of_testBit_eq fun p => ?_
  rw [Nat.zero_testBit, Bool.eq_false_iff]
  intro hbit
  obtain ⟨hgrid, hcol, hrow⟩ := source_of_testBit_shiftMove hv hbit
  obtain ⟨hx, hy⟩ := inBounds_iff.1 hgrid
  generalize p % c.n = x, p / c.n = y at hcol hrow hx hy
  simp only [le_abs] at h
  omega

/-- A count of `CELLS` or more empties the board (`41_shift_engine.md` R177, R178). -/
theorem lshift_eq_zero {c : Config} {v : Nat} (hv : v ≤ c.full) {delta : Int}
    (h : (c.cells : Int) ≤ |delta|) : lshift c v delta = 0 := by
  refine Nat.eq_of_testBit_eq fun p => ?_
  rw [Nat.zero_testBit, Bool.eq_false_iff]
  intro hbit
  simp only [testBit_lshift hv, Bool.and_eq_true, decide_eq_true_eq] at hbit
  obtain ⟨⟨hp, hdelta⟩, hsource⟩ := hbit
  have := lt_cells_of_testBit hv hsource
  simp only [le_abs] at h
  omega

/-- A move by nothing (`41_shift_engine.md` R167). -/
theorem shiftMove_zero {c : Config} {v : Nat} (hv : v ≤ c.full) : shiftMove c v 0 0 = v := by
  have hlt := (le_full_iff c v).1 hv
  simp [shiftMove, linearShift, lshift, keep_zero, and_full, Nat.mod_eq_of_lt hlt]

theorem moveBoard_zero {c : Config} {b : Board} (hb : BoardWf c b) : moveBoard c b 0 0 = b := by
  obtain ⟨hlength, hblocks, hfull⟩ := hb
  rw [moveBoard, shiftMove_zero hfull, boardOf_boardVal c b hlength hblocks]

/-! ### Saturation -/

/-- A displacement cut to a magnitude of at most `bound`, its sign kept: what the field of a word
can say of it (`30_encoding.md` R84, R85). -/
def saturate (bound : Nat) (d : Int) : Int := max (-bound) (min d bound)

/-- Either nothing is cut, or the bound and the displacement are both beyond the board. -/
theorem saturate_eq_or_le (bound : Nat) (d : Int) :
    saturate bound d = d ∨ ((bound : Int) ≤ |saturate bound d| ∧ (bound : Int) ≤ |d|) := by
  simp only [saturate, le_abs]
  omega

@[simp] theorem saturate_zero (bound : Nat) : saturate bound 0 = 0 := by
  simp [saturate]

@[simp] theorem saturate_255_natCast (k : Nat) : saturate 255 k = (sat8 k).toNat := by
  simp [saturate, sat8]
  omega

@[simp] theorem saturate_255_neg_natCast (k : Nat) : saturate 255 (-k) = -(sat8 k).toNat := by
  simp [saturate, sat8]
  omega

@[simp] theorem saturate_65535_natCast (k : Nat) : saturate 65535 k = (sat16 k).toNat := by
  simp [saturate, sat16]
  omega

@[simp] theorem saturate_65535_neg_natCast (k : Nat) : saturate 65535 (-k) = -(sat16 k).toNat := by
  simp [saturate, sat16]
  omega

/-- Saturated magnitudes move a board alike, `N` being at most 255 (`30_encoding.md` R84). -/
theorem moveBoard_saturate {c : Config} (hc : c.legal) {b : Board} (hb : BoardWf c b)
    (dx dy : Int) :
    moveBoard c b (saturate 255 dx) (saturate 255 dy) = moveBoard c b dx dy := by
  obtain ⟨-, hn⟩ := hc
  obtain ⟨-, -, hv⟩ := hb
  have hn' : (c.n : Int) ≤ (255 : Nat) := by exact_mod_cast hn
  unfold moveBoard
  obtain hdx | ⟨hsat, hdx⟩ := saturate_eq_or_le 255 dx
  · obtain hdy | ⟨hsat, hdy⟩ := saturate_eq_or_le 255 dy
    · rw [hdx, hdy]
    · rw [shiftMove_eq_zero hv (.inr (hn'.trans hsat)), shiftMove_eq_zero hv (.inr (hn'.trans hdy))]
  · rw [shiftMove_eq_zero hv (.inl (hn'.trans hsat)), shiftMove_eq_zero hv (.inl (hn'.trans hdx))]

/-- A saturated count shifts a board alike, `CELLS` being at most 65025 (`30_encoding.md` R85). -/
theorem rawShiftBoard_saturate {c : Config} (hc : c.legal) {b : Board} (hb : BoardWf c b)
    (delta : Int) : rawShiftBoard c b (saturate 65535 delta) = rawShiftBoard c b delta := by
  obtain ⟨-, -, hv⟩ := hb
  have hcells : (c.cells : Int) ≤ (65535 : Nat) := by have := cells_le hc; omega
  unfold rawShiftBoard
  obtain hdelta | ⟨hsat, hdelta⟩ := saturate_eq_or_le 65535 delta
  · rw [hdelta]
  · rw [lshift_eq_zero hv (hcells.trans hsat), lshift_eq_zero hv (hcells.trans hdelta)]

/-! ### The commands that the host encodes -/

/-- `b[rd] <- b`, answered OK. -/
theorem completes_setBoard (s : State) (rd : Reg) (b : Board) :
    ∃ t, (s.setBoard rd b).respond 0 = .next t ∧ Completed s t 0 ∧ SameBoardsBut rd s t ∧
      t.board rd = b :=
  ⟨_, rfl, completed_setBoard s rd b 0, sameBoardsBut_setBoard s rd b _ _, by simp⟩

/-- The fields of a Move's SHM are those of `encode(m)` (`44_move_algebra.md` R242). -/
theorem encodeFields_shm (m : Move) (rd rs1 : Reg) :
    encodeFields (m.shm rd rs1) = shmFields rd rs1 m.operand.1 m.operand.2.1 m.operand.2.2 := by
  cases m <;> rfl

/-- A Move's SHM moves the board by the saturated displacement (`41_shift_engine.md` section 2). -/
theorem exec_shm {s : State} (hs : s.Wf) (m : Move) (rd rs1 : Reg) :
    exec (m.shm rd rs1) s =
      s.shiftInto rd rs1 (saturate 255 m.disp.1) (saturate 255 m.disp.2) := by
  cases m with
  | identity =>
    simp only [Move.disp, saturate_zero, State.shiftInto, moveBoard_zero (hs.2 rs1)]
    rfl
  | up | down | left | right | upLeft | upRight | downLeft | downRight =>
    simp only [Move.disp, saturate_zero, saturate_255_natCast, saturate_255_neg_natCast]
    rfl

/-- Settles O52: what saturation cuts off a displacement or a count, no cell of the board can
travel. -/
theorem saturatedOperandsShiftAlike : Obligations.SaturatedOperandsShiftAlike := by
  intro m rd rs1 count s hs
  refine ⟨encodeFields_shm m rd rs1, ?shm, ?rshl, ?rshr⟩
  case shm =>
    rw [exec_shm hs, State.shiftInto, moveBoard_saturate hs.1 (hs.2 rs1)]
    exact completes_setBoard s rd _
  case rshl =>
    rw [← rawShiftBoard_saturate hs.1 (hs.2 rs1), saturate_65535_natCast]
    exact completes_setBoard s rd _
  case rshr =>
    rw [← rawShiftBoard_saturate hs.1 (hs.2 rs1), saturate_65535_neg_natCast]
    exact completes_setBoard s rd _

end Sys2Proof.Machine
end

section
/-! PROOFS. The words of the board core commands (`40_board_core.md`), from the fields in their
places (`30_encoding.md` R81), and the spec's example words read back. -/

namespace Sys2Proof.Machine

theorem rs1Bits_eq (r : Reg) : (bitsOfReg r).setWidth 32 <<< 20 = rs1Bits r := by
  revert r; decide

theorem rs2Bits_eq (r : Reg) : (fOfRs2 r).setWidth 32 <<< 16 = rs2Bits r := by
  revert r; decide

theorem encode_clr_word (rd : Reg) : (encode (.clr rd)).word = 0x04000000#32 ||| rdBits rd := by
  simp [encode, encodeFields, Fields.toWord_eq_or, rdBits_eq]

theorem encode_mov_word (rd rs1 : Reg) :
    (encode (.mov rd rs1)).word = 0x08000000#32 ||| rdBits rd ||| rs1Bits rs1 := by
  simp [encode, encodeFields, Fields.toWord_eq_or, rdBits_eq, rs1Bits_eq]

theorem encode_set_word (rd : Reg) (x y : BitVec 8) :
    (encode (.set rd x y)).word = 0x0C000000#32 ||| rdBits rd ||| hiLoBits y x := by
  simp [encode, encodeFields, Fields.toWord_eq_or, rdBits_eq, hiLoBits]

theorem encode_unset_word (rd : Reg) (x y : BitVec 8) :
    (encode (.unset rd x y)).word = 0x10000000#32 ||| rdBits rd ||| hiLoBits y x := by
  simp [encode, encodeFields, Fields.toWord_eq_or, rdBits_eq, hiLoBits]

theorem encode_test_word (rs1 : Reg) (x y : BitVec 8) :
    (encode (.test rs1 x y)).word = 0x14000000#32 ||| rs1Bits rs1 ||| hiLoBits y x := by
  simp [encode, encodeFields, Fields.toWord_eq_or, rs1Bits_eq, hiLoBits]

theorem encode_cnt_word (rs1 : Reg) :
    (encode (.cnt rs1)).word = 0x18000000#32 ||| rs1Bits rs1 := by
  simp [encode, encodeFields, Fields.toWord_eq_or, rs1Bits_eq]

theorem encode_eq_word (rs1 rs2 : Reg) :
    (encode (.eq rs1 rs2)).word = 0x1C000000#32 ||| rs1Bits rs1 ||| rs2Bits rs2 := by
  simp [encode, encodeFields, Fields.toWord_eq_or, rs1Bits_eq, rs2Bits_eq]

theorem encode_rdblk_word (rs1 : Reg) (index : BitVec 16) :
    (encode (.rdblk rs1 index)).word = 0x40000000#32 ||| rs1Bits rs1 ||| index.setWidth 32 := by
  simp [encode, encodeFields, Fields.toWord_eq_or, rs1Bits_eq, ← hiLoBits_halves index,
    hiLoBits]

/-- Settles O4: each word has its own row, and its operands are read out of their fields. -/
theorem specWordsDecode : Obligations.SpecWordsDecode := by
  exact ⟨rfl, rfl, rfl, rfl, rfl, rfl, rfl, rfl, rfl, rfl⟩

end Sys2Proof.Machine
end

section
/-! PROOFS. Coordinates and cells (`40_board_core.md` R121 to R123): what SET and UNSET do to the
cells and the blocks of a board, and how many cells of a board are set. -/

namespace Sys2Proof.Machine

/-! ### Coordinates -/

/-- The inverse of `to_linear` (`40_board_core.md` R121). -/
theorem position_toLinear {c : Config} {x y : Nat} (h : inBounds c x y = true) :
    toLinear c x y % c.n = x ∧ toLinear c x y / c.n = y :=
  (toLinear_inj (inBounds_of_position (toLinear_lt h)) h).1 (toLinear_position c _)

/-- In the final block a position below `CELLS` is below `REM` (`00_scope.md` R11). -/
theorem mod_lt_rem {c : Config} (hc : c.legal) {p : Nat} (hp : p < c.cells)
    (hfinal : p / c.width = c.blocks - 1) : p % c.width < c.rem := by
  have hsplit : (c.blocks - 1) * c.width + p % c.width = p := hfinal ▸ Nat.div_add_mod' p c.width
  have := cells_eq hc
  omega

/-- A one-bit mask below `REM` has no bit in the padding (`40_board_core.md` R122). -/
theorem shiftLeft_and_compl_lbm {c : Config} (hc : c.legal) {k : Nat} (hk : k < c.rem) :
    (1 <<< k) &&& c.compl c.lbm = 0 := by
  refine Nat.eq_of_testBit_eq fun j => ?_
  rw [Nat.testBit_and, testBit_compl, testBit_lbm, Nat.one_shiftLeft, Nat.testBit_two_pow]
  by_cases hj : k = j
  · subst hj
    simp [hk, hk.trans_le (rem_le hc)]
  · simp [hj]

/-- Settles O13: `to_linear` is undone by division with remainder, and the one bit of a mask in the
final block stands below `REM`. -/
theorem coordinatesMapBijectively : Obligations.CoordinatesMapBijectively := by
  refine fun c hc => ⟨fun x y hxy => ⟨toLinear_lt hxy, position_toLinear hxy⟩,
    fun p hp => ⟨inBounds_of_position hp, toLinear_position c p⟩,
    fun x y hxy => ⟨mapCoords_lt hxy, fun hfinal => ?_⟩⟩
  exact shiftLeft_and_compl_lbm hc (mod_lt_rem hc (toLinear_lt hxy) hfinal)

/-! ### A board with one cell set or cleared -/

/-- Of the cells of the grid, `(x', y')` is at the position of `(x, y)` only if it is that cell. -/
theorem inBounds_and_position_eq {c : Config} {x' y' : Nat} (h' : inBounds c x' y' = true)
    (x y : Nat) : (inBounds c x y && decide (toLinear c x' y' = toLinear c x y)) =
      decide (x' = x ∧ y' = y) := by
  cases h : inBounds c x y with
  | true => simp [toLinear_inj h' h]
  | false =>
    have : ¬ (x' = x ∧ y' = y) := by rintro ⟨rfl, rfl⟩; simp [h'] at h
    simp [this]

/-- SET sets its cell and no other (`40_board_core.md` R132). -/
theorem cellOf_setCell {c : Config} {b : Board} (hb : BoardWf c b) (x y : Nat) {x' y' : Nat}
    (h' : inBounds c x' y' = true) : cellOf c (setCell c b x y) x' y' =
      (cellOf c b x' y' || decide (x' = x ∧ y' = y)) := by
  obtain ⟨hlength, hblocks, -⟩ := hb
  rw [cellOf_eq_bitOf (setCell_lt hblocks x y), cellOf_eq_bitOf hblocks,
    bitOf_setCell hlength hblocks, inBounds_and_position_eq h', h', Bool.true_and, Bool.true_and]

/-- UNSET clears its cell and no other (`40_board_core.md` R133). -/
theorem cellOf_clearCell {c : Config} {b : Board} (hb : BoardWf c b) (x y : Nat) {x' y' : Nat}
    (h' : inBounds c x' y' = true) : cellOf c (clearCell c b x y) x' y' =
      (cellOf c b x' y' && !decide (x' = x ∧ y' = y)) := by
  obtain ⟨hlength, hblocks, -⟩ := hb
  rw [cellOf_eq_bitOf (clearCell_lt hblocks x y), cellOf_eq_bitOf hblocks,
    bitOf_clearCell hlength hblocks, inBounds_and_position_eq h', h', Bool.true_and, Bool.true_and]

/-- Setting a cell that is set changes nothing (`40_board_core.md` R132). -/
theorem setCell_of_cell {c : Config} {b : Board} (hb : BoardWf c b) {x y : Nat}
    (h : cellOf c b x y = true) : setCell c b x y = b := by
  refine board_eq_of_cells (boardWf_setCell hb x y) hb fun x' y' h' => ?_
  rw [cellOf_setCell hb x y h', Bool.or_eq_left_iff_imp, decide_eq_true_eq]
  rintro ⟨rfl, rfl⟩
  exact h

/-- Clearing a cell that is clear changes nothing (`40_board_core.md` R133). -/
theorem clearCell_of_not_cell {c : Config} {b : Board} (hb : BoardWf c b) {x y : Nat}
    (h : cellOf c b x y = false) : clearCell c b x y = b := by
  refine board_eq_of_cells (boardWf_clearCell hb x y) hb fun x' y' h' => ?_
  rw [cellOf_clearCell hb x y h']
  by_cases hxy : x' = x ∧ y' = y
  · obtain ⟨rfl, rfl⟩ := hxy
    simp [h]
  · simp [hxy]

theorem setCell_of_not_inBounds {c : Config} {x y : Nat} (h : inBounds c x y = false) (b : Board) :
    setCell c b x y = b := by simp [setCell, h]

theorem clearCell_of_not_inBounds {c : Config} {x y : Nat} (h : inBounds c x y = false)
    (b : Board) : clearCell c b x y = b := by simp [clearCell, h]

/-- Only the block of the cell changes (`40_board_core.md` R132). -/
theorem blockAt_setCell_ne (c : Config) (b : Board) {x y i : Nat}
    (hi : i ≠ toLinear c x y / c.width) : blockAt (setCell c b x y) i = blockAt b i := by
  cases h : inBounds c x y with
  | false => rw [setCell_of_not_inBounds h]
  | true => simp [setCell, h, mapCoords, hi.symm]

/-- Only the block of the cell changes (`40_board_core.md` R133). -/
theorem blockAt_clearCell_ne (c : Config) (b : Board) {x y i : Nat}
    (hi : i ≠ toLinear c x y / c.width) : blockAt (clearCell c b x y) i = blockAt b i := by
  cases h : inBounds c x y with
  | false => rw [clearCell_of_not_inBounds h]
  | true => simp [clearCell, h, mapCoords, hi.symm]

/-! ### The number of cells that are set -/

/-- The bits of a board are those of its first block and above them those of the rest
(`00_scope.md` R15). -/
theorem bitOf_cons (c : Config) {v : Block} (hv : v < 2 ^ c.width) (b : Board) (p : Nat) :
    bitOf c (v :: b) p = if p < c.width then v.testBit p else bitOf c b (p - c.width) := by
  rw [bitOf, boardVal_cons, Nat.add_comm, Nat.testBit_two_pow_mul_add _ hv]
  rfl

/-- The population counts of the blocks add up to the number of set bits. -/
theorem countOnes_eq_countP_blocks (c : Config) {b : Board} (hb : ∀ v ∈ b, v < 2 ^ c.width) :
    countOnes c b = (List.range (b.length * c.width)).countP (bitOf c b) := by
  induction b with
  | nil => simp [countOnes]
  | cons v b ih =>
    obtain ⟨hv, hrest⟩ := List.forall_mem_cons.1 hb
    have hfirst : (List.range c.width).countP (bitOf c (v :: b)) = popcount c.width v :=
      List.countP_congr fun p hp => by simp [bitOf_cons c hv, List.mem_range.1 hp]
    have habove : bitOf c (v :: b) ∘ (c.width + ·) = bitOf c b := by
      funext p
      simp [bitOf_cons c hv]
    rw [List.length_cons, Nat.succ_mul, Nat.add_comm, List.range_add, List.countP_append, hfirst,
      List.countP_map, habove, ← ih hrest]
    simp [countOnes]

/-- CNT's sum is the number of set positions below `CELLS`: the padding is clear
(`40_board_core.md` R135, `10_state.md` R22). -/
theorem countOnes_eq_countP {c : Config} {b : Board} (hb : BoardWf c b) :
    countOnes c b = (List.range c.cells).countP (bitOf c b) := by
  obtain ⟨padding, hpadding⟩ := Nat.exists_eq_add_of_le (cells_le_blocks_mul c)
  have hclear : (List.range padding).countP (bitOf c b ∘ (c.cells + ·)) = 0 :=
    List.countP_eq_zero.2 fun p _ => by simp [bitOf_of_cells_le hb]
  rw [countOnes_eq_countP_blocks c hb.2.1, hb.1, hpadding, List.range_add, List.countP_append,
    List.countP_map, hclear, Nat.add_zero]

/-- `m` rows of `n` positions are the first `m*n` positions. -/
theorem flatMap_range_eq_map_range (n m : Nat) :
    ((List.range m).flatMap fun y => (List.range n).map fun x => (x, y)) =
      (List.range (m * n)).map fun p => (p % n, p / n) := by
  induction m with
  | zero => simp
  | succ m ih =>
    have hrow : ∀ x ∈ List.range n, ((m * n + x) % n, (m * n + x) / n) = (x, m) := by
      intro x hx
      have hx := List.mem_range.1 hx
      have hn : 0 < n := by omega
      rw [Nat.mul_comm, Nat.mul_add_mod, Nat.mul_add_div hn, Nat.mod_eq_of_lt hx,
        Nat.div_eq_of_lt hx, Nat.add_zero]
    rw [List.range_succ, List.flatMap_append, ih, List.flatMap_singleton, Nat.succ_mul,
      List.range_add, List.map_append, List.map_map]
    exact congrArg _ (List.map_congr_left fun x hx => (hrow x hx).symm)

/-- The grid in row-major order is the positions in ascending order (`40_board_core.md` R121,
R137). -/
theorem gridCells_eq (c : Config) :
    gridCells c = (List.range c.cells).map fun p => (p % c.n, p / c.n) :=
  flatMap_range_eq_map_range c.n c.n

/-- The set cells of the grid, in its order, are the set positions in theirs (`40_board_core.md`
R137). -/
theorem setCells_eq {c : Config} {b : Board} (hb : BoardWf c b) : setCells c b =
    ((List.range c.cells).filter (bitOf c b)).map fun p => (p % c.n, p / c.n) := by
  obtain ⟨-, hblocks, -⟩ := hb
  rw [setCells, gridCells_eq, List.filter_map]
  congr 1
  exact List.filter_congr fun p hp => (bitOf_eq_cellOf hblocks (List.mem_range.1 hp)).symm

/-- The count is the number of set cells (`40_board_core.md` R135). -/
theorem length_setCells {c : Config} {b : Board} (hb : BoardWf c b) :
    (setCells c b).length = countOnes c b := by
  rw [setCells_eq hb, List.length_map, ← List.countP_eq_length_filter, countOnes_eq_countP hb]

theorem countOnes_le_cells {c : Config} {b : Board} (hb : BoardWf c b) :
    countOnes c b ≤ c.cells := by
  simpa [countOnes_eq_countP hb] using
    List.countP_le_length (l := List.range c.cells) (p := bitOf c b)

/-- Two predicates that agree but at `k` differ in their counts by what they say of `k`. -/
theorem countP_range_add_of_agree {f g : Nat → Bool} {k n : Nat} (hk : k < n)
    (h : ∀ p, p ≠ k → f p = g p) :
    (List.range n).countP f + (g k).toNat = (List.range n).countP g + (f k).toNat := by
  induction n with
  | zero => omega
  | succ n ih =>
    simp only [List.range_succ, List.countP_append, List.countP_singleton]
    obtain rfl | hkn := Nat.eq_or_lt_of_le (Nat.le_of_lt_succ hk)
    · have : (List.range k).countP f = (List.range k).countP g :=
        List.countP_congr fun p hp => by rw [h p (List.mem_range.1 hp).ne]
      cases f k <;> cases g k <;> simp [this]
    · have := ih hkn
      rw [h n hkn.ne']
      omega

/-- Two boards that agree in every cell but one differ in their counts by what they hold there. -/
theorem countOnes_add_of_agree {c : Config} {a b : Board} (ha : BoardWf c a) (hb : BoardWf c b)
    {x y : Nat} (hxy : inBounds c x y = true)
    (h : ∀ x' y', inBounds c x' y' = true → ¬ (x' = x ∧ y' = y) →
      cellOf c a x' y' = cellOf c b x' y') :
    countOnes c a + (cellOf c b x y).toNat = countOnes c b + (cellOf c a x y).toNat := by
  have hbits : ∀ p, p ≠ toLinear c x y → bitOf c a p = bitOf c b p := by
    intro p hp
    obtain hcell | hpadding := lt_or_ge p c.cells
    · rw [bitOf_eq_cellOf ha.2.1 hcell, bitOf_eq_cellOf hb.2.1 hcell]
      refine h _ _ (inBounds_of_position hcell) ?_
      rintro ⟨rfl, rfl⟩
      exact hp (toLinear_position c p).symm
    · rw [bitOf_of_cells_le ha hpadding, bitOf_of_cells_le hb hpadding]
  rw [countOnes_eq_countP ha, countOnes_eq_countP hb, cellOf_eq_bitOf ha.2.1,
    cellOf_eq_bitOf hb.2.1, hxy, Bool.true_and, Bool.true_and]
  exact countP_range_add_of_agree (toLinear_lt hxy) hbits

end Sys2Proof.Machine
end

section
/-! PROOFS. The board core commands (`40_board_core.md` R130 to R141), each by the law of the board
operation that it runs. -/

namespace Sys2Proof.Machine

/-! ### What a command that only answers leaves as it was -/

theorem completed_answer (s : State) (data : Nat) : Completed s (s.answer .ok data) data :=
  ⟨rfl, rfl, rfl, rfl, rfl⟩

/-- A command that only answers completes and changes no board. -/
theorem AnswersOnly.completes {i : Instr} {s : State} {data : Nat} (h : AnswersOnly i s data) :
    ∃ t, exec i s = .next t ∧ Completed s t data ∧ SameBoards s t :=
  ⟨_, h s.outbox, completed_answer s data, fun _ => rfl⟩

/-! ### A register after a write -/

theorem cell_setBoard_answer (s : State) (rd : Reg) (b : Board) (st : Status) (d x y : Nat) :
    ((s.setBoard rd b).answer st d).cell rd x y = cellOf s.cfg b x y := by
  simp [State.cell]

theorem blkRead_setBoard_answer (s : State) (rd : Reg) (b : Board) (st : Status) (d i : Nat) :
    ((s.setBoard rd b).answer st d).blkRead rd i = blockAt b i := by
  simp [State.blkRead]

/-! ### CLR and MOV -/

theorem countOnes_zeroBoard (c : Config) : countOnes c (zeroBoard c) = 0 := by
  simp [countOnes_eq_countP (zeroBoard_wf c), bitOf]

/-- Settles O17: what `rd` holds after CLR is the zero board. -/
theorem clrClearsTheBoard : Obligations.ClrClearsTheBoard := by
  intro rd s hs
  refine ⟨encode_clr_word rd, _, rfl, completed_setBoard s rd _ 0,
    sameBoardsBut_setBoard s rd _ _ _, wf_setBoard hs rd (zeroBoard_wf s.cfg),
    fun i _ => ?blocks, fun x y => ?cells, ?count⟩
  case blocks => rw [blkRead_setBoard_answer, blockAt_zeroBoard]
  case cells => rw [cell_setBoard_answer, cellOf_zeroBoard]
  case count =>
    rw [answer_board, setBoard_board_same]
    exact countOnes_zeroBoard s.cfg

/-- Settles O18: `rd` holds what `rs1` held, and a later write to either register leaves the other
alone. -/
theorem movCopiesTheBoard : Obligations.MovCopiesTheBoard := by
  intro rd rs1 s hs
  refine ⟨encode_mov_word rd rs1, _, rfl, completed_setBoard s rd _ 0,
    sameBoardsBut_setBoard s rd _ _ _, wf_setBoard hs rd (hs.2 rs1),
    setBoard_board_same s rd _, ?same, fun hne b => ⟨?writeRd, ?writeRs1⟩⟩
  case same => rintro rfl; exact sameBoards_setBoard_self rfl _ _
  case writeRd =>
    rw [setBoard_board_ne _ b hne.symm, answer_board, setBoard_board_ne s _ hne.symm]
  case writeRs1 => rw [setBoard_board_ne _ b hne, answer_board, setBoard_board_same]

/-! ### SET and UNSET -/

/-- Settles O19: what `rd` holds after SET is its board with the cell set. -/
theorem setSetsOneCell : Obligations.SetSetsOneCell := by
  intro rd x y s hs
  have hb : BoardWf s.cfg (s.board rd) := hs.2 rd
  refine ⟨encode_set_word rd x y, _, rfl, completed_setBoard s rd _ 0,
    sameBoardsBut_setBoard s rd _ _ _, wf_setBoard hs rd (boardWf_setCell hb _ _),
    fun x' y' h' => ?cells, fun _ i hi => ?blocks, fun hset => ?alreadySet, fun hout => ?outside⟩
  case cells => rw [cell_setBoard_answer, cellOf_setCell hb _ _ h', State.cell]
  case blocks => rw [blkRead_setBoard_answer, blockAt_setCell_ne _ _ hi, State.blkRead]
  case alreadySet => exact sameBoards_setBoard_self (setCell_of_cell hb hset) _ _
  case outside => exact sameBoards_setBoard_self (setCell_of_not_inBounds hout _) _ _

/-- Settles O20: what `rd` holds after UNSET is its board with the cell cleared. -/
theorem unsetClearsOneCell : Obligations.UnsetClearsOneCell := by
  intro rd x y s hs
  have hb : BoardWf s.cfg (s.board rd) := hs.2 rd
  refine ⟨encode_unset_word rd x y, _, rfl, completed_setBoard s rd _ 0,
    sameBoardsBut_setBoard s rd _ _ _, wf_setBoard hs rd (boardWf_clearCell hb _ _),
    fun x' y' h' => ?cells, fun _ i hi => ?blocks, fun hclear => ?alreadyClear,
    fun hout => ?outside⟩
  case cells => rw [cell_setBoard_answer, cellOf_clearCell hb _ _ h', State.cell]
  case blocks => rw [blkRead_setBoard_answer, blockAt_clearCell_ne _ _ hi, State.blkRead]
  case alreadyClear => exact sameBoards_setBoard_self (clearCell_of_not_cell hb hclear) _ _
  case outside => exact sameBoards_setBoard_self (clearCell_of_not_inBounds hout _) _ _

/-- The count of a board after SET of a cell of the grid (`40_board_core.md` R138 (a)). -/
theorem countOnes_setCell {c : Config} {b : Board} (hb : BoardWf c b) {x y : Nat}
    (hxy : inBounds c x y = true) :
    countOnes c (setCell c b x y) = countOnes c b + if cellOf c b x y then 0 else 1 := by
  have hagree := countOnes_add_of_agree (boardWf_setCell hb x y) hb hxy fun x' y' h' hne => by
    simp [cellOf_setCell hb x y h', hne]
  rw [cellOf_setCell hb x y hxy] at hagree
  cases h : cellOf c b x y <;> simpa [h] using hagree

/-- The count of a board after UNSET of a cell of the grid (`40_board_core.md` R138 (b)). -/
theorem countOnes_clearCell {c : Config} {b : Board} (hb : BoardWf c b) {x y : Nat}
    (hxy : inBounds c x y = true) :
    countOnes c (clearCell c b x y) + (if cellOf c b x y then 1 else 0) = countOnes c b := by
  have hagree := countOnes_add_of_agree (boardWf_clearCell hb x y) hb hxy fun x' y' h' hne => by
    simp [cellOf_clearCell hb x y h', hne]
  rw [cellOf_clearCell hb x y hxy] at hagree
  cases h : cellOf c b x y <;> simpa [h] using hagree

/-- Settles O26: the board before and the board after agree in every cell but the one. -/
theorem setAndUnsetChangeTheCount : Obligations.SetAndUnsetChangeTheCount := by
  intro rd x y s t u hs hxy ht hu
  have hb : BoardWf s.cfg (s.board rd) := hs.2 rd
  obtain rfl := setBoard_respond_eq_next.1 ht
  obtain rfl := setBoard_respond_eq_next.1 hu
  simp only [cell_setBoard_answer, answer_cfg, answer_board, setBoard_cfg, setBoard_board_same]
  refine ⟨?set, ?clear, countOnes_setCell hb hxy, countOnes_clearCell hb hxy⟩
  case set => simp [cellOf_setCell hb _ _ hxy]
  case clear => simp [cellOf_clearCell hb _ _ hxy]

/-! ### TEST, CNT, EQ and RDBLK -/

/-- Settles O21: in bounds the cell is the board's bit, out of bounds it is clear. -/
theorem testReadsOneCell : Obligations.TestReadsOneCell := by
  intro rs1 x y s hs
  refine ⟨encode_test_word rs1 x y, _, answersOnly_test rs1 x y s s.outbox, fun _ => rfl,
    fun hout => ?outside, fun hin => ?inside⟩
  case outside =>
    rw [State.cell, cellOf_of_not_inBounds hout]
    exact completed_answer s 0
  case inside =>
    rw [State.cell, cellOf_eq_bitOf (hs.2 rs1).2.1, hin]
    exact completed_answer s _

/-- Settles O22: the sum of the population counts is the length of the sequence of set cells. -/
theorem cntCountsSetCells : Obligations.CntCountsSetCells := by
  intro rs1 s hs
  obtain ⟨t, hexec, hcompleted, hsame⟩ := (answersOnly_cnt rs1 s).completes
  refine ⟨encode_cnt_word rs1, t, hexec, hsame, hcompleted, ?_, countOnes_le_cells (hs.2 rs1),
    cells_le hs.1⟩
  rw [List.countP_eq_length_filter]
  exact (length_setCells (hs.2 rs1)).symm

theorem boardsEqual_iff_blocks {c : Config} {a b : Board} :
    boardsEqual c a b = true ↔ ∀ i, i < c.blocks → blockAt a i = blockAt b i := by
  simp [boardsEqual]

/-- EQ's comparison is agreement of all cells (`40_board_core.md` R136). -/
theorem boardsEqual_iff_cells {c : Config} {a b : Board} (ha : BoardWf c a) (hb : BoardWf c b) :
    boardsEqual c a b = true ↔ ∀ x y, cellOf c a x y = cellOf c b x y := by
  rw [boardsEqual_iff ha.1 hb.1]
  constructor
  · rintro rfl _ _
    rfl
  · exact fun h => board_eq_of_cells ha hb fun x y _ => h x y

/-- Settles O23: the answer is 1 exactly when the comparison holds, which is agreement of the blocks
and agreement of the cells. -/
theorem eqComparesBoards : Obligations.EqComparesBoards := by
  intro rs1 rs2 s hs
  obtain ⟨t, hexec, hcompleted, hsame⟩ := (answersOnly_eq rs1 rs2 s).completes
  have hone : (if boardsEqual s.cfg (s.board rs1) (s.board rs2) then 1 else 0) = 1 ↔
      boardsEqual s.cfg (s.board rs1) (s.board rs2) = true := by simp
  refine ⟨encode_eq_word rs1 rs2, t, _, hexec, hsame, hcompleted, ite_eq_or_eq _ _ _,
    hone.trans boardsEqual_iff_blocks, hone.trans (boardsEqual_iff_cells (hs.2 rs1) (hs.2 rs2)), ?_⟩
  rintro rfl
  exact hone.2 (boardsEqual_iff_blocks.2 fun _ _ => rfl)

/-- Settles O24: in range RDBLK only answers, out of range it raises BAD_INDEX. -/
theorem rdblkReadsOneBlock : Obligations.RdblkReadsOneBlock := by
  intro rs1 index s hs
  refine ⟨encode_rdblk_word rs1 index, fun hin => ?inRange, fun hbad => ?badIndex⟩
  case inRange =>
    obtain ⟨t, hexec, hcompleted, hsame⟩ := (answersOnly_rdblk rs1 hin).completes
    exact ⟨t, hexec, hcompleted, blockAt_lt (hs.2 rs1).2.1 _, hsame⟩
  case badIndex =>
    exact ⟨_, execRdblk_eq_next.2 (.inl ⟨hbad, rfl⟩), raised_of_raise s .badIndex, fun _ => rfl⟩

end Sys2Proof.Machine
end

section
/-! PROOFS. Sequences of board core commands: those that only answer, and those that update one
register (`40_board_core.md` R137, R138 (e), R140, R141). -/

namespace Sys2Proof.Machine

/-! ### Many responses -/

/-- The state after several responses, which join the end of the transcript in order
(`30_encoding.md` R93). -/
def State.answerAll (s : State) (resps : List Response) : State :=
  { s with outbox := s.outbox ++ resps }

@[simp] theorem answerAll_outbox (s : State) (resps : List Response) :
    (s.answerAll resps).outbox = s.outbox ++ resps := rfl
@[simp] theorem answerAll_err (s : State) (resps : List Response) :
    (s.answerAll resps).err = s.err := rfl
@[simp] theorem answerAll_cfg (s : State) (resps : List Response) :
    (s.answerAll resps).cfg = s.cfg := rfl
@[simp] theorem answerAll_board (s : State) (resps : List Response) (r : Reg) :
    (s.answerAll resps).board r = s.board r := rfl

theorem answerAll_nil (s : State) : s.answerAll [] = s := by simp [State.answerAll]

theorem answerAll_answer (s : State) (st : Status) (d : Nat) (resps : List Response) :
    (s.answer st d).answerAll resps = s.answerAll (⟨st, d⟩ :: resps) := by
  simp [State.answerAll, State.answer]

/-! ### Commands that only answer -/

/-- A command that only answers does so after another response as well. -/
theorem AnswersOnly.after_answer {i : Instr} {s : State} {data : Nat} (h : AnswersOnly i s data)
    (st : Status) (d : Nat) : AnswersOnly i (s.answer st d) data := h

/-- Commands that only answer, one after another, answer in order and do nothing else. -/
theorem execList_answersOnly {α : Type} {i : α → Instr} {data : α → Nat} {s : State} (l : List α)
    (h : ∀ a ∈ l, AnswersOnly (i a) s (data a)) :
    execList (l.map i) s = .next (s.answerAll (l.map fun a => ⟨.ok, data a⟩)) := by
  induction l generalizing s with
  | nil => rw [List.map_nil, List.map_nil, answerAll_nil, execList]
  | cons a l ih =>
    obtain ⟨hfirst, hrest⟩ := List.forall_mem_cons.1 h
    rw [List.map_cons, execList_cons_of_exec (hfirst s.outbox),
      ih fun b hb => (hrest b hb).after_answer .ok (data a), answerAll_answer, List.map_cons]

/-! ### Commands that update one register -/

/-- In a unit of shape `c` the command `i` replaces the board `b` in `rd` by `f b`, answers OK and
does nothing else. -/
def Updates (c : Config) (rd : Reg) (i : Instr) (f : Board → Board) : Prop :=
  ∀ s : State, s.cfg = c → exec i s = .next ((s.setBoard rd (f (s.board rd))).answer .ok 0)

theorem updates_clr (c : Config) (rd : Reg) : Updates c rd (.clr rd) fun _ => zeroBoard c := by
  rintro s rfl
  rfl

theorem updates_set (c : Config) (rd : Reg) (x y : BitVec 8) :
    Updates c rd (.set rd x y) fun b => setCell c b x.toNat y.toNat := by
  rintro s rfl
  rfl

theorem updates_wrblk {c : Config} (rd : Reg) {index : BitVec 16} (hin : index.toNat < c.blocks)
    (wdata : Block) : Updates c rd (.wrblk rd index wdata) fun b =>
      b.set index.toNat (storedBlock c index.toNat wdata) := by
  rintro s rfl
  exact execWrblk_eq_next.2 (.inr ⟨hin, rfl⟩)

theorem setBoard_answer (s : State) (r : Reg) (b : Board) (st : Status) (d : Nat) :
    (s.answer st d).setBoard r b = (s.setBoard r b).answer st d := rfl

/-- Of two writes to one register the second stands. -/
theorem setBoard_setBoard (s : State) (r : Reg) (a b : Board) :
    (s.setBoard r a).setBoard r b = s.setBoard r b := by
  simp [State.setBoard]

/-- Commands that update `rd`, one after another, leave the fold of their updates in it and answer
OK each. -/
theorem execList_updates {α : Type} {c : Config} {rd : Reg} {i : α → Instr}
    {f : α → Board → Board} (l : List α) (h : ∀ a ∈ l, Updates c rd (i a) (f a)) {s : State}
    (hs : s.cfg = c) : execList (l.map i) s =
      .next ((s.setBoard rd (l.foldl (fun b a => f a b) (s.board rd))).answerAll
        (l.map fun _ => ⟨.ok, 0⟩)) := by
  induction l generalizing s with
  | nil =>
    rw [List.map_nil, List.map_nil, List.foldl_nil, answerAll_nil, setBoard_board_self, execList]
  | cons a l ih =>
    obtain ⟨hfirst, hrest⟩ := List.forall_mem_cons.1 h
    have hcfg : ((s.setBoard rd (f a (s.board rd))).answer .ok 0).cfg = c := hs
    rw [List.map_cons, execList_cons_of_exec (hfirst s hs), ih hrest hcfg, answer_board,
      setBoard_board_same, setBoard_answer, setBoard_setBoard, answerAll_answer, List.foldl_cons,
      List.map_cons]

/-! ### NEW -/

/-- Setting cells one after another sets those of the list that the grid has (`30_encoding.md`
R96). -/
theorem cellOf_foldl_setCell {c : Config} (cells : List (BitVec 8 × BitVec 8)) {b : Board}
    (hb : BoardWf c b) {x y : Nat} (hxy : inBounds c x y = true) :
    cellOf c (cells.foldl (fun b xy => setCell c b xy.1.toNat xy.2.toNat) b) x y =
      (cellOf c b x y || cells.any fun xy => decide (xy.1.toNat = x ∧ xy.2.toNat = y)) := by
  induction cells generalizing b with
  | nil => simp
  | cons xy cells ih =>
    rw [List.foldl_cons, ih (boardWf_setCell hb _ _), cellOf_setCell hb _ _ hxy, List.any_cons,
      Bool.or_assoc]
    simp only [eq_comm]

/-- Settles O57: CLR leaves the zero board, and the SETs set the cells of the list in it. -/
theorem newSetsTheListedCells : Obligations.NewSetsTheListedCells := by
  intro rd cells s hs
  have hclr := execList_cons_of_exec (updates_clr s.cfg rd s rfl)
    (cells.map fun xy => .set rd xy.1 xy.2)
  have hset := execList_updates cells (fun xy _ => updates_set s.cfg rd xy.1 xy.2)
    (s := (s.setBoard rd (zeroBoard s.cfg)).answer .ok 0) rfl
  refine ⟨_, hclr.trans hset, fun r hr => ?others, rfl, fun x y hxy => ?cells⟩
  case others => simp [hr]
  case cells => simp [State.cell, cellOf_foldl_setCell cells (zeroBoard_wf s.cfg) hxy]

/-! ### ITER -/

theorem toNat_coordinate {c : Config} (hc : c.legal) {x : Nat} (hx : x < c.n) :
    (BitVec.ofNat 8 x).toNat = x := by
  have := hc.2
  rw [BitVec.toNat_ofNat, Nat.mod_eq_of_lt (by omega)]

/-- TEST of the cell at a position of the grid answers the board's bit there. -/
theorem answersOnly_test_position {s : State} (hs : s.Wf) (rs1 : Reg) {p : Nat}
    (hp : p < s.cfg.cells) : AnswersOnly
      (.test rs1 (BitVec.ofNat 8 (p % s.cfg.n)) (BitVec.ofNat 8 (p / s.cfg.n))) s
      (if bitOf s.cfg (s.board rs1) p then 1 else 0) := by
  obtain ⟨hx, hy⟩ := inBounds_iff.1 (inBounds_of_position hp)
  have htest := answersOnly_test rs1 (BitVec.ofNat 8 (p % s.cfg.n)) (BitVec.ofNat 8 (p / s.cfg.n)) s
  rwa [toNat_coordinate hs.1 hx, toNat_coordinate hs.1 hy, State.cell,
    ← bitOf_eq_cellOf (hs.2 rs1).2.1 hp] at htest

/-- Settles O58: the grid in row-major order is the positions in ascending order. -/
theorem iterVisitsTheGridInOrder : Obligations.IterVisitsTheGridInOrder := by
  intro rs1 s hs
  have hanswers := execList_answersOnly (List.range s.cfg.cells)
    fun p hp => answersOnly_test_position hs rs1 (List.mem_range.1 hp)
  rw [PseudoInstr.expand, gridCells_eq, List.map_map]
  exact ⟨⟨_, hanswers, fun _ => rfl, rfl⟩, setCells_eq (hs.2 rs1), length_setCells (hs.2 rs1)⟩

/-! ### Loading and reading a board -/

theorem toNat_index {c : Config} (hc : c.legal) {i : Nat} (hi : i < c.blocks) :
    (BitVec.ofNat 16 i).toNat = i := by
  have := blocks_le hc
  rw [BitVec.toNat_ofNat, Nat.mod_eq_of_lt (by omega)]

/-- A block of a well-formed board is stored as it is: its padding is clear (`20_memory.md` R57,
`10_state.md` R22). -/
theorem storedBlock_blockAt {c : Config} (hc : c.legal) {b : Board} (hb : BoardWf c b) (i : Nat) :
    storedBlock c i (blockAt b i) = blockAt b i := by
  unfold storedBlock
  split
  · next hfinal =>
    refine Nat.eq_of_testBit_eq fun k => ?_
    rw [Nat.testBit_and, testBit_lbm, Bool.and_eq_left_iff_imp, decide_eq_true_eq,
      blockAt_eq_slice c b hb.2.1, Nat.testBit_and, Nat.testBit_shiftRight, Bool.and_eq_true]
    rintro ⟨hbit, -⟩
    have hp := lt_cells_of_testBit hb.2.2 hbit
    have := cells_eq hc
    rw [hfinal] at hp
    omega
  · rw [and_wmask, Nat.mod_eq_of_lt (blockAt_lt hb.2.1 i)]

theorem length_foldl_set (v : Nat → Block) (l : List Nat) (b : Board) :
    (l.foldl (fun b i => b.set i (v i)) b).length = b.length := by
  induction l generalizing b with
  | nil => rfl
  | cons i l ih => rw [List.foldl_cons, ih, List.length_set]

/-- After writes of `v i` to every block `i` of a list, in any order, block `j` holds `v j` if it
was in the list. -/
theorem blockAt_foldl_set (v : Nat → Block) (l : List Nat) {b : Board} {j : Nat}
    (hj : j < b.length) : blockAt (l.foldl (fun b i => b.set i (v i)) b) j =
      if j ∈ l then v j else blockAt b j := by
  induction l generalizing b with
  | nil => rfl
  | cons i l ih =>
    rw [List.foldl_cons, ih (by rwa [List.length_set]), blockAt_set]
    by_cases hi : i = j
    · simp [hi, hj]
    · simp [hi, Ne.symm hi]

/-- Writing every block of `b` into a board of the same length, in any order, makes it `b`. -/
theorem foldl_set_eq {c : Config} {a b : Board} (ha : a.length = c.blocks)
    (hb : b.length = c.blocks) {order : List Nat} (horder : order.Perm (List.range c.blocks)) :
    order.foldl (fun a i => a.set i (blockAt b i)) a = b := by
  have hlength := length_foldl_set (blockAt b) order a
  refine board_ext (by omega) fun j hj => ?_
  have hmem : j ∈ order := horder.mem_iff.2 (List.mem_range.2 (by omega))
  rw [blockAt_foldl_set (blockAt b) order (by omega), if_pos hmem]

/-- The WRBLK of a block of a well-formed board puts that block in its place. -/
theorem updates_wrblk_blockAt {c : Config} (hc : c.legal) {b : Board} (hb : BoardWf c b) (rd : Reg)
    {i : Nat} (hi : i < c.blocks) : Updates c rd (.wrblk rd (BitVec.ofNat 16 i) (blockAt b i))
      fun a => a.set i (blockAt b i) := by
  have hindex := toNat_index hc hi
  have hwrite := updates_wrblk rd (hindex.symm ▸ hi) (blockAt b i)
  rwa [hindex, storedBlock_blockAt hc hb] at hwrite

theorem answersOnly_rdblk_ofNat {s : State} (hs : s.Wf) (rs1 : Reg) {i : Nat}
    (hi : i < s.cfg.blocks) :
    AnswersOnly (.rdblk rs1 (BitVec.ofNat 16 i)) s (blockAt (s.board rs1) i) := by
  have hindex := toNat_index hs.1 hi
  have hread := answersOnly_rdblk rs1 (hindex.symm ▸ hi)
  rwa [hindex] at hread

/-- Settles O60: every index below `B` is in the list, so the WRBLKs leave every block of `b` in its
place, and the RDBLKs answer every block of `rd`. -/
theorem blocksLoadTheWholeBoard : Obligations.BlocksLoadTheWholeBoard := by
  intro rd b order s hs hb horder
  have hin : ∀ i ∈ order, i < s.cfg.blocks := fun i hi => List.mem_range.1 (horder.mem_iff.1 hi)
  constructor
  · have hload := execList_updates order
      (fun i hi => updates_wrblk_blockAt hs.1 hb rd (hin i hi)) (s := s) rfl
    rw [foldl_set_eq (hs.2 rd).1 hb.1 horder] at hload
    exact ⟨_, hload, setBoard_board_same s rd b, fun r hr => setBoard_board_ne s b hr, rfl, rfl⟩
  · exact ⟨_, execList_answersOnly order (fun i hi => answersOnly_rdblk_ofNat hs rd (hin i hi)),
      fun _ => rfl, rfl, rfl⟩

end Sys2Proof.Machine
end

section
/-! PROOFS. The cells that a move shift moves (`41_shift_engine.md` R165, R166), and the algebra of
shifts on boards (R187): two moves one after another, what is lost, counts and combinators. -/

namespace Sys2Proof.Machine

/-! ### The cells of a moved board -/

/-- Settles O29: the source position is that of the cell `(x' - dx, y' - dy)`, the edge mask keeps
exactly the columns whose source column exists, and a source row outside the grid has no bit. -/
theorem shiftMoveMovesCells : Obligations.ShiftMoveMovesCells := by
  intro c v dx dy x' y' hv hxy
  obtain ⟨hmod, hdiv⟩ := position_toLinear hxy
  rw [toLinear] at hmod hdiv
  have hsource := sub_linearShift c dx dy (x' + y' * c.n)
  rw [hmod, hdiv] at hsource
  constructor
  · intro hbit
    obtain ⟨-, hcol, hrow⟩ := source_of_testBit_shiftMove hv hbit
    rw [hmod] at hcol
    rw [hdiv] at hrow
    simp only [testBit_shiftMove hv, hsource, Bool.and_eq_true] at hbit
    exact ⟨hcol.1, hcol.2, hrow.1, hrow.2, hbit.1.2⟩
  · rintro ⟨hx0, hxn, hy0, hyn, hbit⟩
    have hposition : linearShift c dx dy ≤ (x' + y' * c.n : Nat) := by
      have := mul_nonneg hy0 (Int.natCast_nonneg c.n)
      omega
    have hkeep := (keepsColumn_iff (inBounds_iff.1 hxy).1).2 ⟨hx0, hxn⟩
    have hp : x' + y' * c.n < c.cells := toLinear_lt hxy
    rw [testBit_shiftMove hv, hsource, hmod, hbit, hkeep, decide_eq_true hp,
      decide_eq_true hposition]
    rfl

/-- A cell at integer coordinates is set when they are in the grid and the bit of its position is
set (`40_board_core.md` R121, R123). -/
theorem cellAt_iff {c : Config} {b : Board} (hb : ∀ v ∈ b, v < 2 ^ c.width) {x y : Int} :
    cellAt c b x y = true ↔ 0 ≤ x ∧ x < c.n ∧ 0 ≤ y ∧ y < c.n ∧
      bitOf c b (x + y * c.n).toNat = true := by
  simp only [cellAt, cellOf_eq_bitOf hb, Bool.and_eq_true, decide_eq_true_eq, inBounds_iff]
  constructor
  · rintro ⟨⟨hx, hy⟩, ⟨hxn, hyn⟩, hbit⟩
    lift x to Nat using hx
    lift y to Nat using hy
    refine ⟨by omega, by omega, by omega, by omega, ?_⟩
    exact_mod_cast hbit
  · rintro ⟨hx, hxn, hy, hyn, hbit⟩
    lift x to Nat using hx
    lift y to Nat using hy
    refine ⟨⟨by omega, by omega⟩, ⟨by omega, by omega⟩, ?_⟩
    exact_mod_cast hbit

@[simp] theorem cellAt_natCast (c : Config) (b : Board) (x y : Nat) :
    cellAt c b x y = cellOf c b x y := by
  simp [cellAt]

/-- A moved board holds the source's cells, each moved (`41_shift_engine.md` R165). -/
theorem movedBy_moveBoard {c : Config} {b : Board} (hb : BoardWf c b) (dx dy : Int) :
    MovedBy c b (moveBoard c b dx dy) dx dy := by
  obtain ⟨-, hblocks, hfull⟩ := hb
  intro x y hxy
  rw [cellOf_eq_bitOf (moveBoard_wf c b dx dy).2.1, hxy, Bool.true_and, bitOf, boardVal_moveBoard,
    Bool.eq_iff_iff, cellAt_iff hblocks]
  exact shiftMoveMovesCells c _ dx dy x y hfull hxy

/-- A cell of a moved board at integer coordinates, which is clear outside the grid. -/
theorem cellAt_moveBoard {c : Config} {b : Board} (hb : BoardWf c b) (dx dy x y : Int) :
    cellAt c (moveBoard c b dx dy) x y =
      (decide (0 ≤ x ∧ x < c.n ∧ 0 ≤ y ∧ y < c.n) && cellAt c b (x - dx) (y - dy)) := by
  by_cases hgrid : 0 ≤ x ∧ x < c.n ∧ 0 ≤ y ∧ y < c.n
  · obtain ⟨hx, hxn, hy, hyn⟩ := hgrid
    lift x to Nat using hx
    lift y to Nat using hy
    have hmoved := movedBy_moveBoard hb dx dy x y (inBounds_iff.2 ⟨by omega, by omega⟩)
    simp [hmoved, hxn, hyn]
  · rw [decide_eq_false hgrid, Bool.false_and, Bool.eq_false_iff]
    intro hcell
    obtain ⟨hx, hxn, hy, hyn, -⟩ := (cellAt_iff (moveBoard_wf c b dx dy).2.1).1 hcell
    exact hgrid ⟨hx, hxn, hy, hyn⟩

/-- A board whose cells are all clear is the zero board. -/
theorem eq_zeroBoard_of_cells {c : Config} {b : Board} (hb : BoardWf c b)
    (h : ∀ x y, inBounds c x y = true → cellOf c b x y = false) : b = zeroBoard c :=
  board_eq_of_cells hb (zeroBoard_wf c) fun x y hxy => by rw [h x y hxy, cellOf_zeroBoard]

/-- A move of `N` or more on either axis empties the board (`41_shift_engine.md` R166). -/
theorem moveBoard_eq_zeroBoard {c : Config} {b : Board} (hb : BoardWf c b) {dx dy : Int}
    (h : (c.n : Int) ≤ |dx| ∨ (c.n : Int) ≤ |dy|) : moveBoard c b dx dy = zeroBoard c := by
  refine eq_zeroBoard_of_cells (moveBoard_wf c b dx dy) fun x y _ => ?_
  simp [cellOf_eq_bitOf (moveBoard_wf c b dx dy).2.1, bitOf, boardVal_moveBoard,
    shiftMove_eq_zero hb.2.2 h]

/-- Settles O30: the shift function is 0, and every Move's SHM decodes to itself and completes. -/
theorem largeMagnitudesEmptyTheBoard : Obligations.LargeMagnitudesEmptyTheBoard := by
  refine ⟨fun c v dx dy hv h => shiftMove_eq_zero hv h,
    fun m rd rs1 s => ⟨decode_encode (m.shm rd rs1), ?_⟩⟩
  cases m with
  | identity | up | down | left | right | upLeft | upRight | downLeft | downRight =>
    exact ⟨_, rfl, completed_setBoard s rd _ 0⟩

/-! ### Two moves one after another -/

/-- Between two places of the grid, a place on the way is in the grid as well. -/
theorem mem_grid_of_unopposed {n x d d' : Int} (hx : 0 ≤ x ∧ x < n)
    (hsource : 0 ≤ x - (d + d') ∧ x - (d + d') < n) (h : 0 ≤ d * d') :
    0 ≤ x - d' ∧ x - d' < n := by
  obtain hsign | hsign := mul_nonneg_iff.1 h <;> omega

/-- Settles O45: a cell that the two moves bring into the grid is in the grid between them too, as
the moves do not oppose each other. -/
theorem unopposedMovesAdd : Obligations.UnopposedMovesAdd := by
  intro c b dx dy dx' dy' hc hb hdx hdy
  refine board_eq_of_cells (moveBoard_wf c _ dx' dy') (moveBoard_wf c _ _ _) fun x y hxy => ?_
  obtain ⟨hx, hy⟩ := inBounds_iff.1 hxy
  have hX : (x : Int) - dx' - dx = x - (dx + dx') := by ring
  have hY : (y : Int) - dy' - dy = y - (dy + dy') := by ring
  rw [movedBy_moveBoard (moveBoard_wf c b dx dy) dx' dy' x y hxy, cellAt_moveBoard hb,
    movedBy_moveBoard hb _ _ x y hxy, hX, hY, Bool.and_eq_right_iff_imp, decide_eq_true_eq]
  intro hcell
  obtain ⟨hx0, hxn, hy0, hyn, -⟩ := (cellAt_iff hb.2.1).1 hcell
  obtain ⟨hx0', hxn'⟩ := mem_grid_of_unopposed (n := c.n) (x := x) (by omega) ⟨hx0, hxn⟩ hdx
  obtain ⟨hy0', hyn'⟩ := mem_grid_of_unopposed (n := c.n) (x := y) (by omega) ⟨hy0, hyn⟩ hdy
  exact ⟨hx0', hxn', hy0', hyn'⟩

/-- Settles O48: `U(k)` then `D(k)` brings a cell back from row `y + k`, if there is one; a cell
that a horizontal move brings into the grid stood beyond the columns that the board uses. -/
theorem offBoardCellsAreLost : Obligations.OffBoardCellsAreLost := by
  intro c b col k hc hb
  refine ⟨fun x y hxy => ?upDown, fun hcols hk => ?left, fun hcols hk => ?right⟩
  case upDown =>
    obtain ⟨hx, hy⟩ := inBounds_iff.1 hxy
    rw [movedBy_moveBoard (moveBoard_wf c b 0 k) 0 (-k) x y hxy, cellAt_moveBoard hb, Bool.and_comm]
    have hrow : 0 ≤ (y : Int) + k ∧ ((y : Int) + k < c.n ↔ y + k < c.n) := by omega
    simp [hx, hrow.1, hrow.2]
  case left =>
    refine eq_zeroBoard_of_cells (moveBoard_wf c b _ _) fun x y hxy => Bool.eq_false_iff.2 ?_
    rw [movedBy_moveBoard hb _ _ x y hxy, cellAt]
    intro hcell
    have := hcols _ _ (Bool.and_eq_true_iff.1 hcell).2
    omega
  case right =>
    refine eq_zeroBoard_of_cells (moveBoard_wf c b _ _) fun x y hxy => Bool.eq_false_iff.2 ?_
    obtain ⟨hx, hy⟩ := inBounds_iff.1 hxy
    rw [movedBy_moveBoard hb _ _ x y hxy, cellAt]
    intro hcell
    simp only [Bool.and_eq_true, decide_eq_true_eq] at hcell
    have := hcols _ _ hcell.2
    omega

/-! ### Counts and combinators -/

/-- `T` relocates bits: bit `p` of `T b` is bit `src p` of `b` where `kept p`, and clear elsewhere;
what is kept comes from different places. -/
structure Relocates (c : Config) (T : Board → Board) (kept : Nat → Bool) (src : Nat → Nat) :
    Prop where
  wf : ∀ {b}, BoardWf c b → BoardWf c (T b)
  bits : ∀ {b}, BoardWf c b → ∀ p, bitOf c (T b) p = (kept p && bitOf c b (src p))
  inj : ∀ {p q}, kept p = true → kept q = true → src p = src q → p = q

/-- The bits of a raw-shifted board (`41_shift_engine.md` R162). -/
theorem bitOf_rawShiftBoard {c : Config} {b : Board} (hb : BoardWf c b) (delta : Int) (p : Nat) :
    bitOf c (rawShiftBoard c b delta) p =
      (decide (p < c.cells) && decide (delta ≤ p) && bitOf c b ((p : Int) - delta).toNat) := by
  rw [bitOf, boardVal_rawShiftBoard hb, testBit_lshift hb.2.2]
  rfl

/-- The bits of a moved board (`41_shift_engine.md` R164). -/
theorem bitOf_moveBoard {c : Config} {b : Board} (hb : BoardWf c b) (dx dy : Int) (p : Nat) :
    bitOf c (moveBoard c b dx dy) p =
      (decide (p < c.cells) && decide (linearShift c dx dy ≤ p) &&
        bitOf c b ((p : Int) - linearShift c dx dy).toNat && keepsColumn c dx (p % c.n)) := by
  rw [bitOf, boardVal_moveBoard, testBit_shiftMove hb.2.2]
  rfl

theorem relocates_rawShiftBoard (c : Config) (delta : Int) :
    Relocates c (fun b => rawShiftBoard c b delta)
      (fun p => decide (p < c.cells) && decide (delta ≤ p)) fun p => ((p : Int) - delta).toNat where
  wf hb := rawShiftBoard_wf hb delta
  bits hb p := bitOf_rawShiftBoard hb delta p
  inj {p q} hp hq h := by
    simp only [Bool.and_eq_true, decide_eq_true_eq] at hp hq
    omega

theorem relocates_moveBoard (c : Config) (dx dy : Int) :
    Relocates c (fun b => moveBoard c b dx dy)
      (fun p => decide (p < c.cells) && decide (linearShift c dx dy ≤ p) &&
        keepsColumn c dx (p % c.n))
      fun p => ((p : Int) - linearShift c dx dy).toNat where
  wf _ := moveBoard_wf c _ dx dy
  bits hb p := by rw [bitOf_moveBoard hb, Bool.and_right_comm]
  inj {p q} hp hq h := by
    simp only [Bool.and_eq_true, decide_eq_true_eq] at hp hq
    omega

/-- How many numbers below `n` satisfy `f`, as a list and as a set. -/
theorem countP_range_eq_card (n : Nat) (f : Nat → Bool) :
    (List.range n).countP f = ((Finset.range n).filter fun p => f p = true).card := by
  simpa [Nat.count] using Nat.count_eq_card_filter_range (fun p => f p = true) n

section
variable {c : Config} {T : Board → Board} {kept : Nat → Bool} {src : Nat → Nat}

/-- Relocating bits adds none: the set bits of `T b` come from as many set bits of `b`. -/
theorem Relocates.countOnes_le (h : Relocates c T kept src) {b : Board} (hb : BoardWf c b) :
    countOnes c (T b) ≤ countOnes c b := by
  have hkept : ∀ p, bitOf c (T b) p = true → kept p = true ∧ bitOf c b (src p) = true :=
    fun p hp => by rwa [h.bits hb, Bool.and_eq_true] at hp
  rw [countOnes_eq_countP hb, countOnes_eq_countP (h.wf hb), countP_range_eq_card,
    countP_range_eq_card]
  refine Finset.card_le_card_of_injOn src (fun p hp => ?_) fun p hp q hq hpq => ?_
  · simp only [Finset.mem_coe, Finset.mem_filter, Finset.mem_range] at hp ⊢
    have hbit := (hkept p hp.2).2
    exact ⟨lt_cells_of_testBit hb.2.2 hbit, hbit⟩
  · simp only [Finset.mem_coe, Finset.mem_filter, Finset.mem_range] at hp hq
    exact h.inj (hkept p hp.2).1 (hkept q hq.2).1 hpq

/-- Relocating bits commutes with combining boards bit by bit (`42_combinators.md` R200). -/
theorem Relocates.map_combineBoards (h : Relocates c T kept src) {op : Block → Block → Block}
    {f : Bool → Bool → Bool} (hf : f false false = false)
    (hop : ∀ u v k, (op u v).testBit k = f (u.testBit k) (v.testBit k))
    (hlt : ∀ u v, u < 2 ^ c.width → v < 2 ^ c.width → op u v < 2 ^ c.width)
    {a b : Board} (ha : BoardWf c a) (hb : BoardWf c b) :
    T (combineBoards c op a b) = combineBoards c op (T a) (T b) := by
  have hwf {a b : Board} (ha : BoardWf c a) (hb : BoardWf c b) :=
    boardWf_combineBoards hf hop hlt ha hb
  have hbits {a b : Board} (ha : BoardWf c a) (hb : BoardWf c b) (p : Nat) :
      bitOf c (combineBoards c op a b) p = f (bitOf c a p) (bitOf c b p) := by
    obtain hcell | hpadding := lt_or_ge p c.cells
    · have hp := hcell.trans_le (cells_le_blocks_mul c)
      simp [(bitOf_combineBoards hop hlt ha hb p).2, hp]
    · rw [bitOf_of_cells_le (hwf ha hb) hpadding, bitOf_of_cells_le ha hpadding,
        bitOf_of_cells_le hb hpadding, hf]
  refine board_eq_of_bits (h.wf (hwf ha hb)) (hwf (h.wf ha) (h.wf hb)) fun p _ => ?_
  rw [h.bits (hwf ha hb), hbits ha hb, hbits (h.wf ha) (h.wf hb), h.bits ha, h.bits hb]
  cases kept p <;> simp [hf]

/-- Relocating bits distributes over AND, OR and XOR (`41_shift_engine.md` R187 (e)). -/
theorem Relocates.map_combinators (h : Relocates c T kept src) {a b : Board} (ha : BoardWf c a)
    (hb : BoardWf c b) :
    T (combineBoards c (· &&& ·) a b) = combineBoards c (· &&& ·) (T a) (T b) ∧
    T (combineBoards c (· ||| ·) a b) = combineBoards c (· ||| ·) (T a) (T b) ∧
    T (combineBoards c (· ^^^ ·) a b) = combineBoards c (· ^^^ ·) (T a) (T b) :=
  ⟨h.map_combineBoards (f := and) rfl (fun u v k => Nat.testBit_and u v k)
      (fun _ _ hu _ => Nat.and_le_left.trans_lt hu) ha hb,
    h.map_combineBoards (f := or) rfl (fun u v k => Nat.testBit_or u v k)
      (fun _ _ hu hv => Nat.or_lt_two_pow hu hv) ha hb,
    h.map_combineBoards (f := xor) rfl (fun u v k => Nat.testBit_xor u v k)
      (fun _ _ hu hv => Nat.xor_lt_two_pow hu hv) ha hb⟩

end

/-- Settles O46: both shifts relocate bits. -/
theorem shiftsNeverAddCells : Obligations.ShiftsNeverAddCells := by
  intro c b _ hb
  exact ⟨fun dx dy => (relocates_moveBoard c dx dy).countOnes_le hb,
    fun delta => (relocates_rawShiftBoard c delta).countOnes_le hb⟩

/-- Settles O47: both shifts relocate bits. -/
theorem shiftsDistributeOverCombinators : Obligations.ShiftsDistributeOverCombinators := by
  intro c a b _ ha hb
  exact ⟨fun dx dy => (relocates_moveBoard c dx dy).map_combinators ha hb,
    fun delta => (relocates_rawShiftBoard c delta).map_combinators ha hb⟩

end Sys2Proof.Machine
end

section
/-! PROOFS. The shift commands (`41_shift_engine.md` R167 to R178): the words of SHM and what they
decode to, what a move shift does to the state, and each command by these. -/

namespace Sys2Proof.Machine

/-! ### The words of SHM -/

/-- The word of an SHM command is its fields in their places (`30_encoding.md` R81, R82). -/
theorem toWord_shmFields (rd rs1 : Reg) (f : BitVec 4) (hi lo : BitVec 8) :
    (shmFields rd rs1 f hi lo).toWord = shmWord rd rs1 f hi lo := by
  simp [shmFields, Fields.toWord_eq_or, shmWord, rdBits_eq, rs1Bits_eq, hiLoBits]

/-- What an SHM word decodes to is decided by its move kind (`30_encoding.md` R86, R91). -/
theorem decode_shmWord (rd rs1 : Reg) (f : BitVec 4) (hi lo : BitVec 8) (wdata : Block) :
    decode ⟨shmWord rd rs1 f hi lo, wdata⟩ = decodeShm (shmFields rd rs1 f hi lo) := by
  rw [decode, ← toWord_shmFields, Fields.ofWord_toWord]
  rfl

theorem requireZero_of_not {m : String} {zero : Bool} (i : Instr) (h : ¬ zero = true) :
    ∃ e, requireZero m zero i = .error e :=
  ⟨_, requireZero_eq_error.2 ⟨Bool.not_eq_true _ ▸ h, rfl⟩⟩

/-- A magnitude that Identity does not use makes the word illegal (`30_encoding.md` R91). -/
theorem decode_shmWord_identity {kv kh : BitVec 8} (h : kv ≠ 0 ∨ kh ≠ 0) (rd rs1 : Reg)
    (wdata : Block) : ∃ e, decode ⟨shmWord rd rs1 0 kv kh, wdata⟩ = .error e := by
  rw [decode_shmWord]
  exact requireZero_of_not _ (by simpa [shmFields, imp_iff_not_or] using h)

/-- A horizontal magnitude in a vertical move makes the word illegal (`30_encoding.md` R91). -/
theorem decode_shmWord_vertical {f : BitVec 4} (hf : f = 1 ∨ f = 2) (kv : BitVec 8)
    {kh : BitVec 8} (h : kh ≠ 0) (rd rs1 : Reg) (wdata : Block) :
    ∃ e, decode ⟨shmWord rd rs1 f kv kh, wdata⟩ = .error e := by
  rw [decode_shmWord]
  obtain rfl | rfl := hf <;> exact requireZero_of_not _ (by simpa [shmFields] using h)

/-- A vertical magnitude in a horizontal move makes the word illegal (`30_encoding.md` R91). -/
theorem decode_shmWord_horizontal {f : BitVec 4} (hf : f = 3 ∨ f = 4) {kv : BitVec 8}
    (h : kv ≠ 0) (kh : BitVec 8) (rd rs1 : Reg) (wdata : Block) :
    ∃ e, decode ⟨shmWord rd rs1 f kv kh, wdata⟩ = .error e := by
  rw [decode_shmWord]
  obtain rfl | rfl := hf <;> exact requireZero_of_not _ (by simpa [shmFields] using h)

/-! ### The linear shift as arithmetic -/

/-- Up within the meaningful positions (`41_shift_engine.md` R162). -/
theorem lshift_natCast (c : Config) (v k : Nat) :
    lshift c v k = v * 2 ^ k % 2 ^ c.cells := by
  rw [lshift, if_pos (Int.natCast_nonneg k), Int.toNat_natCast, and_full, Nat.shiftLeft_eq]

/-- Down: what falls below position 0 is dropped (`41_shift_engine.md` R162). -/
theorem lshift_neg_natCast {c : Config} {v : Nat} (hv : v ≤ c.full) (k : Nat) :
    lshift c v (-k) = v >>> k := by
  refine Nat.eq_of_testBit_eq fun p => ?_
  have hsource : ((p : Int) - -k).toNat = k + p := by omega
  have hle : -(k : Int) ≤ p := by omega
  rw [testBit_lshift hv, hsource, decide_eq_true hle, Nat.testBit_shiftRight, Bool.and_true,
    Bool.and_eq_right_iff_imp, decide_eq_true_eq]
  intro hbit
  have := lt_cells_of_testBit hv hbit
  omega

theorem and_full_of_le {c : Config} {v : Nat} (hv : v ≤ c.full) : v &&& c.full = v := by
  rw [and_full, Nat.mod_eq_of_lt ((le_full_iff c v).1 hv)]

/-! ### What a move shift does -/

/-- `t` is `s` after a command that completes and leaves in `rd` the board of `rs1` moved by
`(dx, dy)`: as cells, as an integer, and in the corner cases (`41_shift_engine.md` R164 to R167). -/
structure MoveEffect (rd rs1 : Reg) (dx dy : Int) (s t : State) : Prop where
  completed : Completed s t 0
  others : SameBoardsBut rd s t
  wf : t.Wf
  moved : MovedBy s.cfg (s.board rs1) (t.board rd) dx dy
  value : boardVal s.cfg (t.board rd) =
    lshift s.cfg (boardVal s.cfg (s.board rs1)) (dy * s.cfg.n + dx) &&& keep s.cfg dx
  copies : dx = 0 → dy = 0 → t.board rd = s.board rs1
  empties : (s.cfg.n : Int) ≤ |dx| ∨ (s.cfg.n : Int) ≤ |dy| → t.board rd = zeroBoard s.cfg

/-- A move shift on a well-formed state has its effect. -/
theorem shiftInto_effect {s : State} (hs : s.Wf) (rd rs1 : Reg) (dx dy : Int) :
    ∃ t, s.shiftInto rd rs1 dx dy = .next t ∧ MoveEffect rd rs1 dx dy s t := by
  obtain ⟨t, hexec, hcompleted, hothers, hwf, hboard⟩ := shiftInto_completes hs rd rs1 dx dy
  have hb : BoardWf s.cfg (s.board rs1) := hs.2 rs1
  refine ⟨t, hexec, hcompleted, hothers, hwf, ?moved, ?value, ?copies, ?empties⟩ <;> rw [hboard]
  case moved => exact movedBy_moveBoard hb dx dy
  case value => exact boardVal_moveBoard s.cfg _ dx dy
  case copies =>
    rintro rfl rfl
    exact moveBoard_zero hb
  case empties => exact moveBoard_eq_zeroBoard hb

section
variable {rd rs1 : Reg} {dx dy : Int} {s t : State}

/-- A vertical move has no edge mask (`41_shift_engine.md` R163). -/
theorem MoveEffect.value_vertical (h : MoveEffect rd rs1 0 dy s t) (hs : s.Wf) :
    boardVal s.cfg (t.board rd) = lshift s.cfg (boardVal s.cfg (s.board rs1)) (dy * s.cfg.n) := by
  rw [h.value, keep_zero, add_zero, and_full_of_le (lshift_le_full (hs.2 rs1).2.2 _)]

theorem MoveEffect.value_horizontal (h : MoveEffect rd rs1 dx 0 s t) :
    boardVal s.cfg (t.board rd) =
      lshift s.cfg (boardVal s.cfg (s.board rs1)) dx &&& keep s.cfg dx := by
  rw [h.value, zero_mul, zero_add]

/-- A magnitude of `N` or more empties the board, whatever its direction (`41_shift_engine.md`
R166). -/
theorem MoveEffect.empties_of_magnitude (h : MoveEffect rd rs1 dx dy s t) {kh kv : Nat}
    (hdx : |dx| = kh) (hdy : |dy| = kv) (hk : s.cfg.n ≤ kv ∨ s.cfg.n ≤ kh) :
    t.board rd = zeroBoard s.cfg := by
  refine h.empties ?_
  rw [hdx, hdy]
  omega

end

/-! ### SHM -/

/-- Settles O31: `rd` gets the board of `rs1` as it is, which is what a move by nothing gives. -/
theorem shmIdentityCopies : Obligations.ShmIdentityCopies := by
  intro rd rs1 s hs
  exact ⟨toWord_shmFields rd rs1 0 0 0, shiftMove_zero (hs.2 rs1).2.2, _, rfl,
    completed_setBoard s rd _ 0, sameBoardsBut_setBoard s rd _ _ _, wf_setBoard hs rd (hs.2 rs1),
    setBoard_board_same s rd _, fun kv kh wdata h => decode_shmWord_identity h rd rs1 wdata⟩

/-- Settles O32: the move by `(0, kv)`. -/
theorem shmUpMovesRows : Obligations.ShmUpMovesRows := by
  intro rd rs1 kv s hs
  obtain ⟨t, hexec, heff⟩ := shiftInto_effect hs rd rs1 0 kv.toNat
  refine ⟨toWord_shmFields rd rs1 1 kv 0, t, hexec, heff.completed, heff.others, heff.wf,
    heff.moved, ?value, fun h => heff.copies rfl (by omega),
    fun h => heff.empties_of_magnitude abs_zero (Nat.abs_cast _) (.inl h),
    fun kh wdata h => decode_shmWord_vertical (.inl rfl) kv h rd rs1 wdata⟩
  rw [heff.value_vertical hs, ← lshift_natCast, Nat.cast_mul]

/-- Settles O33: the move by `(0, -kv)`. -/
theorem shmDownMovesRows : Obligations.ShmDownMovesRows := by
  intro rd rs1 kv s hs
  obtain ⟨t, hexec, heff⟩ := shiftInto_effect hs rd rs1 0 (-kv.toNat)
  refine ⟨toWord_shmFields rd rs1 2 kv 0, t, hexec, heff.completed, heff.others, heff.wf,
    heff.moved, ?value, fun h => heff.copies rfl (by omega),
    fun h => heff.empties_of_magnitude abs_zero (by simp) (.inl h),
    fun kh wdata h => decode_shmWord_vertical (.inr rfl) kv h rd rs1 wdata⟩
  rw [heff.value_vertical hs, neg_mul, ← Nat.cast_mul, lshift_neg_natCast (hs.2 rs1).2.2,
    Nat.shiftRight_eq_div_pow]

/-- Settles O34: the move by `(-kh, 0)`. -/
theorem shmLeftMovesColumns : Obligations.ShmLeftMovesColumns := by
  intro rd rs1 kh s hs
  obtain ⟨t, hexec, heff⟩ := shiftInto_effect hs rd rs1 (-kh.toNat) 0
  refine ⟨toWord_shmFields rd rs1 3 0 kh, t, hexec, heff.completed, heff.others, heff.wf,
    heff.moved, ?value, fun h => heff.copies (by omega) rfl,
    fun h => heff.empties_of_magnitude (by simp) abs_zero (.inr h),
    fun kv wdata h => decode_shmWord_horizontal (.inl rfl) h kh rd rs1 wdata⟩
  rw [heff.value_horizontal, lshift_neg_natCast (hs.2 rs1).2.2]

/-- Settles O35: the move by `(kh, 0)`. -/
theorem shmRightMovesColumns : Obligations.ShmRightMovesColumns := by
  intro rd rs1 kh s hs
  obtain ⟨t, hexec, heff⟩ := shiftInto_effect hs rd rs1 kh.toNat 0
  refine ⟨toWord_shmFields rd rs1 4 0 kh, t, hexec, heff.completed, heff.others, heff.wf,
    heff.moved, ?value, fun h => heff.copies (by omega) rfl,
    fun h => heff.empties_of_magnitude (Nat.abs_cast _) abs_zero (.inr h),
    fun kv wdata h => decode_shmWord_horizontal (.inr rfl) h kh rd rs1 wdata⟩
  rw [heff.value_horizontal, lshift_natCast, and_full, Nat.shiftLeft_eq]

/-- Settles O36: the move by `(-kh, kv)`; with one magnitude 0 it is the other kind's own move. -/
theorem shmUpLeftMovesDiagonally : Obligations.ShmUpLeftMovesDiagonally := by
  intro rd rs1 kv kh s hs
  obtain ⟨t, hexec, heff⟩ := shiftInto_effect hs rd rs1 (-kh.toNat) kv.toNat
  refine ⟨toWord_shmFields rd rs1 5 kv kh, t, hexec, heff.completed, heff.others, heff.wf,
    heff.moved, heff.value, ?left, ?up, heff.empties_of_magnitude (by simp) (Nat.abs_cast _)⟩
  case left | up => rintro rfl; exact hexec

/-- Settles O37: the move by `(kh, kv)`; with one magnitude 0 it is the other kind's own move. -/
theorem shmUpRightMovesDiagonally : Obligations.ShmUpRightMovesDiagonally := by
  intro rd rs1 kv kh s hs
  obtain ⟨t, hexec, heff⟩ := shiftInto_effect hs rd rs1 kh.toNat kv.toNat
  refine ⟨toWord_shmFields rd rs1 6 kv kh, t, hexec, heff.completed, heff.others, heff.wf,
    heff.moved, heff.value, ?right, ?up,
    heff.empties_of_magnitude (Nat.abs_cast _) (Nat.abs_cast _)⟩
  case right | up => rintro rfl; exact hexec

/-- Settles O38: the move by `(-kh, -kv)`; with one magnitude 0 it is the other kind's own move. -/
theorem shmDownLeftMovesDiagonally : Obligations.ShmDownLeftMovesDiagonally := by
  intro rd rs1 kv kh s hs
  obtain ⟨t, hexec, heff⟩ := shiftInto_effect hs rd rs1 (-kh.toNat) (-kv.toNat)
  refine ⟨toWord_shmFields rd rs1 7 kv kh, t, hexec, heff.completed, heff.others, heff.wf,
    heff.moved, ?value, ?left, ?down, heff.empties_of_magnitude (by simp) (by simp)⟩
  case value => rw [heff.value, neg_mul, neg_add]
  case left | down => rintro rfl; exact hexec

/-- Settles O39: the move by `(kh, -kv)`; with one magnitude 0 it is the other kind's own move. -/
theorem shmDownRightMovesDiagonally : Obligations.ShmDownRightMovesDiagonally := by
  intro rd rs1 kv kh s hs
  obtain ⟨t, hexec, heff⟩ := shiftInto_effect hs rd rs1 kh.toNat (-kv.toNat)
  refine ⟨toWord_shmFields rd rs1 8 kv kh, t, hexec, heff.completed, heff.others, heff.wf,
    heff.moved, ?value, ?right, ?down, heff.empties_of_magnitude (Nat.abs_cast _) (by simp)⟩
  case value => rw [heff.value, neg_mul]
  case right | down => rintro rfl; exact hexec

/-- Every reserved kind has one of the three reserved rows (`30_encoding.md` R86). -/
theorem decodeShm_reserved (rd rs1 : Reg) {f : BitVec 4} (hf : 9 ≤ f.toNat) (hi lo : BitVec 8) :
    ∃ i, decodeShm (shmFields rd rs1 f hi lo) = .ok i ∧
      (i = .shmRsv9 rd rs1 hi lo ∨ (∃ sel, i = .shmRsv10to11 rd rs1 sel hi lo) ∨
        (∃ sel, i = .shmRsv12to15 rd rs1 sel hi lo)) := by
  have hkind : f = 9 ∨ (∃ sel : BitVec 1, f = 0b101#3 ++ sel) ∨
      (∃ sel : BitVec 2, f = 0b11#2 ++ sel) := by
    revert f; decide
  obtain rfl | ⟨sel, rfl⟩ | ⟨sel, rfl⟩ := hkind
  · exact ⟨_, rfl, .inl rfl⟩
  · exact ⟨_, decodeShm_rsv10to11 rd rs1 sel hi lo, .inr (.inl ⟨sel, rfl⟩)⟩
  · exact ⟨_, decodeShm_rsv12to15 rd rs1 sel hi lo, .inr (.inr ⟨sel, rfl⟩)⟩

/-- Settles O40: the three reserved rows have the one effect, which clears `rd` and raises
ILLEGAL_MOVE. -/
theorem reservedKindsClearAndReport : Obligations.ReservedKindsClearAndReport := by
  constructor
  · intro rd rs1 f hi lo wdata hf
    rw [decode_shmWord]
    exact decodeShm_reserved rd rs1 hf hi lo
  · intro rd rs1 sel1 sel2 hi lo s hs
    refine ⟨_, illegalMove_eq_next.2 rfl, rfl, rfl, raised_of_raise _ .illegalMove,
      sameBoardsBut_setBoard (s.record .illegalMove) rd _ _ _,
      wf_setBoard hs rd (zeroBoard_wf s.cfg), fun k _ => ?_⟩
    simp [State.blkRead]

/-! ### RSHL and RSHR -/

/-- The word of a RSHL (`41_shift_engine.md` R177). -/
theorem encode_rshl_word (rd rs1 : Reg) (count : BitVec 16) : (encode (.rshl rd rs1 count)).word =
    0x34000000#32 ||| rdBits rd ||| rs1Bits rs1 ||| count.setWidth 32 := by
  simp [encode, encodeFields, Fields.toWord_eq_or, rdBits_eq, rs1Bits_eq, ← hiLoBits_halves count,
    hiLoBits]

/-- The word of a RSHR (`41_shift_engine.md` R178). -/
theorem encode_rshr_word (rd rs1 : Reg) (count : BitVec 16) : (encode (.rshr rd rs1 count)).word =
    0x38000000#32 ||| rdBits rd ||| rs1Bits rs1 ||| count.setWidth 32 := by
  simp [encode, encodeFields, Fields.toWord_eq_or, rdBits_eq, rs1Bits_eq, ← hiLoBits_halves count,
    hiLoBits]

/-- A raw shift by nothing copies (`41_shift_engine.md` R177, R178). -/
theorem rawShiftBoard_zero {c : Config} {b : Board} (hb : BoardWf c b) :
    rawShiftBoard c b 0 = b :=
  board_eq_of_bits (rawShiftBoard_wf hb 0) hb fun p hp => by simp [bitOf_rawShiftBoard hb, hp]

/-- A raw shift by `CELLS` or more empties the board (`41_shift_engine.md` R177, R178). -/
theorem rawShiftBoard_eq_zeroBoard {c : Config} {b : Board} (hb : BoardWf c b) {delta : Int}
    (h : (c.cells : Int) ≤ |delta|) : rawShiftBoard c b delta = zeroBoard c :=
  board_eq_of_bits (rawShiftBoard_wf hb delta) (zeroBoard_wf c) fun p _ => by
    rw [bitOf, bitOf, boardVal_rawShiftBoard hb, lshift_eq_zero hb.2.2 h, boardVal_zeroBoard]

/-- A bit of a block is the board's bit at its position (`20_memory.md` R52). -/
theorem testBit_blockAt {c : Config} {b : Board} (hb : ∀ v ∈ b, v < 2 ^ c.width) (i k : Nat) :
    (blockAt b i).testBit k = (decide (k < c.width) && bitOf c b (i * c.width + k)) := by
  rw [blockAt_eq_slice c b hb, Nat.testBit_and, Nat.testBit_shiftRight, testBit_wmask,
    Bool.and_comm, bitOf]

/-- A bit of a stored block: of the value, where the block has a meaningful position (`20_memory.md`
R57). -/
theorem testBit_storedBlock {c : Config} (hc : c.legal) {i : Nat} (hi : i < c.blocks) (v k : Nat) :
    (storedBlock c i v).testBit k =
      (decide (k < c.width) && decide (i * c.width + k < c.cells) && v.testBit k) := by
  have hcells := cells_eq hc
  rw [Bool.and_comm, ← Bool.decide_and]
  obtain hfinal | hbelow : i = c.blocks - 1 ∨ i + 1 ≤ c.blocks - 1 := by omega
  · have hrem := rem_le hc
    have hk : k < c.rem ↔ k < c.width ∧ i * c.width + k < c.cells := by
      rw [hfinal]
      omega
    rw [storedBlock_final hfinal, Nat.testBit_and, testBit_lbm, decide_eq_decide.2 hk]
  · have hmul := Nat.mul_le_mul_right c.width hbelow
    rw [Nat.succ_mul] at hmul
    have hk : k < c.width ↔ k < c.width ∧ i * c.width + k < c.cells := by omega
    rw [storedBlock, if_neg (by omega), Nat.testBit_and, testBit_wmask, ← decide_eq_decide.2 hk]

/-- A raw shift up by `W` moves every block up by one index (`41_shift_engine.md` R177). -/
theorem blockAt_rawShiftBoard_width {c : Config} (hc : c.legal) {b : Board} (hb : BoardWf c b) :
    blockAt (rawShiftBoard c b c.width) 0 = 0 ∧ ∀ i, i + 1 < c.blocks →
      blockAt (rawShiftBoard c b c.width) (i + 1) = storedBlock c (i + 1) (blockAt b i) := by
  have hbits := (rawShiftBoard_wf hb c.width).2.1
  refine ⟨Nat.eq_of_testBit_eq fun k => ?first, fun i hi => Nat.eq_of_testBit_eq fun k => ?above⟩
  case first =>
    rw [testBit_blockAt hbits, bitOf_rawShiftBoard hb]
    by_cases hk : k < c.width <;> simp [hk]
  case above =>
    have hsource : (((i + 1) * c.width + k : Nat) - (c.width : Int)).toNat = i * c.width + k := by
      rw [Nat.succ_mul]
      omega
    have hle : (c.width : Int) ≤ ((i + 1) * c.width + k : Nat) := by
      rw [Nat.succ_mul]
      omega
    rw [testBit_blockAt hbits, bitOf_rawShiftBoard hb, hsource, decide_eq_true hle,
      testBit_storedBlock hc hi, testBit_blockAt hb.2.1]
    by_cases hk : k < c.width <;> simp [hk]

/-- Settles O41: the raw shift by `count`, as bits and as an integer. -/
theorem rshlShiftsPositionsUp : Obligations.RshlShiftsPositionsUp := by
  intro rd rs1 count s hs
  have hb : BoardWf s.cfg (s.board rs1) := hs.2 rs1
  refine ⟨encode_rshl_word rd rs1 count, _, rfl, completed_setBoard s rd _ 0,
    sameBoardsBut_setBoard s rd _ _ _, wf_setBoard hs rd (rawShiftBoard_wf hb _), fun p => ?bits,
    fun h => ?copies, fun h => ?empties, ?value, fun h => ?blocks⟩ <;>
    simp only [answer_board, setBoard_board_same, blkRead_setBoard_answer]
  case bits =>
    rw [bitOf_rawShiftBoard hb, Int.toNat_sub]
    simp
  case copies => rw [h, Nat.cast_zero, rawShiftBoard_zero hb]
  case empties => exact rawShiftBoard_eq_zeroBoard hb (by rw [Nat.abs_cast]; omega)
  case value => rw [boardVal_rawShiftBoard hb, lshift_natCast]
  case blocks =>
    rw [h]
    exact blockAt_rawShiftBoard_width hs.1 hb

/-- Settles O42: the raw shift by `-count`, as an integer and as bits. -/
theorem rshrShiftsPositionsDown : Obligations.RshrShiftsPositionsDown := by
  intro rd rs1 count s hs
  have hb : BoardWf s.cfg (s.board rs1) := hs.2 rs1
  have hvalue : boardVal s.cfg (rawShiftBoard s.cfg (s.board rs1) (-count.toNat)) =
      boardVal s.cfg (s.board rs1) >>> count.toNat := by
    rw [boardVal_rawShiftBoard hb, lshift_neg_natCast hb.2.2]
  refine ⟨encode_rshr_word rd rs1 count, _, rfl, completed_setBoard s rd _ 0,
    sameBoardsBut_setBoard s rd _ _ _, wf_setBoard hs rd (rawShiftBoard_wf hb _), fun p => ?bits,
    ?value, fun h => ?copies, fun h => ?empties⟩ <;>
    simp only [answer_board, setBoard_board_same]
  case bits => rw [bitOf, hvalue, Nat.testBit_shiftRight, Nat.add_comm, bitOf]
  case value => rw [hvalue, Nat.shiftRight_eq_div_pow]
  case copies => rw [h, Nat.cast_zero, neg_zero, rawShiftBoard_zero hb]
  case empties => exact rawShiftBoard_eq_zeroBoard hb (by rw [abs_neg, Nat.abs_cast]; omega)

end Sys2Proof.Machine
end

section
/-! PROOFS. The datapath of the shift engine (`41_shift_engine.md` R180 to R186): the closed form, a
chunk step and the masks bit by bit, and that both ways give the shift function's board. -/

namespace Sys2Proof.Machine

/-! ### Bits at integer positions -/

/-- The board's bit at an integer position, clear below 0: a block that straddles two blocks of a
shifted board is a window of these. -/
def bitAt (c : Config) (b : Board) (p : Int) : Bool := decide (0 ≤ p) && bitOf c b p.toNat

@[simp] theorem bitAt_natCast (c : Config) (b : Board) (p : Nat) : bitAt c b p = bitOf c b p := by
  simp [bitAt]

theorem bitAt_of_neg {c : Config} {b : Board} {p : Int} (hp : p < 0) : bitAt c b p = false := by
  simp [bitAt, hp]

/-- A raw shift takes position `p` from `delta` below it (`41_shift_engine.md` R162). -/
theorem bitOf_rawShiftBoard_eq_bitAt {c : Config} {b : Board} (hb : BoardWf c b) (delta : Int)
    (p : Nat) : bitOf c (rawShiftBoard c b delta) p =
      (decide (p < c.cells) && bitAt c b (p - delta)) := by
  rw [bitOf_rawShiftBoard hb, bitAt, Bool.and_assoc, decide_eq_decide.2 Int.sub_nonneg]

/-- A move shift does so too, and then applies the edge mask (`41_shift_engine.md` R164). -/
theorem bitOf_moveBoard_eq_bitAt {c : Config} {b : Board} (hb : BoardWf c b) (dx dy : Int)
    (p : Nat) : bitOf c (moveBoard c b dx dy) p =
      (decide (p < c.cells) && bitAt c b (p - linearShift c dx dy) &&
        keepsColumn c dx (p % c.n)) := by
  rw [bitOf_moveBoard hb, bitAt, ← Bool.and_assoc, decide_eq_decide.2 Int.sub_nonneg]

/-- A bit of a block of an edge mask (`41_shift_engine.md` R163). -/
theorem testBit_edgeMask (c : Config) (dx : Int) (i k : Nat) : (edgeMask c dx i).testBit k =
    (decide (k < c.width) && decide (i * c.width + k < c.cells) &&
      keepsColumn c dx ((i * c.width + k) % c.n)) := by
  rw [edgeMask, Nat.testBit_and, Nat.testBit_shiftRight, testBit_keep, testBit_wmask, Bool.and_comm,
    Bool.and_assoc]

/-! ### Boards of `B` blocks of `W` bits -/

/-- `B` blocks of `W` bits each, with any padding: what a chunk step leaves before the masks are
applied (`41_shift_engine.md` R185). -/
def Sized (c : Config) (b : Board) : Prop := b.length = c.blocks ∧ ∀ v ∈ b, v < 2 ^ c.width

theorem BoardWf.sized {c : Config} {b : Board} (hb : BoardWf c b) : Sized c b := ⟨hb.1, hb.2.1⟩

theorem sized_of_testBit {c : Config} {b : Board} (hlength : b.length = c.blocks)
    (h : ∀ i, i < c.blocks → ∀ k, c.width ≤ k → (blockAt b i).testBit k = false) : Sized c b := by
  refine ⟨hlength, fun v hv => ?_⟩
  obtain ⟨i, hi, rfl⟩ := List.mem_iff_getElem.1 hv
  have hblock : blockAt b i = b[i] := by simp [blockAt, hi]
  exact hblock ▸ Nat.lt_pow_two_of_testBit _ fun k hk => h i (hlength ▸ hi) k hk

/-- A board is another when its blocks show the other's bits. -/
theorem eq_of_testBit_blockAt {c : Config} {a b : Board} (ha : a.length = c.blocks)
    (hb : Sized c b) (h : ∀ i, i < c.blocks → ∀ k, (blockAt a i).testBit k =
      (decide (k < c.width) && bitOf c b (i * c.width + k))) : a = b := by
  refine board_ext (ha.trans hb.1.symm) fun i hi => Nat.eq_of_testBit_eq fun k => ?_
  rw [h i (ha ▸ hi), testBit_blockAt hb.2]

/-- The bits of a board from those of its blocks. -/
theorem bitAt_of_blocks {c : Config} {b : Board} (hb : Sized c b) {g : Int → Bool}
    (h : ∀ i, i < c.blocks → ∀ k, k < c.width →
      (blockAt b i).testBit k = g ((i : Int) * c.width + k))
    {p : Int} (hp : 0 ≤ p) (hlt : p < (c.blocks * c.width : Nat)) : bitAt c b p = g p := by
  lift p to Nat using hp
  have hi : p / c.width < c.blocks :=
    (Nat.div_lt_iff_lt_mul (width_pos c)).2 (Int.ofNat_lt.1 hlt)
  have hsplit : ((p / c.width : Nat) : Int) * c.width + (p % c.width : Nat) = p := by
    exact_mod_cast Nat.div_add_mod' p c.width
  rw [bitAt_natCast, bitOf, testBit_boardVal c b hb.2, h _ hi _ (Nat.mod_lt p (width_pos c)),
    hsplit]

/-- There is no bit at or beyond `B*W`. -/
theorem bitAt_of_ge {c : Config} {b : Board} (hb : Sized c b) {p : Int}
    (hp : (c.blocks * c.width : Nat) ≤ p) : bitAt c b p = false := by
  lift p to Nat using by omega
  have hlt : boardVal c b < 2 ^ (c.blocks * c.width) := hb.1 ▸ boardVal_lt c b hb.2
  rw [bitAt_natCast, bitOf]
  exact Nat.testBit_lt_two_pow (hlt.trans_le (Nat.pow_le_pow_right (by decide) (by omega)))

/-! ### Windows across two blocks -/

/-- A block beyond the end reads 0 either way. -/
theorem oldBlock_natCast {c : Config} {b : Board} (hb : Sized c b) (j : Nat) :
    oldBlock c b j = blockAt b j := by
  obtain hj | hj := lt_or_ge j c.blocks
  · simp [oldBlock, hj]
  · simp [oldBlock, Nat.not_lt.2 hj, blockAt_of_length_le (hb.1.trans_le hj)]

theorem oldBlock_of_neg (c : Config) (b : Board) {j : Int} (hj : j < 0) : oldBlock c b j = 0 := by
  rw [oldBlock, if_neg (by omega)]

/-- A bit of `old[j]` is the board's bit at its position, 0 outside the blocks
(`41_shift_engine.md` R180). -/
theorem testBit_oldBlock {c : Config} {b : Board} (hb : Sized c b) (j : Int) (k : Nat) :
    (oldBlock c b j).testBit k = (decide (k < c.width) && bitAt c b (j * c.width + k)) := by
  obtain hj | hj := le_or_gt 0 j
  · lift j to Nat using hj
    rw [oldBlock_natCast hb, testBit_blockAt hb.2]
    norm_cast
  · rw [oldBlock_of_neg c b hj, Nat.zero_testBit]
    by_cases hk : k < c.width
    · rw [bitAt_of_neg (by nlinarith), Bool.and_false]
    · simp [hk]

/-- The `W` bits from `r` below block `j` on: the low bits of `old[j]` moved up, and below them the
high bits of `old[j-1]` (`41_shift_engine.md` R180, R182). -/
def windowBelow (c : Config) (b : Board) (r : Nat) (j : Int) : Block :=
  ((oldBlock c b j <<< r) &&& c.wmask) ||| (oldBlock c b (j - 1) >>> (c.width - r))

/-- The `W` bits from `r` above the start of block `j` on: the high bits of `old[j]` moved down, and
above them the low bits of `old[j+1]` (`41_shift_engine.md` R180, R183). -/
def windowAbove (c : Config) (b : Board) (r : Nat) (j : Int) : Block :=
  (oldBlock c b j >>> r) ||| ((oldBlock c b (j + 1) <<< (c.width - r)) &&& c.wmask)

theorem testBit_windowBelow {c : Config} {b : Board} (hb : Sized c b) {r : Nat}
    (hr : r ≤ c.width) (j : Int) (k : Nat) : (windowBelow c b r j).testBit k =
      (decide (k < c.width) && bitAt c b (j * c.width + k - r)) := by
  rw [windowBelow, Nat.testBit_or, Nat.testBit_and, testBit_wmask, Nat.testBit_shiftLeft,
    Nat.testBit_shiftRight, testBit_oldBlock hb, testBit_oldBlock hb]
  obtain hk | hk := lt_or_ge k c.width
  · obtain hkr | hkr := lt_or_ge k r
    · have hposition : (j - 1) * c.width + (c.width - r + k : Nat) = j * c.width + k - r := by
        push_cast [hr]
        ring
      have hlow : c.width - r + k < c.width := by omega
      rw [hposition]
      simp [hk, hlow, Nat.not_le.2 hkr]
    · have hposition : j * c.width + (k - r : Nat) = j * c.width + k - r := by
        push_cast [hkr]
        ring
      have hhigh : k - r < c.width := by omega
      have hnone : ¬ c.width - r + k < c.width := by omega
      rw [hposition]
      simp [hk, hkr, hhigh, hnone]
  · have hnone : ¬ c.width - r + k < c.width := by omega
    simp [Nat.not_lt.2 hk, hnone]

theorem testBit_windowAbove {c : Config} {b : Board} (hb : Sized c b) {r : Nat}
    (hr : r ≤ c.width) (j : Int) (k : Nat) : (windowAbove c b r j).testBit k =
      (decide (k < c.width) && bitAt c b (j * c.width + k + r)) := by
  rw [windowAbove, Nat.testBit_or, Nat.testBit_and, testBit_wmask, Nat.testBit_shiftLeft,
    Nat.testBit_shiftRight, testBit_oldBlock hb, testBit_oldBlock hb]
  obtain hk | hk := lt_or_ge k c.width
  · obtain hkr | hkr := lt_or_ge k (c.width - r)
    · have hposition : j * c.width + (r + k : Nat) = j * c.width + k + r := by
        push_cast
        ring
      have hlow : r + k < c.width := by omega
      rw [hposition]
      simp [hk, hlow, Nat.not_le.2 hkr]
    · have hposition : (j + 1) * c.width + (k - (c.width - r) : Nat) = j * c.width + k + r := by
        push_cast [hkr, hr]
        ring
      have hhigh : k - (c.width - r) < c.width := by omega
      have hnone : ¬ r + k < c.width := by omega
      rw [hposition]
      simp [hk, hkr, hhigh, hnone]
  · have hnone : ¬ r + k < c.width := by omega
    simp [Nat.not_lt.2 hk, hnone]

/-! ### The closed form -/

theorem natCast_div_add_mod (c : Config) (s : Nat) :
    ((s / c.width : Nat) : Int) * c.width + (s % c.width : Nat) = s := by
  exact_mod_cast Nat.div_add_mod' s c.width

/-- The closed form up: `q` whole blocks, then a window `r` below (`41_shift_engine.md` R180). -/
theorem testBit_closedUp {c : Config} {b : Board} (hb : Sized c b) (s i k : Nat) :
    (closedUp c b s i).testBit k =
      (decide (k < c.width) && bitAt c b ((i : Int) * c.width + k - s)) := by
  have hsplit := natCast_div_add_mod c s
  rw [← hsplit]
  by_cases hr : s % c.width = 0
  · rw [closedUp, if_pos hr, testBit_oldBlock hb, hr]
    congr 2
    push_cast
    ring
  · rw [closedUp, if_neg hr, ← windowBelow,
      testBit_windowBelow hb (Nat.mod_lt s (width_pos c)).le]
    congr 2
    ring

/-- The closed form down: `q` whole blocks, then a window `r` above (`41_shift_engine.md` R180). -/
theorem testBit_closedDown {c : Config} {b : Board} (hb : Sized c b) (s i k : Nat) :
    (closedDown c b s i).testBit k =
      (decide (k < c.width) && bitAt c b ((i : Int) * c.width + k + s)) := by
  have hsplit := natCast_div_add_mod c s
  rw [← hsplit]
  by_cases hr : s % c.width = 0
  · rw [closedDown, if_pos hr, testBit_oldBlock hb, hr]
    congr 2
    push_cast
    ring
  · rw [closedDown, if_neg hr, ← windowAbove,
      testBit_windowAbove hb (Nat.mod_lt s (width_pos c)).le]
    congr 2
    ring

theorem blockAt_closedMove (c : Config) (b : Board) (dx dy : Int) {i : Nat} (hi : i < c.blocks) :
    blockAt (closedMove c b dx dy) i =
      (if 0 ≤ linearShift c dx dy then closedUp c b (linearShift c dx dy).toNat i
        else closedDown c b (-linearShift c dx dy).toNat i) &&& edgeMask c dx i := by
  rw [closedMove, blockAt_map_range, if_pos hi]

/-- In the final block an edge mask has no bit of the padding (`41_shift_engine.md` R180). -/
theorem edgeMask_and_compl_lbm {c : Config} (hc : c.legal) (dx : Int) :
    edgeMask c dx (c.blocks - 1) &&& c.compl c.lbm = 0 := by
  refine Nat.eq_of_testBit_eq fun k => ?_
  have hcells := cells_eq hc
  have hrem : (c.blocks - 1) * c.width + k < c.cells ↔ k < c.rem := by omega
  rw [Nat.testBit_and, testBit_edgeMask, testBit_compl, testBit_lbm, Nat.zero_testBit]
  by_cases hk : k < c.rem
  · simp [hk, hk.trans_le (rem_le hc)]
  · simp [hrem, hk]

/-- Below the final block a vertical move has no edge mask (`41_shift_engine.md` R180). -/
theorem edgeMask_zero {c : Config} (hc : c.legal) {i : Nat} (hi : i < c.blocks - 1) :
    edgeMask c 0 i = c.wmask := by
  refine Nat.eq_of_testBit_eq fun k => ?_
  have hmul := Nat.mul_le_mul_right c.width (Nat.succ_le_of_lt hi)
  have hlast := pred_blocks_mul_lt hc
  rw [Nat.succ_mul] at hmul
  rw [testBit_edgeMask, testBit_wmask]
  by_cases hk : k < c.width
  · have hcell : i * c.width + k < c.cells := by omega
    simp [hk, hcell, keepsColumn]
  · simp [hk]

/-- The closed form is the shift function: block by block, the bits come from `delta` below. -/
theorem closedMove_eq_moveBoard {c : Config} {b : Board} (hb : BoardWf c b) (dx dy : Int) :
    closedMove c b dx dy = moveBoard c b dx dy := by
  have hlength : (closedMove c b dx dy).length = c.blocks := by simp [closedMove]
  refine eq_of_testBit_blockAt hlength (moveBoard_wf c b dx dy).sized fun i hi k => ?_
  have hshift : (if 0 ≤ linearShift c dx dy then closedUp c b (linearShift c dx dy).toNat i
        else closedDown c b (-linearShift c dx dy).toNat i).testBit k =
      (decide (k < c.width) && bitAt c b ((i * c.width + k : Nat) - linearShift c dx dy)) := by
    split
    · rw [testBit_closedUp hb.sized]
      congr 2
      omega
    · rw [testBit_closedDown hb.sized]
      congr 2
      omega
  rw [blockAt_closedMove c b dx dy hi, Nat.testBit_and, hshift, testBit_edgeMask,
    bitOf_moveBoard_eq_bitAt hb]
  cases decide (k < c.width) <;> cases decide (i * c.width + k < c.cells) <;> simp

/-- Settles O44: block by block the closed form has the bits of the moved board. -/
theorem closedFormComputesTheShift : Obligations.ClosedFormComputesTheShift := by
  intro c hc
  exact ⟨fun b dx dy hb => closedMove_eq_moveBoard hb dx dy, fun i hi => edgeMask_zero hc hi,
    fun dx => edgeMask_and_compl_lbm hc dx⟩

/-! ### One chunk step -/

/-- The loop of a chunk step in either direction: each block gives its own part and OR-s in what the
block before it handed on (`41_shift_engine.md` R182, R183). -/
def carryChain (own out : Block → Block) (carry : Block) (b : Board) : Board :=
  match b with
  | [] => []
  | v :: rest => (own v ||| carry) :: carryChain own out (out v) rest

@[simp] theorem length_carryChain (own out : Block → Block) (carry : Block) (b : Board) :
    (carryChain own out carry b).length = b.length := by
  induction b generalizing carry with
  | nil => rfl
  | cons v rest ih => simp [carryChain, ih]

theorem blockAt_carryChain (own out : Block → Block) (carry : Block) {b : Board} {i : Nat}
    (hi : i < b.length) : blockAt (carryChain own out carry b) i =
      own (blockAt b i) ||| if i = 0 then carry else out (blockAt b (i - 1)) := by
  induction b generalizing carry i with
  | nil => simp at hi
  | cons v rest ih =>
    cases i with
    | zero => rfl
    | succ i =>
      have hrest : blockAt (carryChain own out (out v) rest) i =
          own (blockAt rest i) ||| if i = 0 then out v else out (blockAt rest (i - 1)) :=
        ih (out v) (by simpa using hi)
      cases i <;> exact hrest

/-- A chunk of `W` is the general step at `k = W`: a block's own part is 0 (`41_shift_engine.md`
R184). -/
theorem chunkUpFrom_eq (c : Config) (k : Nat) (carry : Block) (b : Board) :
    chunkUpFrom c k carry b =
      carryChain (fun v => (v <<< k) &&& c.wmask) (fun v => v >>> (c.width - k)) carry b := by
  induction b generalizing carry with
  | nil => rfl
  | cons v rest ih =>
    rw [chunkUpFrom, carryChain]
    split
    · next hk =>
      rw [ih]
      simp [hk, and_wmask, Nat.shiftLeft_eq]
    · rw [ih]

theorem chunkDownFrom_eq (c : Config) (k : Nat) (carry : Block) {b : Board}
    (hb : ∀ v ∈ b, v < 2 ^ c.width) : chunkDownFrom c k carry b =
      carryChain (fun v => v >>> k) (fun v => (v <<< (c.width - k)) &&& c.wmask) carry b := by
  induction b generalizing carry with
  | nil => rfl
  | cons v rest ih =>
    obtain ⟨hv, hrest⟩ := List.forall_mem_cons.1 hb
    rw [chunkDownFrom, carryChain]
    split
    · next hk =>
      rw [ih _ hrest]
      simp [hk, and_wmask, Nat.mod_eq_of_lt hv, Nat.shiftRight_eq_div_pow, Nat.div_eq_of_lt hv]
    · rw [ih _ hrest]

theorem blockAt_chunkUp {c : Config} {b : Board} (hb : Sized c b) (k : Nat) {i : Nat}
    (hi : i < c.blocks) : blockAt (chunkUp c k b) i = windowBelow c b k i := by
  rw [chunkUp, chunkUpFrom_eq, blockAt_carryChain _ _ _ (hb.1 ▸ hi), windowBelow,
    oldBlock_natCast hb]
  cases i with
  | zero => simp [oldBlock_of_neg]
  | succ i =>
    have hpred : ((i + 1 : Nat) : Int) - 1 = i := by omega
    rw [hpred, oldBlock_natCast hb]
    rfl

theorem blockAt_reverse {b : Board} {i : Nat} (hi : i < b.length) :
    blockAt b.reverse i = blockAt b (b.length - 1 - i) := by
  simp [blockAt, List.getElem?_reverse hi]

theorem blockAt_chunkDown {c : Config} {b : Board} (hb : Sized c b) (k : Nat) {i : Nat}
    (hi : i < c.blocks) : blockAt (chunkDown c k b) i = windowAbove c b k i := by
  have hlength : b.length = c.blocks := hb.1
  have hreverse : ∀ v ∈ b.reverse, v < 2 ^ c.width := fun v hv => hb.2 v (List.mem_reverse.1 hv)
  have hself : blockAt b.reverse (b.length - 1 - i) = blockAt b i := by
    rw [blockAt_reverse (by omega)]
    congr 1
    omega
  have hnext : ((i : Int) + 1) = (i + 1 : Nat) := rfl
  rw [chunkDown, chunkDownFrom_eq c k 0 hreverse, blockAt_reverse (by simpa using by omega),
    length_carryChain, List.length_reverse, blockAt_carryChain _ _ _ (by simpa using by omega),
    hself, windowAbove, hnext, oldBlock_natCast hb, oldBlock_natCast hb]
  obtain hlast | hbelow : i + 1 = b.length ∨ i + 1 < b.length := by omega
  · rw [if_pos (by omega), blockAt_of_length_le hlast.ge]
    simp
  · have habove : blockAt b.reverse (b.length - 1 - i - 1) = blockAt b (i + 1) := by
      rw [blockAt_reverse (by omega)]
      congr 1
      omega
    rw [if_neg (by omega), habove]

/-- A chunk step in either direction (`41_shift_engine.md` R181). -/
def chunkStep (c : Config) (up : Bool) (k : Nat) (b : Board) : Board :=
  if up then chunkUp c k b else chunkDown c k b

/-- A total shift in either direction as a displacement. -/
def signedShift (up : Bool) (s : Nat) : Int := if up then s else -s

@[simp] theorem signedShift_true (s : Nat) : signedShift true s = s := rfl
@[simp] theorem signedShift_false (s : Nat) : signedShift false s = -s := rfl

theorem length_chunkStep {c : Config} {b : Board} (hb : Sized c b) (up : Bool) (k : Nat) :
    (chunkStep c up k b).length = c.blocks := by
  have hreverse : ∀ v ∈ b.reverse, v < 2 ^ c.width := fun v hv => hb.2 v (List.mem_reverse.1 hv)
  cases up with
  | true => simp [chunkStep, chunkUp, chunkUpFrom_eq, hb.1]
  | false => simp [chunkStep, chunkDown, chunkDownFrom_eq c k 0 hreverse, hb.1]

/-- A chunk step shifts every position by its width (`41_shift_engine.md` R182, R183). -/
theorem testBit_chunkStep {c : Config} {b : Board} (hb : Sized c b) (up : Bool) {k : Nat}
    (hk : k ≤ c.width) {i : Nat} (hi : i < c.blocks) (j : Nat) :
    (blockAt (chunkStep c up k b) i).testBit j =
      (decide (j < c.width) && bitAt c b ((i : Int) * c.width + j - signedShift up k)) := by
  cases up with
  | true => exact blockAt_chunkUp hb k hi ▸ testBit_windowBelow hb hk i j
  | false =>
    rw [signedShift_false, sub_neg_eq_add, ← testBit_windowAbove hb hk, ← blockAt_chunkDown hb k hi]
    rfl

theorem sized_chunkStep {c : Config} {b : Board} (hb : Sized c b) (up : Bool) {k : Nat}
    (hk : k ≤ c.width) : Sized c (chunkStep c up k b) :=
  sized_of_testBit (length_chunkStep hb up k) fun i hi j hj => by
    simp [testBit_chunkStep hb up hk hi, Nat.not_lt.2 hj]

/-- The positions whose bits a shift in one direction can still bring into the blocks: those below
`B*W` when it goes up, those from 0 on when it goes down. -/
def Ahead (c : Config) (up : Bool) (p : Int) : Prop :=
  if up then p < (c.blocks * c.width : Nat) else 0 ≤ p

theorem ahead_true {c : Config} {p : Int} :
    Ahead c true p ↔ p < (c.blocks * c.width : Nat) := by simp [Ahead]
theorem ahead_false {c : Config} {p : Int} : Ahead c false p ↔ 0 ≤ p := by simp [Ahead]

theorem Ahead.sub {c : Config} {up : Bool} {p : Int} (h : Ahead c up p) (s : Nat) :
    Ahead c up (p - signedShift up s) := by
  cases up with
  | true =>
    rw [ahead_true] at h ⊢
    rw [signedShift_true]
    omega
  | false =>
    rw [ahead_false] at h ⊢
    rw [signedShift_false]
    omega

/-- A chunk step takes position `p` from its width behind (`41_shift_engine.md` R182, R183). -/
theorem bitAt_chunkStep {c : Config} {b : Board} (hb : Sized c b) {up : Bool} {k : Nat}
    (hk : k ≤ c.width) {p : Int} (hp : Ahead c up p) :
    bitAt c (chunkStep c up k b) p = bitAt c b (p - signedShift up k) := by
  have hsized := sized_chunkStep hb up hk
  by_cases hin : 0 ≤ p ∧ p < (c.blocks * c.width : Nat)
  · refine bitAt_of_blocks hsized (g := fun p => bitAt c b (p - signedShift up k))
      (fun i hi j hj => ?_) hin.1 hin.2
    simp [testBit_chunkStep hb up hk hi, hj]
  · cases up with
    | true =>
      have hlt := ahead_true.1 hp
      rw [signedShift_true, bitAt_of_neg (by omega), bitAt_of_neg (by omega)]
    | false =>
      have hle := ahead_false.1 hp
      rw [signedShift_false, bitAt_of_ge hsized (by omega), bitAt_of_ge hb (by omega)]

/-! ### All chunks, then the masks -/

theorem runChunks_cons (c : Config) (up : Bool) (k : Nat) (chunks : List Nat) (b : Board) :
    runChunks c up (k :: chunks) b = runChunks c up chunks (chunkStep c up k b) := rfl

/-- The chunks together shift every position by their sum (`41_shift_engine.md` R181). -/
theorem bitAt_runChunks {c : Config} (up : Bool) (chunks : List Nat)
    (hchunks : ∀ k ∈ chunks, 1 ≤ k ∧ k ≤ c.width) {b : Board} (hb : Sized c b) :
    Sized c (runChunks c up chunks b) ∧ ∀ p, Ahead c up p →
      bitAt c (runChunks c up chunks b) p = bitAt c b (p - signedShift up chunks.sum) := by
  induction chunks generalizing b with
  | nil => exact ⟨hb, fun p _ => by cases up <;> simp [runChunks]⟩
  | cons k chunks ih =>
    obtain ⟨⟨-, hk⟩, hrest⟩ := List.forall_mem_cons.1 hchunks
    obtain ⟨hsized, hbits⟩ := ih hrest (sized_chunkStep hb up hk)
    have hsum : signedShift up (k :: chunks).sum =
        signedShift up chunks.sum + signedShift up k := by
      cases up <;> simp [add_comm]
    refine ⟨hsized, fun p hp => ?_⟩
    rw [runChunks_cons, hbits p hp, bitAt_chunkStep hb hk (hp.sub _), hsum, sub_sub]

theorem blockAt_mapIdx (f : Nat → Block → Block) {b : Board} {i : Nat} (hi : i < b.length) :
    blockAt (b.mapIdx f) i = f i (blockAt b i) := by
  simp [blockAt, hi]

/-- The masks keep the meaningful positions that the edge mask keeps (`41_shift_engine.md` R185). -/
theorem testBit_applyMasks {c : Config} (hc : c.legal) (em : Nat → Block) {b : Board}
    (hb : Sized c b) {i : Nat} (hi : i < c.blocks) (k : Nat) :
    (blockAt (applyMasks c em b) i).testBit k =
      (decide (k < c.width) && decide (i * c.width + k < c.cells) &&
        (bitAt c b (i * c.width + k : Nat) && (em i).testBit k)) := by
  have hstored : blockAt (applyMasks c em b) i = storedBlock c i (blockAt b i &&& em i) := by
    have hlt : blockAt b i &&& em i < 2 ^ c.width := Nat.and_le_left.trans_lt (blockAt_lt hb.2 i)
    rw [applyMasks, blockAt_mapIdx _ (hb.1 ▸ hi), storedBlock, and_wmask, Nat.mod_eq_of_lt hlt]
  rw [hstored, testBit_storedBlock hc hi, Nat.testBit_and, testBit_blockAt hb.2, bitAt_natCast]
  cases decide (k < c.width) <;> simp

/-- A split of `|delta|` goes by `delta` in its direction (`41_shift_engine.md` R181). -/
theorem signedShift_natAbs (delta : Int) :
    signedShift (decide (0 ≤ delta)) delta.natAbs = delta := by
  simp only [signedShift, decide_eq_true_eq]
  split <;> omega

/-- The blocks that the chunks and the masks leave (`41_shift_engine.md` R181 to R185). -/
theorem testBit_applyMasks_runChunks {c : Config} (hc : c.legal) (em : Nat → Block) {b : Board}
    (hb : BoardWf c b) {delta : Int} {chunks : List Nat}
    (hchunks : ∀ k ∈ chunks, 1 ≤ k ∧ k ≤ c.width) (hsum : chunks.sum = delta.natAbs) :
    (applyMasks c em (runChunks c (decide (0 ≤ delta)) chunks b)).length = c.blocks ∧
    ∀ i, i < c.blocks → ∀ k,
      (blockAt (applyMasks c em (runChunks c (decide (0 ≤ delta)) chunks b)) i).testBit k =
        (decide (k < c.width) && decide (i * c.width + k < c.cells) &&
          (bitAt c b ((i * c.width + k : Nat) - delta) && (em i).testBit k)) := by
  obtain ⟨hsized, hbits⟩ := bitAt_runChunks (decide (0 ≤ delta)) chunks hchunks hb.sized
  rw [hsum, signedShift_natAbs] at hbits
  refine ⟨by simp [applyMasks, hsized.1], fun i hi k => ?_⟩
  rw [testBit_applyMasks hc em hsized hi]
  by_cases hcell : i * c.width + k < c.cells
  · have hcells := cells_le_blocks_mul c
    have hahead : Ahead c (decide (0 ≤ delta)) (i * c.width + k : Nat) := by
      unfold Ahead
      split <;> omega
    rw [hbits _ hahead]
  · simp [hcell]

/-- The masked datapath is the move shift (`41_shift_engine.md` R186). -/
theorem datapathMove_eq_moveBoard {c : Config} (hc : c.legal) {b : Board} (hb : BoardWf c b)
    {dx dy : Int} {chunks : List Nat} (hchunks : ∀ k ∈ chunks, 1 ≤ k ∧ k ≤ c.width)
    (hsum : chunks.sum = (linearShift c dx dy).natAbs) :
    datapathMove c chunks b dx dy = moveBoard c b dx dy := by
  obtain ⟨hlength, hblocks⟩ := testBit_applyMasks_runChunks hc (edgeMask c dx) hb hchunks hsum
  refine eq_of_testBit_blockAt hlength (moveBoard_wf c b dx dy).sized fun i hi k => ?_
  rw [datapathMove, hblocks i hi, testBit_edgeMask, bitOf_moveBoard_eq_bitAt hb]
  cases decide (k < c.width) <;> cases decide (i * c.width + k < c.cells) <;> simp

/-- The datapath with no edge mask is the raw shift (`41_shift_engine.md` R186). -/
theorem datapathRaw_eq_rawShiftBoard {c : Config} (hc : c.legal) {b : Board} (hb : BoardWf c b)
    {delta : Int} {chunks : List Nat} (hchunks : ∀ k ∈ chunks, 1 ≤ k ∧ k ≤ c.width)
    (hsum : chunks.sum = delta.natAbs) :
    datapathRaw c chunks b delta = rawShiftBoard c b delta := by
  obtain ⟨hlength, hblocks⟩ := testBit_applyMasks_runChunks hc (fun _ => c.wmask) hb hchunks hsum
  refine eq_of_testBit_blockAt hlength (rawShiftBoard_wf hb delta).sized fun i hi k => ?_
  rw [datapathRaw, hblocks i hi, testBit_wmask, bitOf_rawShiftBoard_eq_bitAt hb]
  cases decide (k < c.width) <;> simp

/-- The reference split: full chunks and what is left, `ceil(s / W)` of them (`41_shift_engine.md`
R181). -/
theorem chunksOf_splits (c : Config) (s : Nat) :
    (∀ k ∈ chunksOf c s, 1 ≤ k ∧ k ≤ c.width) ∧ (chunksOf c s).sum = s ∧
      (chunksOf c s).length = (s + c.width - 1) / c.width := by
  have hw := width_pos c
  by_cases hs : s = 0
  · subst hs
    simp [chunksOf, Nat.div_eq_of_lt (Nat.sub_lt hw Nat.one_pos)]
  · have hsplit := Nat.div_add_mod' (s - 1) c.width
    have hlast := Nat.mod_lt (s - 1) hw
    have hceil : (s + c.width - 1) / c.width = (s - 1) / c.width + 1 := by
      rw [← Nat.add_div_right _ hw]
      congr 1
      omega
    rw [chunksOf, if_neg hs, hceil]
    refine ⟨fun k hk => ?_, ?_, by simp⟩
    · rw [List.mem_append, List.mem_singleton] at hk
      obtain hfull | rfl := hk
      · rw [List.eq_of_mem_replicate hfull]
        exact ⟨hw, le_rfl⟩
      · omega
    · rw [List.sum_append, List.sum_replicate, List.sum_singleton, smul_eq_mul]
      omega

/-- Settles O43: the chunks shift every position by their sum, and the masks keep what the shift
function keeps. -/
theorem datapathComputesTheShift : Obligations.DatapathComputesTheShift := by
  intro c b hc hb
  exact ⟨fun dx dy chunks hchunks hsum => datapathMove_eq_moveBoard hc hb hchunks hsum,
    fun delta chunks hchunks hsum => datapathRaw_eq_rawShiftBoard hc hb hchunks hsum,
    chunksOf_splits c⟩

end Sys2Proof.Machine
end

section
/-! PROOFS. The combinators AND, OR and XOR (`42_combinators.md` R200 to R206): each is an operation
that acts bit by bit, and what the three share is said once, of any such operation. -/

namespace Sys2Proof.Machine

/-! ### Operations that act bit by bit -/

/-- `op` combines two blocks bit by bit by `f`, which makes a clear bit of two clear bits
(`42_combinators.md` R200, R204). -/
structure BitByBit (op : Block → Block → Block) (f : Bool → Bool → Bool) : Prop where
  testBit : ∀ u v k, (op u v).testBit k = f (u.testBit k) (v.testBit k)
  clear : f false false = false

theorem bitByBit_and : BitByBit (· &&& ·) and := ⟨fun u v k => Nat.testBit_and u v k, rfl⟩

theorem bitByBit_or : BitByBit (· ||| ·) or := ⟨fun u v k => Nat.testBit_or u v k, rfl⟩

theorem bitByBit_xor : BitByBit (· ^^^ ·) xor := ⟨fun u v k => Nat.testBit_xor u v k, rfl⟩

section
variable {op : Block → Block → Block} {f : Bool → Bool → Bool} {c : Config} {a b : Board}

/-- Above `w` bits only clear bits meet (`42_combinators.md` R204). -/
theorem BitByBit.lt_two_pow (h : BitByBit op f) {w u v : Nat} (hu : u < 2 ^ w) (hv : v < 2 ^ w) :
    op u v < 2 ^ w := by
  refine Nat.lt_pow_two_of_testBit _ fun k hk => ?_
  have hle : 2 ^ w ≤ 2 ^ k := Nat.pow_le_pow_right Nat.two_pos hk
  rw [h.testBit, Nat.testBit_lt_two_pow (hu.trans_le hle),
    Nat.testBit_lt_two_pow (hv.trans_le hle), h.clear]

theorem BitByBit.boardWf_combine (h : BitByBit op f) (ha : BoardWf c a) (hb : BoardWf c b) :
    BoardWf c (combineBoards c op a b) :=
  boardWf_combineBoards h.clear h.testBit (fun _ _ => h.lt_two_pow) ha hb

/-- A bit of the result depends on that bit of each source only, in the padding too
(`42_combinators.md` R200, R204). -/
theorem BitByBit.bitOf_combine (h : BitByBit op f) (ha : BoardWf c a) (hb : BoardWf c b)
    (p : Nat) : bitOf c (combineBoards c op a b) p = f (bitOf c a p) (bitOf c b p) := by
  obtain hcell | hpadding := lt_or_ge p c.cells
  · have hp : p < c.blocks * c.width := hcell.trans_le (cells_le_blocks_mul c)
    rw [(bitOf_combineBoards h.testBit (fun _ _ => h.lt_two_pow) ha hb p).2, decide_eq_true hp,
      Bool.true_and]
  · rw [bitOf_of_cells_le (h.boardWf_combine ha hb) hpadding, bitOf_of_cells_le ha hpadding,
      bitOf_of_cells_le hb hpadding, h.clear]

/-- A cell of the result is decided by that cell of each source (`42_combinators.md` R201 to R203);
outside the grid all three are clear. -/
theorem BitByBit.cellOf_combine (h : BitByBit op f) (ha : BoardWf c a) (hb : BoardWf c b)
    (x y : Nat) : cellOf c (combineBoards c op a b) x y = f (cellOf c a x y) (cellOf c b x y) := by
  rw [cellOf_eq_bitOf (h.boardWf_combine ha hb).2.1, cellOf_eq_bitOf ha.2.1,
    cellOf_eq_bitOf hb.2.1, h.bitOf_combine ha hb]
  cases inBounds c x y with
  | false => exact h.clear.symm
  | true => rfl

/-- The count of a combination (`40_board_core.md` R135). -/
theorem BitByBit.countOnes_combine (h : BitByBit op f) (ha : BoardWf c a) (hb : BoardWf c b) :
    countOnes c (combineBoards c op a b) =
      (List.range c.cells).countP fun p => f (bitOf c a p) (bitOf c b p) := by
  rw [countOnes_eq_countP (h.boardWf_combine ha hb), funext (h.bitOf_combine ha hb)]

/-! ### A register combined with itself -/

/-- AND and OR copy a board combined with itself (`42_combinators.md` R201, R202). -/
theorem combineBoards_self (hop : ∀ v, op v v = v) (hb : BoardWf c b) :
    combineBoards c op b b = b := by
  refine board_ext (by rw [length_combineBoards, hb.1]) fun i hi => ?_
  rw [length_combineBoards] at hi
  rw [blockAt_combineBoards, if_pos hi, hop]

/-- XOR clears a board combined with itself (`42_combinators.md` R203). -/
theorem combineBoards_self_eq_zeroBoard (hop : ∀ v, op v v = 0) :
    combineBoards c op b b = zeroBoard c := by
  refine board_ext (by rw [length_combineBoards, length_zeroBoard]) fun i _ => ?_
  rw [blockAt_combineBoards, hop, ite_self, blockAt_zeroBoard]

/-! ### The commands -/

/-- The word of a command with three registers is its fields in their places (`30_encoding.md` R81,
R82). -/
theorem toWord_threeRegisters (opcode : BitVec 6) (rd rs1 rs2 : Reg) :
    (Fields.mk opcode (bitsOfReg rd) (bitsOfReg rs1) (fOfRs2 rs2) 0 0).toWord =
      opcode.setWidth 32 <<< 26 ||| rdBits rd ||| rs1Bits rs1 ||| rs2Bits rs2 := by
  simp [Fields.toWord_eq_or, rdBits_eq, rs1Bits_eq, rs2Bits_eq]

/-- The meaning that the three commands share: `rd` gets the combination of the sources, block by
block and so cell by cell, and nothing else changes (`42_combinators.md` R200). `self` is what a
register combined with itself gives. -/
theorem BitByBit.completes {s : State} {self : Board} (h : BitByBit op f) (hs : s.Wf)
    (rd rs1 rs2 : Reg)
    (hself : rs1 = rs2 → combineBoards s.cfg op (s.board rs1) (s.board rs2) = self) :
    ∃ t, (s.setBoard rd (combineBoards s.cfg op (s.board rs1) (s.board rs2))).respond 0 = .next t ∧
      Completed s t 0 ∧ SameBoardsBut rd s t ∧ t.Wf ∧
      (∀ i, i < s.cfg.blocks → t.blkRead rd i = op (s.blkRead rs1 i) (s.blkRead rs2 i)) ∧
      (∀ x y, t.cell rd x y = f (s.cell rs1 x y) (s.cell rs2 x y)) ∧
      (rs1 = rs2 → t.board rd = self) := by
  have h1 : BoardWf s.cfg (s.board rs1) := hs.2 rs1
  have h2 : BoardWf s.cfg (s.board rs2) := hs.2 rs2
  refine ⟨_, rfl, completed_setBoard s rd _ 0, sameBoardsBut_setBoard s rd _ _ _,
    wf_setBoard hs rd (h.boardWf_combine h1 h2), fun i hi => ?blocks, fun x y => ?cells,
    fun heq => ?self⟩
  case blocks => rw [blkRead_setBoard_answer, blockAt_combineBoards, if_pos hi]; rfl
  case cells => rw [cell_setBoard_answer, h.cellOf_combine h1 h2]; rfl
  case self => rw [answer_board, setBoard_board_same, hself heq]

end

/-- Settles O27: all three combine bit by bit; a register with itself is copied by AND and OR and
cleared by XOR. -/
theorem combinatorsActCellwise : Obligations.CombinatorsActCellwise := by
  intro rd rs1 rs2 s hs
  refine ⟨⟨toWord_threeRegisters 0x08 rd rs1 rs2, bitByBit_and.completes hs rd rs1 rs2 ?and⟩,
    ⟨toWord_threeRegisters 0x09 rd rs1 rs2, bitByBit_or.completes hs rd rs1 rs2 ?or⟩,
    ⟨toWord_threeRegisters 0x0A rd rs1 rs2, bitByBit_xor.completes hs rd rs1 rs2 ?xor⟩⟩
  case and => rintro rfl; exact combineBoards_self Nat.and_self (hs.2 rs1)
  case or => rintro rfl; exact combineBoards_self Nat.or_self (hs.2 rs1)
  case xor => rintro rfl; exact combineBoards_self_eq_zeroBoard Nat.xor_self

/-! ### Counts -/

/-- Two pairs of predicates that hold equally often of every element have equal counts together. -/
theorem countP_add_countP_eq {α : Type} {f g f' g' : α → Bool}
    (h : ∀ x, (f x).toNat + (g x).toNat = (f' x).toNat + (g' x).toNat) (l : List α) :
    l.countP f + l.countP g = l.countP f' + l.countP g' := by
  induction l with
  | nil => rfl
  | cons x l ih =>
    have hx := h x
    simp only [Bool.toNat, Bool.cond_eq_ite] at hx
    simp only [List.countP_cons]
    omega

/-- Settles O28: the laws hold of the bits at each position, and the counts add these up. -/
theorem combinatorCountsAdd : Obligations.CombinatorCountsAdd := by
  intro c a b _ ha hb
  rw [bitByBit_or.countOnes_combine ha hb, bitByBit_and.countOnes_combine ha hb,
    bitByBit_xor.countOnes_combine ha hb, countOnes_eq_countP ha, countOnes_eq_countP hb]
  constructor
  · have hbits : ∀ u v : Bool, (u || v).toNat + (u && v).toNat = u.toNat + v.toNat := by decide
    exact countP_add_countP_eq (fun p => hbits _ _) _
  · have hbits : ∀ u v : Bool,
        (u ^^ v).toNat + (u && v).toNat = (u || v).toNat + false.toNat := by decide
    simpa using countP_add_countP_eq (fun p => hbits (bitOf c a p) (bitOf c b p))
      (List.range c.cells)

end Sys2Proof.Machine
end

section
/-! PROOFS. The system commands NOP, RDCSR and CLRERR (`43_system.md` R220 to R222): the CSR words
field by field, and each command by its effect. -/

namespace Sys2Proof.Machine

/-! ### The CSR words -/

/-- The upper part of a word counts by the weight of its lowest bit. -/
theorem toNat_append_eq_add {m n : Nat} (x : BitVec m) (y : BitVec n) :
    (x ++ y).toNat = 2 ^ n * x.toNat + y.toNat := by
  rw [BitVec.toNat_append, Nat.shiftLeft_eq, Nat.mul_comm, ← Nat.two_pow_add_eq_or_of_lt y.isLt]

/-- `CFG0` as an integer: in a legal shape `N` fits its field (`10_state.md` R26). -/
theorem toNat_cfg0 {c : Config} (hc : c.legal) :
    (cfg0 c).toNat = c.n + 2 ^ 8 * c.wcode.toNat + 2 ^ 16 * 8 := by
  have hn : c.n % 2 ^ 8 = c.n := Nat.mod_eq_of_lt (Nat.lt_succ_of_le hc.2)
  simp only [cfg0, toNat_append_eq_add, BitVec.toNat_ofNat, numRegs, hn]
  omega

/-- `CFG1` as an integer: in a legal shape `B` and `REM` fit their fields (`10_state.md` R27). -/
theorem toNat_cfg1 {c : Config} (hc : c.legal) :
    (cfg1 c).toNat = c.blocks + 2 ^ 16 * c.rem := by
  have hblocks : c.blocks % 2 ^ 16 = c.blocks :=
    Nat.mod_eq_of_lt ((blocks_le hc).trans_lt (by decide))
  have hrem : c.rem % 2 ^ 8 = c.rem :=
    Nat.mod_eq_of_lt (((rem_le hc).trans (width_le c)).trans_lt (by decide))
  simp only [cfg1, toNat_append_eq_add, BitVec.toNat_ofNat, hblocks, hrem]
  omega

/-- The bits of `ERR` that are not implemented read 0 (`10_state.md` R28). -/
theorem toNat_errWord (err : BitVec 4) : (errWord err).toNat = err.toNat := by
  rw [errWord, toNat_append_eq_add, BitVec.toNat_zero, Nat.mul_zero, Nat.zero_add]

/-! ### RDCSR -/

/-- The word of an RDCSR (`43_system.md` R221). -/
theorem encode_rdcsr_word (csr : BitVec 8) :
    (encode (.rdcsr csr)).word = 0x48000000#32 ||| csr.setWidth 32 := by
  simp [encode, encodeFields, Fields.toWord_eq_or]

/-- RDCSR of a CSR that exists answers its word and does nothing else (`43_system.md` R221). -/
theorem answersOnly_rdcsr_of_csr {s : State} {csr : BitVec 8} {v : BitVec 32}
    (hv : s.csr csr = some v) : AnswersOnly (.rdcsr csr) s v.toNat :=
  fun _ => execRdcsr_eq_next.2 (.inl ⟨v, hv, rfl⟩)

/-- Settles O50: a CSR that exists is only read, and its word is the integer that its fields make;
any other number raises BAD_CSR. -/
theorem rdcsrReadsTheRegisters : Obligations.RdcsrReadsTheRegisters := by
  intro s hs
  refine ⟨?cfg0, ?cfg1, ?err, fun csr hcsr => ?badCsr, encode_rdcsr_word⟩
  case cfg0 =>
    obtain ⟨t, hexec, hcompleted, hsame⟩ :=
      (answersOnly_rdcsr_of_csr (s := s) (csr := 0) rfl).completes
    exact ⟨t, _, hexec, hcompleted, hsame, toNat_cfg0 hs.1, width_eq_wcode s.cfg⟩
  case cfg1 =>
    obtain ⟨t, hexec, hcompleted, hsame⟩ :=
      (answersOnly_rdcsr_of_csr (s := s) (csr := 1) rfl).completes
    exact ⟨t, _, hexec, hcompleted, hsame, toNat_cfg1 hs.1, blocks_pos hs.1, blocks_le hs.1,
      rem_pos hs.1, rem_le hs.1⟩
  case err =>
    rw [← toNat_errWord]
    exact (answersOnly_rdcsr_of_csr (csr := 2) rfl).completes
  case badCsr =>
    exact ⟨_, execRdcsr_eq_next.2 (.inr ⟨csr_eq_none.2 hcsr, rfl⟩), raised_of_raise s .badCsr,
      fun _ => rfl⟩

/-! ### CLRERR -/

/-- A command other than CLRERR clears no bit of `ERR`: it only sets those of its status
(`43_system.md` R222, `60_exceptions.md` R311). -/
theorem Effect.err_and_eq {s t : State} {d : Except DecodeError Instr} {resp : Response}
    (h : Effect s d resp t) (hd : d ≠ .ok .clrerr) : s.err &&& t.err = s.err := by
  rw [h.err_eq hd]
  ext k hk
  simpa using .inl

theorem effect_of_exec {i : Instr} {s t : State} (h : exec i s = .next t) :
    ∃ resp, Effect s (.ok i) resp t := by
  obtain ⟨resp, t', hexec, heff⟩ := exec_effect i s
  obtain rfl : t' = t := by simpa [hexec] using h
  exact ⟨resp, heff⟩

/-- Settles O51: CLRERR is the one effect that does not only add bits to `ERR`, and it
changes nothing but `ERR` and the transcript. -/
theorem clrerrClearsTheStickyBits : Obligations.ClrerrClearsTheStickyBits := by
  refine ⟨rfl, fun i s t hexec hi => ?others, fun s => ?clrerr⟩
  case others =>
    obtain ⟨_, heff⟩ := effect_of_exec hexec
    exact heff.err_and_eq (by simpa using hi)
  case clrerr => exact ⟨_, rfl, clearErr_err s, fun _ => rfl, rfl, rfl, rfl, rfl⟩

/-! ### NOP -/

/-- The opcode 0 belongs to NOP alone (`30_encoding.md` R87). -/
theorem eq_nop_of_op_eq_zero {i : Instr} (h : (encodeFields i).op = 0#6) : i = .nop := by
  cases i with
  | nop => rfl
  | _ => simp [encodeFields, shmFields] at h

/-- The only word with the opcode 0 that decodes is the zero word (`43_system.md` R220): what it
decodes to is NOP, and an instruction has one word. -/
theorem word_eq_zero_of_decode {cmd : Command} {i : Instr} (hdec : decode cmd = .ok i)
    (hop : cmd.word.extractLsb' 26 6 = 0#6) : cmd.word = 0#32 := by
  have hfields : encodeFields i = Fields.ofWord cmd.word := encodeFields_of_decodeFields hdec
  obtain rfl : i = .nop := eq_nop_of_op_eq_zero (by rw [hfields]; exact hop)
  exact (decodedWordIsItsEncoding cmd .nop hdec).symm

/-- Settles O49: a legal word with opcode 0 is the zero word, and NOP only answers. -/
theorem nopChangesNothing : Obligations.NopChangesNothing := by
  refine ⟨rfl, fun w wdata hop hw => ?illegal, fun s => ?nop⟩
  case illegal =>
    cases hdec : decode ⟨w, wdata⟩ with
    | error e => exact ⟨e, rfl⟩
    | ok i => exact absurd (word_eq_zero_of_decode hdec hop) hw
  case nop => exact AnswersOnly.completes (i := .nop) fun _ => rfl

end Sys2Proof.Machine
end

section
/-! PROOFS. The Move algebra (`44_move_algebra.md` R244 to R249): what each function does to the
displacement, the laws between the functions, and the two components of a Move on a board. -/

namespace Sys2Proof.Machine

/-! ### Displacements -/

/-- A point reflection (`44_move_algebra.md` R244). -/
theorem Move.disp_mirror (m : Move) : m.mirror.disp = (-m.disp.1, -m.disp.2) := by
  cases m <;> simp [Move.mirror, Move.disp]

/-- A quarter turn to the right (`44_move_algebra.md` R245). -/
theorem Move.disp_rotateCW (m : Move) : m.rotateCW.disp = (m.disp.2, -m.disp.1) := by
  cases m <;> simp [Move.rotateCW, Move.disp]

/-- A quarter turn to the left (`44_move_algebra.md` R246). -/
theorem Move.disp_rotateACW (m : Move) : m.rotateACW.disp = (-m.disp.2, m.disp.1) := by
  cases m <;> simp [Move.rotateACW, Move.disp]

/-- Both components grow by the factor (`44_move_algebra.md` R247). -/
theorem Move.disp_scale (m : Move) (k : Nat) :
    (m.scale k).disp = ((k : Int) * m.disp.1, (k : Int) * m.disp.2) := by
  cases m <;> simp [Move.scale, Move.disp, Int.mul_comm]

/-- The two parts of a Move add up to it (`44_move_algebra.md` R248). -/
theorem Move.disp_split_add (m : Move) : m.split.1.disp + m.split.2.disp = m.disp := by
  cases m <;> simp [Move.split, Move.disp]

/-- Settles O53: the displacement after each function, then the sum of the split componentwise. -/
theorem moveAlgebraDisplacements : Obligations.MoveAlgebraDisplacements := fun m =>
  ⟨m.disp_mirror, m.disp_rotateCW, m.disp_rotateACW, m.disp_scale,
    congrArg Prod.fst m.disp_split_add, congrArg Prod.snd m.disp_split_add⟩

/-! ### Laws between the functions -/

/-- Each direction is the opposite of its opposite (`44_move_algebra.md` R249 (a)). -/
@[simp] theorem Move.mirror_mirror (m : Move) : m.mirror.mirror = m := by
  cases m <;> rfl

/-- Two quarter turns to the right make a half turn (`44_move_algebra.md` R249 (c)). -/
@[simp] theorem Move.rotateCW_rotateCW (m : Move) : m.rotateCW.rotateCW = m.mirror := by
  cases m <;> rfl

/-- The table of R246 is the inverse of the one of R245 (`44_move_algebra.md` R246). -/
@[simp] theorem Move.rotateACW_rotateCW (m : Move) : m.rotateCW.rotateACW = m := by
  cases m <;> rfl

/-- Two quarter turns to the left make the same half turn. -/
@[simp] theorem Move.rotateACW_rotateACW (m : Move) : m.rotateACW.rotateACW = m.mirror := by
  cases m <;> rfl

/-- The vertical part comes first, so that the two merge by the orthogonal pairs of R243
(`44_move_algebra.md` R249 (d)). -/
theorem Move.combine_split (m : Move) : Move.combine m.split.1 m.split.2 = m := by
  cases m <;> rfl

/-! ### The two parts of a Move on a board -/

/-- On each axis one of the two parts of a Move stands still (`44_move_algebra.md` R248). -/
theorem Move.disp_split_mul (m : Move) : m.split.1.disp * m.split.2.disp = 0 := by
  cases m <;> simp [Move.split, Move.disp]

/-- Moves of which one stands still on each axis do not oppose each other, so they add on a board
(`41_shift_engine.md` R187 (b)). -/
theorem moveBoard_moveBoard_of_disp {c : Config} {b : Board} (hc : c.legal) (hb : BoardWf c b)
    {u v m : Move} (hmul : u.disp * v.disp = 0) (hadd : u.disp + v.disp = m.disp) :
    moveBoard c b m.disp.1 m.disp.2 =
      moveBoard c (moveBoard c b u.disp.1 u.disp.2) v.disp.1 v.disp.2 := by
  rw [unopposedMovesAdd c b _ _ _ _ hc hb (congrArg Prod.fst hmul).ge (congrArg Prod.snd hmul).ge,
    ← hadd]
  rfl

/-- Settles O54: four quarter turns are two half turns, so the laws of turning follow from those of
two turns; the parts of a split Move add on a board whichever comes first. -/
theorem moveAlgebraLaws : Obligations.MoveAlgebraLaws := by
  refine ⟨fun m => ⟨m.mirror_mirror, ?clockwise, ?antiClockwise, m.rotateACW_rotateCW,
    m.rotateCW_rotateCW, m.combine_split⟩, fun m c b hc hb => ⟨?verticalFirst, ?horizontalFirst⟩⟩
  case clockwise => rw [Move.rotateCW_rotateCW, Move.rotateCW_rotateCW, Move.mirror_mirror]
  case antiClockwise => rw [Move.rotateACW_rotateACW, Move.rotateACW_rotateACW, Move.mirror_mirror]
  case verticalFirst => exact moveBoard_moveBoard_of_disp hc hb m.disp_split_mul m.disp_split_add
  case horizontalFirst =>
    exact moveBoard_moveBoard_of_disp hc hb ((mul_comm _ _).trans m.disp_split_mul)
      ((add_comm _ _).trans m.disp_split_add)

end Sys2Proof.Machine
end

section
/-! PROOFS. COLLECT (`45_move_builder.md` R290, R291): the SHMs of a list of Moves one after another
on one register, and the pairs of SHM and OR that gather the moved sources in `rd`. -/

namespace Sys2Proof.Machine

/-! ### The SHM of a Move -/

/-- A Move's SHM moves the board by the Move's own displacement, what saturation cuts off being
beyond the board (`44_move_algebra.md` R242). -/
theorem exec_shm_disp {s : State} (hs : s.Wf) (m : Move) (rd rs1 : Reg) :
    exec (m.shm rd rs1) s = s.shiftInto rd rs1 m.disp.1 m.disp.2 := by
  rw [exec_shm hs, State.shiftInto, moveBoard_saturate hs.1 (hs.2 rs1), State.shiftInto]

/-! ### OR_ACCUMULATE -/

/-- `t` is `s` after the SHM and the OR of each Move of the list: `rd` has gained the board of `rs1`
shifted by every Move, `tmp` may hold anything, the other registers are as before, and each command
has answered OK (`45_move_builder.md` R290). -/
structure Gathered (rd rs1 tmp : Reg) (moves : List Move) (s t : State) : Prop where
  wf : t.Wf
  cfg : t.cfg = s.cfg
  others : ∀ r, r ≠ rd → r ≠ tmp → t.board r = s.board r
  cells : ∀ x y : Nat, inBounds s.cfg x y = true → t.cell rd x y = (s.cell rd x y ||
    moves.any fun m => cellAt s.cfg (s.board rs1) ((x : Int) - m.disp.1) ((y : Int) - m.disp.2))
  err : t.err = s.err
  outbox : t.outbox = s.outbox ++ List.replicate (2 * moves.length) ⟨.ok, 0⟩

section
variable {rd rs1 tmp : Reg} {s t u : State}

theorem gathered_nil (hs : s.Wf) : Gathered rd rs1 tmp [] s s where
  wf := hs
  cfg := rfl
  others _ _ _ := rfl
  cells _ _ _ := by simp
  err := rfl
  outbox := by simp

/-- What two lists gather one after the other, both lists together gather: the source is none of the
registers written. -/
theorem Gathered.append {ms ns : List Move} (h₁ : Gathered rd rs1 tmp ms s t)
    (h₂ : Gathered rd rs1 tmp ns t u) (hrd : rd ≠ rs1) (htmp : rs1 ≠ tmp) :
    Gathered rd rs1 tmp (ms ++ ns) s u where
  wf := h₂.wf
  cfg := h₂.cfg.trans h₁.cfg
  others r hr hr' := (h₂.others r hr hr').trans (h₁.others r hr hr')
  cells x y hxy := by
    rw [h₂.cells x y (by rwa [h₁.cfg]), h₁.cells x y hxy, h₁.cfg, h₁.others rs1 hrd.symm htmp,
      List.any_append, Bool.or_assoc]
  err := h₂.err.trans h₁.err
  outbox := by
    rw [h₂.outbox, h₁.outbox, List.append_assoc, List.replicate_append_replicate,
      List.length_append, Nat.mul_add]

/-- One Move's pair of commands: the SHM leaves the moved source in `tmp`, the OR adds it to
`rd`. -/
theorem exec_shm_or_gathers (hs : s.Wf) (hdt : rd ≠ tmp) (m : Move) :
    ∃ t u, exec (m.shm tmp rs1) s = .next t ∧ exec (.or rd rd tmp) t = .next u ∧
      Gathered rd rs1 tmp [m] s u := by
  obtain ⟨t, hshm, ⟨houtboxT, herrT, -, hcfgT, -⟩, hothersT, hwfT, hboardT⟩ :=
    shiftInto_completes hs tmp rs1 m.disp.1 m.disp.2
  obtain ⟨-, ⟨-, u, hor, ⟨houtboxU, herrU, -, hcfgU, -⟩, hothersU, hwfU, -, hcellsU, -⟩, -⟩ :=
    combinatorsActCellwise rd rd tmp t hwfT
  refine ⟨t, u, (exec_shm_disp hs m tmp rs1).trans hshm, hor, hwfU, hcfgU.trans hcfgT,
    fun r hr hr' => (hothersU r hr).trans (hothersT r hr'), fun x y hxy => ?cells,
    herrU.trans herrT, ?outbox⟩
  case cells =>
    have hmoved := movedBy_moveBoard (hs.2 rs1) m.disp.1 m.disp.2 x y hxy
    rw [hcellsU, State.cell, State.cell, hcfgT, hothersT rd hdt, hboardT, hmoved, List.any_cons,
      List.any_nil, Bool.or_false, State.cell]
  case outbox => simp [houtboxU, houtboxT]

/-- The commands of a list of Moves gather them all. -/
theorem execList_gathers (hs : s.Wf) (hrd : rd ≠ rs1) (hdt : rd ≠ tmp) (htmp : rs1 ≠ tmp)
    (moves : List Move) :
    ∃ t, execList (moves.flatMap fun m => [m.shm tmp rs1, .or rd rd tmp]) s = .next t ∧
      Gathered rd rs1 tmp moves s t := by
  induction moves generalizing s with
  | nil => exact ⟨s, rfl, gathered_nil hs⟩
  | cons m moves ih =>
    obtain ⟨t, u, hshm, hor, hfirst⟩ := exec_shm_or_gathers (rs1 := rs1) hs hdt m
    obtain ⟨v, hexec, hrest⟩ := ih hfirst.wf
    refine ⟨v, ?_, hfirst.append hrest hrd htmp⟩
    rw [List.flatMap_cons, List.cons_append, List.cons_append, List.nil_append,
      execList_cons_of_exec hshm, execList_cons_of_exec hor, hexec]

end

/-- Settles O55: CLR leaves no cell in `rd`, and each Move's pair of commands adds the source
shifted by it. -/
theorem collectGathersTheUnion : Obligations.CollectGathersTheUnion := by
  intro rd rs1 tmp moves s hs hrd hdt htmp
  have hclr := execList_cons_of_exec (updates_clr s.cfg rd s rfl)
  obtain ⟨t, hexec, h⟩ := execList_gathers (s := (s.setBoard rd (zeroBoard s.cfg)).answer .ok 0)
    (wf_setBoard hs rd (zeroBoard_wf s.cfg)) hrd hdt htmp moves
  have hothers : ∀ r, r ≠ rd → r ≠ tmp → t.board r = s.board r := fun r hr hr' => by
    rw [h.others r hr hr', answer_board, setBoard_board_ne s _ hr]
  refine ⟨t, (hclr _).trans hexec, hothers rs1 hrd.symm htmp, hothers, fun x y hxy => ?cells,
    h.err, ?outbox⟩
  case cells =>
    rw [h.cells x y hxy, cell_setBoard_answer, cellOf_zeroBoard, Bool.false_or, answer_board,
      setBoard_board_ne s _ hrd.symm, answer_cfg, setBoard_cfg]
  case outbox =>
    rw [h.outbox, answer_outbox, setBoard_outbox, List.append_assoc, List.singleton_append,
      ← List.replicate_succ, Nat.add_comm]

/-! ### CHAINED -/

/-- SHMs of one register, one after another, leave the fold of the moves in it and answer OK
each. -/
theorem execList_shm_chain {s : State} (hs : s.Wf) (rd : Reg) (moves : List Move) :
    execList (moves.map fun m => m.shm rd rd) s =
      .next ((s.setBoard rd
        (moves.foldl (fun b m => moveBoard s.cfg b m.disp.1 m.disp.2) (s.board rd))).answerAll
          (List.replicate moves.length ⟨.ok, 0⟩)) := by
  induction moves generalizing s with
  | nil =>
    rw [List.map_nil, List.foldl_nil, List.length_nil, List.replicate_zero, answerAll_nil,
      setBoard_board_self, execList]
  | cons m moves ih =>
    have hmove : exec (m.shm rd rd) s = .next
        ((s.setBoard rd (moveBoard s.cfg (s.board rd) m.disp.1 m.disp.2)).answer .ok 0) :=
      exec_shm_disp hs m rd rd
    have hrest := ih (s := (s.setBoard rd _).answer .ok 0)
      (wf_setBoard hs rd (moveBoard_wf s.cfg (s.board rd) m.disp.1 m.disp.2))
    rw [List.map_cons, execList_cons_of_exec hmove, hrest, answer_cfg, setBoard_cfg, answer_board,
      setBoard_board_same, setBoard_answer, setBoard_setBoard, answerAll_answer, List.foldl_cons,
      List.length_cons, List.replicate_succ]

/-- Settles O56: MOV copies the source to `rd`, and the SHMs move it there. -/
theorem collectChainsTheMoves : Obligations.CollectChainsTheMoves := by
  intro rd rs1 _ moves s hs _
  have hmov : exec (.mov rd rs1) s = .next ((s.setBoard rd (s.board rs1)).answer .ok 0) := rfl
  have hchain := execList_shm_chain (s := (s.setBoard rd (s.board rs1)).answer .ok 0)
    (wf_setBoard hs rd (hs.2 rs1)) rd moves
  refine ⟨_, (execList_cons_of_exec hmov _).trans hchain, ?board, fun r hr => ?others, rfl,
    ?outbox⟩
  case board => simp
  case others => simp [hr]
  case outbox => simp [Nat.add_comm 1, List.replicate_succ]

end Sys2Proof.Machine
end

section
/-! PROOFS. The errors (`60_exceptions.md` R302 to R305): the words that select no row of the opcode
map, and which error writes a board register. -/

namespace Sys2Proof.Machine

/-! ### Words that are no command -/

/-- Every row fixes the opcode of its words (`30_encoding.md` R87). -/
theorem op_mask_eq_allOnes :
    ∀ row ∈ opcodeMap, (Fields.ofWord row.mask).op = BitVec.allOnes 6 := by
  decide

/-- No row has a reserved opcode (`30_encoding.md` R87, R89). -/
theorem op_bits_not_reserved : ∀ row ∈ opcodeMap,
    (Fields.ofWord row.bits).op.toNat < 0x14 ∧ (Fields.ofWord row.bits).op.toNat ≠ 0x0B ∧
      (Fields.ofWord row.bits).op.toNat ≠ 0x0F := by
  decide

/-- A word that selects a row has that row's opcode (`30_encoding.md` R87). -/
theorem op_eq_of_selects {row : OpRow} (hrow : row ∈ opcodeMap) {w : CmdWord}
    (h : row.selects w = true) : (Fields.ofWord w).op = (Fields.ofWord row.bits).op :=
  calc (Fields.ofWord w).op
      = (Fields.ofWord w).op &&& (Fields.ofWord row.mask).op :=
        (and_of_eq_allOnes (op_mask_eq_allOnes row hrow)).symm
    _ = (Fields.ofWord row.bits).op := congrArg Fields.op (masked_of_selects h)

/-- A word that selects no row is no command: what decodes selects the row of its mnemonic
(`30_encoding.md` R88). -/
theorem decode_eq_error_of_unselected {cmd : Command}
    (h : ∀ row ∈ opcodeMap, row.selects cmd.word = false) : ∃ err, decode cmd = .error err := by
  cases hdec : decode cmd with
  | error err => exact ⟨err, rfl⟩
  | ok i =>
    obtain ⟨row, hrow, hsel, _⟩ := (decoderFollowsOpcodeMap.2 cmd).1 i hdec
    simp [h row hrow] at hsel

/-- What a word that is no command does (`60_exceptions.md` R302). -/
theorem Effect.eq_of_error {s t : State} {err : DecodeError} {resp : Response}
    (h : Effect s (.error err) resp t) :
    t = (s.record .illegalOp).answer (.err .illegalOp) 0 := by
  cases h; rfl

/-- Settles O6: a word that selects no row does not decode, so its effect is that of an illegal
word; and a reserved opcode is the opcode of no row. -/
theorem illegalWordRaisesIllegalOp : Obligations.IllegalWordRaisesIllegalOp := by
  refine ⟨fun s cmd rest hq hnone => ?illegal, fun w hop row hrow => ?reserved⟩
  case illegal =>
    obtain ⟨err, hdec⟩ := decode_eq_error_of_unselected hnone
    obtain ⟨resp, t, hstep, heff⟩ := step_effect hq
    obtain rfl := (hdec ▸ heff).eq_of_error
    exact ⟨_, hstep, rfl, rfl, rfl, rfl, rfl, rfl⟩
  case reserved =>
    rw [← Bool.not_eq_true]
    intro hsel
    obtain ⟨hlt, hne, hne'⟩ := op_bits_not_reserved row hrow
    rw [← op_eq_of_selects hrow hsel] at hlt hne hne'
    obtain heq | heq | hle := hop
    · exact hne heq
    · exact hne' heq
    · exact absurd hlt (Nat.not_lt.2 hle)

/-! ### The errors that write no register -/

/-- An error other than ILLEGAL_MOVE writes no register (`60_exceptions.md` R302, R304, R305). -/
theorem Effect.sameBoards_of_err {s t : State} {d : Except DecodeError Instr} {e : ErrKind}
    {data : Nat} (h : Effect s d ⟨.err e, data⟩ t) (he : e ≠ .illegalMove) : SameBoards s t := by
  cases h with
  | reject | illegalWord => exact fun _ => rfl
  | illegalMove => exact absurd rfl he

/-- Settles O9: an idle step answers nothing, and any other step is an effect, whose response joins
the transcript. -/
theorem onlyIllegalMoveErrorsWrite : Obligations.OnlyIllegalMoveErrorsWrite := by
  intro s t e data hstep hout he
  obtain rfl | ⟨rest, d, resp, heff⟩ := eq_or_effect_of_step hstep
  · simp at hout
  · obtain rfl : resp = ⟨.err e, data⟩ := by simpa [heff.outbox_eq] using hout
    exact heff.sameBoards_of_err he

end Sys2Proof.Machine
end
